-- ==== Sys2Proof/Word.lean ====
section
/-! DEFINITION. The two word types of the spec (00_scope R10): bytes and 32-bit words. -/

namespace Sys2Proof

/-- `u8` of R10. -/
abbrev Byte := BitVec 8

/-- `u32` of R10. -/
abbrev Word := BitVec 32

end Sys2Proof
end

