-- ==== Sys2Proof/Syntax.lean ====
section
/-! DEFINITION. The instructions: one constructor per row of spec/opcode_table.json, the fields named by the
letters of the row's pattern. -/

namespace Sys2Proof

/-- What the block decodes or emits (00_scope R4): the items of a Yaz0 frame and the host commands. -/
inductive Instr where
  /-- `CODE k`: the code byte that opens a group (30_encoding R96). -/
  | code (k : Byte)
  /-- `LIT v`: a literal byte (R101). -/
  | lit (v : Byte)
  /-- `REF2`: a two-byte back-reference; `n` is the length minus 2, `d` the distance field (R102). -/
  | ref2 (n : BitVec 4) (d : BitVec 12)
  /-- `REF3`: a three-byte back-reference; `d` is the distance field, `m` the length minus 0x12 (R103). -/
  | ref3 (d : BitVec 12) (m : Byte)
  /-- `HDR`: the 16-byte frame header with the uncompressed size (R90 to R93). -/
  | hdr (size : Word)
  /-- `CRC`: command code 1 (R112). -/
  | crc
  /-- `DEC`: command code 2 (R112). -/
  | dec
  /-- `ENC`: command code 3 (R112). -/
  | enc
deriving DecidableEq, Repr

end Sys2Proof
end

