-- ==== Sys2Proof/WellFormed.lean ====
section
/-! DEFINITION. Which terms of `Instr` have an encoding. -/

namespace Sys2Proof

/-- A `REF2` with `n = 0` has no encoding: those bytes are a `REF3` (30_encoding R100, R102). Every other
field value is legal (R106). -/
def Instr.wf : Instr → Bool
  | .ref2 n _ => n != 0
  | .code _ => true
  | .lit _ => true
  | .ref3 _ _ => true
  | .hdr _ => true
  | .crc => true
  | .dec => true
  | .enc => true

end Sys2Proof
end

