-- ==== Sys2Proof/Decode.lean ====
section
/-! DEFINITION. Decoding, total on any bytes and rejecting by name; then the encoder, written from the same
tables (30_encoding). Byte sequences are in offset order, multi-byte quantities big-endian (20_memory R65). -/

namespace Sys2Proof

/-- The big-endian bytes of a word, most significant first (00_scope R12, `MemWrite`). -/
def be32Bytes (v : Word) : List Byte :=
  [v.extractLsb' 24 8, v.extractLsb' 16 8, v.extractLsb' 8 8, v.extractLsb' 0 8]

/-- The word of four big-endian bytes (00_scope R12, `MemRead`). -/
def be32 (b0 b1 b2 b3 : Byte) : Word := b0 ++ b1 ++ b2 ++ b3

/-- `dist = ((b1 & 0x0F) << 8) | b2` (30_encoding R104): a 12-bit field. -/
def distField (b1 b2 : Byte) : BitVec 12 := b1.extractLsb' 0 4 ++ b2

/-- Where a sequence of bytes stands, which is what tells how to read it (R95, R100: "A token can be decoded
only with its code bit known"). -/
inductive Context where
  /-- the first byte of a group -/
  | groupStart
  /-- after a code byte, with the governing code bit -/
  | token (codeBit : Bool)
  /-- the first 16 bytes of a frame -/
  | frameStart
  /-- the command register -/
  | command
deriving DecidableEq, Repr

/-- Why bytes decode to nothing. -/
inductive DecodeError where
  /-- fewer bytes than the item needs (reported as `SRC_EXHAUSTED` by the decoder unit, R181) -/
  | truncated
  /-- the first four bytes of a header are not "Yaz0" (R91) -/
  | badMagic
  /-- a reserved byte of a header is not zero (R93) -/
  | badReserved
  /-- a command code other than 1, 2, 3 (R113) -/
  | illegalCommand (code : Word)
deriving DecidableEq, Repr

/-- The frame magic, ASCII "Yaz0" (30_encoding R91). -/
def magicBytes : List Byte := [0x59, 0x61, 0x7A, 0x30]

/-- The eight reserved header bytes (R93). -/
def reservedBytes : List Byte := [0, 0, 0, 0, 0, 0, 0, 0]

/-- The code byte of a group (R96). -/
def decodeCodeByte : List Byte → Except DecodeError (Instr × List Byte)
  | k :: rest => .ok (.code k, rest)
  | [] => .error .truncated

/-- A literal: any byte (R101). -/
def decodeLiteral : List Byte → Except DecodeError (Instr × List Byte)
  | v :: rest => .ok (.lit v, rest)
  | [] => .error .truncated

/-- A back-reference: the high nibble of the first byte selects the kind (R100, R102, R103). -/
def decodeBackRef : List Byte → Except DecodeError (Instr × List Byte)
  | b1 :: b2 :: rest =>
    if b1.extractLsb' 4 4 != 0 then .ok (.ref2 (b1.extractLsb' 4 4) (distField b1 b2), rest)
    else
      match rest with
      | b3 :: rest' => .ok (.ref3 (distField b1 b2) b3, rest')
      | [] => .error .truncated
  | [_] => .error .truncated
  | [] => .error .truncated

/-- The frame header (R90 to R93). -/
def decodeHeader : List Byte → Except DecodeError (Instr × List Byte)
  | m0 :: m1 :: m2 :: m3 :: s0 :: s1 :: s2 :: s3 :: z0 :: z1 :: z2 :: z3 :: z4 :: z5 :: z6 :: z7 :: rest =>
    if [m0, m1, m2, m3] != magicBytes then .error .badMagic
    else if [z0, z1, z2, z3, z4, z5, z6, z7] != reservedBytes then .error .badReserved
    else .ok (.hdr (be32 s0 s1 s2 s3), rest)
  | _ => .error .truncated

/-- The command word (R112, R113). -/
def decodeCommand (w : Word) : Except DecodeError Instr :=
  if w = 1 then .ok .crc
  else if w = 2 then .ok .dec
  else if w = 3 then .ok .enc
  else .error (.illegalCommand w)

/-- A command word laid out as four bytes. -/
def decodeCommandBytes : List Byte → Except DecodeError (Instr × List Byte)
  | b0 :: b1 :: b2 :: b3 :: rest => (decodeCommand (be32 b0 b1 b2 b3)).map fun i => (i, rest)
  | _ => .error .truncated

/-- Decode the bytes that stand in a context: the instruction and the bytes after it. -/
def decode : Context → List Byte → Except DecodeError (Instr × List Byte)
  | .groupStart, bs => decodeCodeByte bs
  | .token true, bs => decodeLiteral bs
  | .token false, bs => decodeBackRef bs
  | .frameStart, bs => decodeHeader bs
  | .command, bs => decodeCommandBytes bs

/-- The bytes of an instruction (R90, R96, R101 to R103, R112). -/
def encode : Instr → List Byte
  | .code k => [k]
  | .lit v => [v]
  | .ref2 n d => [n ++ d.extractLsb' 8 4, d.extractLsb' 0 8]
  | .ref3 d m => [0#4 ++ d.extractLsb' 8 4, d.extractLsb' 0 8, m]
  | .hdr size => magicBytes ++ be32Bytes size ++ reservedBytes
  | .crc => be32Bytes 1
  | .dec => be32Bytes 2
  | .enc => be32Bytes 3

/-- The context in which an instruction stands (R95, R100, R90, R112). -/
def Instr.context : Instr → Context
  | .code _ => .groupStart
  | .lit _ => .token true
  | .ref2 _ _ => .token false
  | .ref3 _ _ => .token false
  | .hdr _ => .frameStart
  | .crc => .command
  | .dec => .command
  | .enc => .command

/-- The length in bytes of an instruction, as the opcode table states it. -/
def Instr.lengthBytes : Instr → Nat
  | .code _ => 1
  | .lit _ => 1
  | .ref2 _ _ => 2
  | .ref3 _ _ => 3
  | .hdr _ => 16
  | .crc => 4
  | .dec => 4
  | .enc => 4

/-- The `n` bytes of a number, byte 0 the most significant (the table's numbering: "byte 0 is bits 15:8 of the
pattern", a whole row being one big-endian number). -/
def tableBytes (w : Nat) : Nat → List Byte
  | 0 => []
  | n + 1 => BitVec.ofNat 8 (w >>> (8 * n)) :: tableBytes w n

/-- The context a row's length alone selects: one byte is what a stream begins with, a code byte; two or three
bytes are a back-reference. (log 10) -/
def tableContext (nbits : Nat) : Option Context :=
  if nbits = 8 then some .groupStart
  else if nbits = 16 then some (.token false)
  else if nbits = 24 then some (.token false)
  else if nbits = 32 then some .command
  else if nbits = 128 then some .frameStart
  else none

/-- The bytes of a table word with the zeros that follow it, up to the longest token. -/
def tableStream (nbits w : Nat) : List Byte := tableBytes w (nbits / 8) ++ [0, 0]

/-- The instruction the decoder reads from a table word of `nbits` bits. (log 10) -/
def decodeTableWord (nbits w : Nat) : Option Instr :=
  match tableContext nbits with
  | none => none
  | some ctx =>
    match decode ctx (tableStream nbits w) with
    | .ok (i, _) => some i
    | .error _ => none

end Sys2Proof
end

