-- ==== Sys2Proof/Config.lean ====
section
/-! DEFINITION. What the spec leaves to the implementation, as constants without a body: nothing can be
proved of their values. -/

namespace Sys2Proof.Config

/-- The open parameter `ENC_TAIL_BASE` of 00_scope R9 and 42_yaz0_encoder R232, as the answer to "is it 16?":
true is 16, false is 0. (log 6) -/
opaque encTailBaseIs16 : Bool

/-- The free value of one byte of an output space after a fault (60_exceptions R293) or after a reset during
`BUSY` (70_reset R322): the first argument numbers the draw, the second is the offset. (log 4) -/
opaque freeByte : Nat → Nat → Byte

/-- The free value a register other than `STATUS` reads as while `BUSY` (10_state R37): the argument numbers
the draw. (log 5) -/
opaque freeWord : Nat → Word

end Sys2Proof.Config
end

