-- ==== Sys2Proof/Machine/State.lean ====
section
/-! DEFINITION. The machine's state as plain data: everything 10_state gives the block, the three spaces of
20_memory, and the host's side of the interface. -/

namespace Sys2Proof.Machine

/-- The three spaces (20_memory R60). -/
inductive Space where
  | src | dst | rom
deriving DecidableEq, Repr

/-- The three functional units (00_scope R2). -/
inductive UnitId where
  | crc | dec | enc
deriving DecidableEq, Repr

/-- `STATUS[1:0]` (10_state R24). -/
inductive Status where
  | idle | busy | done | fault
deriving DecidableEq, Repr

/-- `ERR[2:0]` (10_state R25, 60_exceptions R280). -/
inductive ErrKind where
  | none | boundsError | cicUnknown | yaz0Malformed | illegalCommand
deriving DecidableEq, Repr

/-- A fault's kind and sub-cause together (60_exceptions R281 to R284). -/
inductive FaultCause where
  | romBoot | romRegion | dstCapacity | cicUnknown | srcExhausted | dstOverflow | backrefUnderflow | illegalCommand
deriving DecidableEq, Repr

/-- The CIC versions of 40_cic_checksum R134. -/
inductive CicVersion where
  | v6101 | v6102 | v6103 | v6105 | v6106
deriving DecidableEq, Repr

/-- The 14 interface registers (10_state R22), by name (`REG_MAP` is open, log 7). -/
inductive Reg where
  | cmd | status | err | errInfo | srcLen | dstLen | romLen | outLen | srcPos | dstPos | cic | bootCrc | crc1 | crc2
deriving DecidableEq, Repr

/-- A space's bytes, as (offset, byte) pairs; what an unlisted offset reads as is `unlistedByte` of
Machine/Ops.lean. -/
abbrev Memory := List Host.Cell

/-- What the host can do to the block (10_state R20, R22, R37; 20_memory R60, R75; 43_host_commands R250, R258;
70_reset R320). (log 3) -/
inductive HostAction where
  /-- the host lets the block take one step -/
  | tick
  /-- write an interface register -/
  | write (r : Reg) (v : Word)
  /-- read an interface register into `readData` -/
  | read (r : Reg)
  /-- read `STATUS` again and again until it is not `BUSY` (R258) -/
  | poll
  /-- write a byte of a space -/
  | poke (sp : Space) (offset : Nat) (v : Byte)
  /-- read a byte of a space into `readData` -/
  | peek (sp : Space) (offset : Nat)
  /-- bind a space to memory that holds these bytes from offset 0 on (`BUF_BIND`) -/
  | bind (sp : Space) (bytes : List Byte)
  /-- the reset event -/
  | reset
deriving DecidableEq, Repr

/-- Where the CRC unit stands in the phases of 40_cic_checksum R130. (log 9) -/
inductive CrcPhase where
  | bootBounds | bootCrc | identify | regionBounds | region | finalise | writeBack
deriving DecidableEq, Repr

/-- Where the encoder unit stands in the sequence of 42_yaz0_encoder R200. (log 9) -/
inductive EncPhase where
  | tokens | header | body
deriving DecidableEq, Repr

/-- The six 32-bit accumulators (10_state R40). -/
structure Acc where
  t1 : Word
  t2 : Word
  t3 : Word
  t4 : Word
  t5 : Word
  t6 : Word
deriving DecidableEq, Repr

/-- The CRC unit's working registers (10_state R40), with the loop variable `a` of 40_cic_checksum R132 and the
phase. -/
structure CrcRegs where
  phase   : CrcPhase
  a       : Nat
  c       : Word
  bootCrc : Word
  cic     : CicVersion
  seed    : Word
  t       : Acc
  i       : Nat
  d       : Word
  r       : Word
  e       : Word
  crc1    : Word
  crc2    : Word
deriving DecidableEq, Repr

/-- The decoder unit's working registers (10_state R41). -/
structure DecRegs where
  srcPos   : Nat
  dstPos   : Nat
  cb       : Byte
  bitCount : Nat
deriving DecidableEq, Repr

/-- The encoder unit's working registers (10_state R42); `encLen` is the length of `stream` (log 13). -/
structure EncRegs where
  phase         : EncPhase
  srcPos        : Nat
  flag          : Bool
  stashSize     : Nat
  stashMatch    : Nat
  matchPosition : Nat
  code          : Byte
  cnt           : Nat
  grp           : List Byte
  stream        : List Byte
deriving DecidableEq, Repr

/-- The machine. -/
structure State where
  -- the interface registers (10_state R22 to R36)
  cmd      : Word
  status   : Status
  err      : ErrKind
  errInfo  : BitVec 3
  srcLen   : Word
  dstLen   : Word
  romLen   : Word
  outLen   : Word
  srcPos   : Word
  dstPos   : Word
  cic      : Word
  bootCrc  : Word
  crc1     : Word
  crc2     : Word
  -- the unit the last accepted command started (43_host_commands R250)
  unit     : UnitId
  -- the units' working registers (10_state R40 to R42)
  crcU     : CrcRegs
  dec      : DecRegs
  enc      : EncRegs
  -- the spaces (10_state R44)
  src      : Memory
  dst      : Memory
  rom      : Memory
  -- the host's side, and the count of free values drawn (logs 3, 4)
  host     : List HostAction
  readData : Word
  draws    : Nat
deriving DecidableEq, Repr

/-- Why the machine stops with a fault. The spec's own faults are not among them: they are reported in registers
and the machine goes on (60_exceptions R292). -/
inductive Fault where
  /-- The host names an offset of 2^32 or more, which no space has ("An offset is at most 32 bits wide",
  20_memory R60). Raised by `step` on `poke`, `peek` and `bind`. Safe: nothing is proved of such an access. -/
  | noSuchOffset
deriving DecidableEq, Repr

/-- Why the machine refuses to go on. -/
inductive Refusal where
  /-- An instruction without a meaning. Raised by no arm of `exec`. Safe. -/
  | notModelled (mnemonic : String)
  /-- The host reads, writes or rebinds a space that the running command uses (20_memory R75, U9: "refuse").
  Raised by `step` on `poke`, `peek` and `bind`. Safe in the model, but what is proved holds only of hosts that
  keep the rule. -/
  | hostSpaceWhileBusy
deriving DecidableEq, Repr

/-- What the agent that moves next does: it hands an instruction to `exec`, or it settles a state itself, or it
stops. -/
inductive Turn where
  | run (i : Instr) (s : State)
  | settle (s : State)
  | stop (f : Fault)
  | refuse (r : Refusal)
deriving DecidableEq, Repr

def Acc.zero : Acc := ⟨0, 0, 0, 0, 0, 0⟩

/-- Unspecified by the spec (10_state R55); the values are the model's (log 2). -/
def CrcRegs.reset : CrcRegs :=
  { phase := .bootBounds, a := 0, c := 0, bootCrc := 0, cic := .v6101, seed := 0, t := Acc.zero, i := 0, d := 0, r := 0,
    e := 0, crc1 := 0, crc2 := 0 }

/-- Unspecified by the spec (10_state R55); the values are the model's (log 2). -/
def DecRegs.reset : DecRegs := { srcPos := 0, dstPos := 0, cb := 0, bitCount := 0 }

/-- Unspecified by the spec (10_state R55); the values are the model's (log 2). -/
def EncRegs.reset : EncRegs :=
  { phase := .tokens, srcPos := 0, flag := false, stashSize := 0, stashMatch := 0, matchPosition := 0, code := 0,
    cnt := 0, grp := [], stream := [] }

/-- The machine right after reset (70_reset R321, 10_state R22 and R55). -/
def State.reset : State :=
  { cmd := 0, status := .idle, err := .none, errInfo := 0, srcLen := 0, dstLen := 0, romLen := 0, outLen := 0,
    srcPos := 0, dstPos := 0, cic := 0, bootCrc := 0, crc1 := 0, crc2 := 0, unit := .crc, crcU := CrcRegs.reset,
    dec := DecRegs.reset, enc := EncRegs.reset, src := [], dst := [], rom := [], host := [], readData := 0, draws := 0 }

end Sys2Proof.Machine
end

