-- ==== Sys2Proof/Machine/Flags.lean ====
section
/-! DEFINITION. Flag-like values (10_state R43): the numeric codes of `STATUS`, `ERR`, `ERR_INFO`, the decoder's
code bit and its shift, the encoder's code bit, the carry of the CRC unit. -/

namespace Sys2Proof.Machine

/-- `STATUS[1:0]` (10_state R24). -/
def Status.code : Status → Word
  | .idle => 0
  | .busy => 1
  | .done => 2
  | .fault => 3

/-- `ERR[2:0]` (10_state R25). -/
def ErrKind.code : ErrKind → Word
  | .none => 0
  | .boundsError => 1
  | .cicUnknown => 2
  | .yaz0Malformed => 3
  | .illegalCommand => 4

/-- The kind of a cause (60_exceptions R280 to R284). -/
def FaultCause.kind : FaultCause → ErrKind
  | .romBoot => .boundsError
  | .romRegion => .boundsError
  | .dstCapacity => .boundsError
  | .cicUnknown => .cicUnknown
  | .srcExhausted => .yaz0Malformed
  | .dstOverflow => .yaz0Malformed
  | .backrefUnderflow => .yaz0Malformed
  | .illegalCommand => .illegalCommand

/-- The sub-cause number (10_state R26). -/
def FaultCause.info : FaultCause → BitVec 3
  | .romBoot => 1
  | .romRegion => 2
  | .dstCapacity => 3
  | .cicUnknown => 0
  | .srcExhausted => 1
  | .dstOverflow => 2
  | .backrefUnderflow => 3
  | .illegalCommand => 0

/-- Bit 7 of `cb`, the governing bit of the next token (41_yaz0_decoder R172). -/
def codeBit (cb : Byte) : Bool := cb.getLsbD 7

/-- `cb <- (cb << 1) & 0xFF` (41_yaz0_decoder R179). -/
def shiftCode (cb : Byte) : Byte := cb <<< 1

/-- `0x80 >> cnt`, the code bit of token number `cnt` (30_encoding R96, 42_yaz0_encoder R221, R226). -/
def literalBit (cnt : Nat) : Byte := 0x80#8 >>> cnt

/-- "If `t6 + d` overflows 32 bits": the exact sum (40_cic_checksum R141). -/
def carries (t6 d : Word) : Bool := decide (2 ^ 32 ≤ t6.toNat + d.toNat)

end Sys2Proof.Machine
end

