-- ==== Sys2Proof/Machine/Params.lean ====
section
/-! DEFINITION. The fixed parameters of 00_scope R8, under the spec's names, and `ENC_TAIL_BASE` (R9). -/

namespace Sys2Proof.Machine

def hdrLen : Nat := 16
def window : Nat := 0x1000
def lenMin : Nat := 3
def lenShortMax : Nat := 0x11
def lenLongMin : Nat := 0x12
def lenMax : Nat := 0x111
def lazyGain : Nat := 2
def groupTokens : Nat := 8
def bootOff : Nat := 0x40
def bootLen : Nat := 0xFC0
def crc32Poly : Word := 0xEDB88320
def ckOff : Nat := 0x1000
def ckLen : Nat := 0x100000
def tbl6105Off : Nat := 0x750
def crc1Off : Nat := 0x10
def crc2Off : Nat := 0x14

/-- `ENC_TAIL_BASE`, 0 or 16, the implementation's choice (00_scope R9, 42_yaz0_encoder R232). (log 6) -/
def encTailBase : Nat := if Config.encTailBaseIs16 then 16 else 0

end Sys2Proof.Machine
end

