-- ==== Sys2Proof/Machine/Ops.lean ====
section
/-! DEFINITION. The operations over spaces and registers: reading and writing a space, free bytes, command
acceptance, fault entry and what leaves a fault, reset. -/

namespace Sys2Proof.Machine

/-- What an offset that nothing has written reads as (10_state R55 gives no contents). (log 1) -/
def unlistedByte : Byte := 0

/-- `S[a]` (00_scope R12). -/
def Memory.read : Memory → Nat → Byte
  | [], _ => unlistedByte
  | cell :: m, a => if cell.1 = a then cell.2 else Memory.read m a

/-- The space without an entry for `a`. -/
def Memory.erase (m : Memory) (a : Nat) : Memory := m.filter fun cell => cell.1 != a

/-- A new entry in its place. -/
def Memory.insert : Memory → Nat → Byte → Memory
  | [], a, v => [(a, v)]
  | cell :: m, a, v => if a < cell.1 then (a, v) :: cell :: m else cell :: Memory.insert m a v

/-- `S[a] <- v` (00_scope R12), in canonical form. -/
def Memory.write (m : Memory) (a : Nat) (v : Byte) : Memory :=
  if v = unlistedByte then Memory.erase m a else Memory.insert (Memory.erase m a) a v

/-- Bytes written from `a` upwards, in increasing order. -/
def Memory.writeBytes : Memory → Nat → List Byte → Memory
  | m, _, [] => m
  | m, a, v :: vs => Memory.writeBytes (Memory.write m a v) (a + 1) vs

/-- `S[a..a+n)` (00_scope R12). -/
def Memory.readBytes (m : Memory) (a : Nat) : Nat → List Byte
  | 0 => []
  | n + 1 => Memory.read m a :: Memory.readBytes m (a + 1) n

/-- `BE32(S, a)` (00_scope R12, 20_memory R65). -/
def Memory.read32 (m : Memory) (a : Nat) : Word :=
  be32 (Memory.read m a) (Memory.read m (a + 1)) (Memory.read m (a + 2)) (Memory.read m (a + 3))

/-- `MemWrite(S, a, 4, v)` (00_scope R12). -/
def Memory.write32 (m : Memory) (a : Nat) (v : Word) : Memory := Memory.writeBytes m a (be32Bytes v)

/-- Offsets strictly rising from `lo`, below 2^32, and no entry that says what an unlisted offset says anyway. -/
def Memory.wfFrom : Nat → Memory → Bool
  | _, [] => true
  | lo, cell :: m =>
    decide (lo ≤ cell.1) && decide (cell.1 < 2 ^ 32) && (cell.2 != unlistedByte) && Memory.wfFrom (cell.1 + 1) m

/-- The canonical form of a space. -/
def Memory.wf (m : Memory) : Bool := Memory.wfFrom 0 m

/-- `n` free bytes for the offsets from `a` on. (log 4) -/
def freeBytes (draw a : Nat) : Nat → List Byte
  | 0 => []
  | n + 1 => Config.freeByte draw a :: freeBytes draw (a + 1) n

/-- Every byte of `[a, a + n)` becomes a free value (60_exceptions R293, 70_reset R322). -/
def Memory.havoc (m : Memory) (draw a n : Nat) : Memory := Memory.writeBytes m a (freeBytes draw a n)

/-- `DST[a..)` takes these bytes. -/
def State.writeDst (a : Nat) (bytes : List Byte) (s : State) : State :=
  { s with dst := Memory.writeBytes s.dst a bytes }

/-- `DST[0..DST_LEN)` becomes free (60_exceptions R293). -/
def State.havocDst (s : State) : State :=
  { s with dst := Memory.havoc s.dst s.draws 0 s.dstLen.toNat, draws := s.draws + 1 }

/-- `ROM[0x10..0x18)` becomes free (70_reset R322). -/
def State.havocRomWords (s : State) : State :=
  { s with rom := Memory.havoc s.rom s.draws crc1Off 8, draws := s.draws + 1 }

/-- FAULT ENTRY, `raise F(info)` (60_exceptions R292), with the cursors it reports (10_state R31, R32); `CRC1` and
`CRC2` are 0 unless an operation ended `DONE` (R35, R36). The output space is the raising unit's matter. -/
def raise (c : FaultCause) (srcPos dstPos : Nat) (s : State) : State :=
  { s with
    status := .fault, err := c.kind, errInfo := c.info, outLen := 0, srcPos := BitVec.ofNat 32 srcPos,
    dstPos := BitVec.ofNat 32 dstPos, crc1 := 0, crc2 := 0 }

/-- The first part of a command issue (43_host_commands R250 (1)): it is also all there is of a return from a
fault (60_exceptions R295). -/
def clearResults (s : State) : State :=
  { s with err := .none, errInfo := 0, outLen := 0, srcPos := 0, dstPos := 0, cic := 0, bootCrc := 0, crc1 := 0, crc2 := 0 }

/-- Acceptance of a legal command (43_host_commands R250 (1), (3)): the results are cleared, the block is busy and
the unit is selected. The length registers are the sampled operands, since nothing writes them while `BUSY`
(log 8). -/
def accept (u : UnitId) (s : State) : State :=
  { clearResults s with status := .busy, unit := u }

/-- Successful completion (43_host_commands R255): the result registers a unit reports and `DONE`. -/
def complete (outLen srcPos dstPos : Nat) (s : State) : State :=
  { s with
    status := .done, outLen := BitVec.ofNat 32 outLen, srcPos := BitVec.ofNat 32 srcPos,
    dstPos := BitVec.ofNat 32 dstPos }

/-- The refusal of an illegal command code (43_host_commands R250 (1), (2), R251). -/
def illegalCommand (s : State) : State := raise .illegalCommand 0 0 (clearResults s)

/-- The registers after the reset event (70_reset R321); the spaces and the host's side stay. -/
def resetRegs (s : State) : State :=
  { State.reset with
    src := s.src, dst := s.dst, rom := s.rom, host := s.host, readData := s.readData, draws := s.draws }

/-- What a reset leaves of the output space of the operation it cuts off (70_reset R322). -/
def abandonOutput (s : State) : State :=
  match s.status, s.unit with
  | .busy, .crc => s.havocRomWords
  | .busy, .dec => s.havocDst
  | .busy, .enc => s.havocDst
  | .idle, _ => s
  | .done, _ => s
  | .fault, _ => s

/-- The reset event (70_reset R320 to R322). -/
def resetEvent (s : State) : State := resetRegs (abandonOutput s)

end Sys2Proof.Machine
end

