-- ==== Sys2Proof/Machine/Operands.lean ====
section
/-! DEFINITION. Operand forms: what a register reads as and takes, the fields of a back-reference, the bytes the
decoder has before it, the space an access names. -/

namespace Sys2Proof.Machine

/-- The length of a `REF2` (30_encoding R105). -/
def lenOfRef2 (n : BitVec 4) : Nat := n.toNat + 2

/-- The length of a `REF3` (30_encoding R105). -/
def lenOfRef3 (m : Byte) : Nat := m.toNat + lenLongMin

/-- The length and the distance field of a back-reference (30_encoding R104, R105); no other instruction has them. -/
def backRefFields : Instr → Option (Nat × Nat)
  | .ref2 n d => some (lenOfRef2 n, d.toNat)
  | .ref3 d m => some (lenOfRef3 m, d.toNat)
  | .code _ => none
  | .lit _ => none
  | .hdr _ => none
  | .crc => none
  | .dec => none
  | .enc => none

/-- What a register reads as while the block is not busy (10_state R22 to R36). `CMD` reads 0. -/
def State.regValue (s : State) : Reg → Word
  | .cmd => 0
  | .status => s.status.code
  | .err => s.err.code
  | .errInfo => s.errInfo.setWidth 32
  | .srcLen => s.srcLen
  | .dstLen => s.dstLen
  | .romLen => s.romLen
  | .outLen => s.outLen
  | .srcPos => s.srcPos
  | .dstPos => s.dstPos
  | .cic => s.cic
  | .bootCrc => s.bootCrc
  | .crc1 => s.crc1
  | .crc2 => s.crc2

/-- A host read: while `BUSY` only `STATUS` has a value the spec gives, any other register reads a free word
(10_state R37). (log 5) -/
def State.readReg (s : State) (r : Reg) : State :=
  if s.status = .busy ∧ r ≠ .status then { s with readData := Config.freeWord s.draws, draws := s.draws + 1 }
  else { s with readData := s.regValue r }

/-- A host write to a register other than `CMD`: it is ignored while `BUSY` (10_state R37) and for a read-only
register (R22). -/
def State.writeReg (s : State) (r : Reg) (v : Word) : State :=
  if s.status = .busy then s
  else
    match r with
    | .srcLen => { s with srcLen := v }
    | .dstLen => { s with dstLen := v }
    | .romLen => { s with romLen := v }
    | .cmd => s
    | .status => s
    | .err => s
    | .errInfo => s
    | .outLen => s
    | .srcPos => s
    | .dstPos => s
    | .cic => s
    | .bootCrc => s
    | .crc1 => s
    | .crc2 => s

/-- The bytes of a space. -/
def State.space (s : State) : Space → Memory
  | .src => s.src
  | .dst => s.dst
  | .rom => s.rom

/-- Replace the bytes of a space. -/
def State.withSpace (s : State) (sp : Space) (m : Memory) : State :=
  match sp with
  | .src => { s with src := m }
  | .dst => { s with dst := m }
  | .rom => { s with rom := m }

/-- Whether a unit uses a space (20_memory R75). -/
def UnitId.uses : UnitId → Space → Bool
  | .crc, .rom => true
  | .crc, .src => false
  | .crc, .dst => false
  | .dec, .src => true
  | .dec, .dst => true
  | .dec, .rom => false
  | .enc, .src => true
  | .enc, .dst => true
  | .enc, .rom => false

/-- Whether the running command uses a space. -/
def State.spaceInUse (s : State) (sp : Space) : Bool := s.status == .busy && s.unit.uses sp

/-- The bytes of `SRC` the decoder has before it, up to the longest token, none at or beyond `SRC_LEN`
(20_memory R64). -/
def State.streamAhead (s : State) : List Byte :=
  Memory.readBytes s.src s.dec.srcPos (min 3 (s.srcLen.toNat - s.dec.srcPos))

/-- How the decoder reads those bytes: a code byte when the bit counter is 0, else a token governed by bit 7 of
`cb` (41_yaz0_decoder R172, R180). -/
def DecRegs.context (r : DecRegs) : Context :=
  if r.bitCount = 0 then .groupStart else .token (codeBit r.cb)

/-- `srcPos` at the start of the decoder step in progress (10_state R31): a code byte fetched in this same step,
which is so exactly when no token has used a bit of it, counts as not consumed (95_test_vectors 5.4). -/
def DecRegs.stepStart (r : DecRegs) : Nat := if r.bitCount = 8 then r.srcPos - 1 else r.srcPos

/-- `encLen` (10_state R42): how many bytes of encoded stream are complete. (log 13) -/
def EncRegs.encLen (r : EncRegs) : Nat := r.stream.length

end Sys2Proof.Machine
end

