-- ==== Sys2Proof/Machine/CrcUnit.lean ====
section
/-! DEFINITION. The CRC unit (40_cic_checksum): CIC identification, the rolling checksum, finalisation and
write-back. One step of the unit is one byte of the boot block, one word of the region, or one of the single acts
between them (43_host_commands R256, log 9). -/

namespace Sys2Proof.Machine

/-- The inner loop of R132: `n` times a shift right by 1, with the polynomial where bit 0 was 1. -/
def crc32Bits : Nat → Word → Word
  | 0, c => c
  | n + 1, c => crc32Bits n (if c.getLsbD 0 then (c >>> 1) ^^^ crc32Poly else c >>> 1)

/-- One byte of the CRC-32 (R132): "byte enters at the low end". -/
def crc32Step (c : Word) (b : Byte) : Word := crc32Bits 8 (c ^^^ b.setWidth 32)

/-- "init `~0`". -/
def crc32Init : Word := 0xFFFFFFFF

/-- "final xor `~`". -/
def crc32Final (c : Word) : Word := c ^^^ 0xFFFFFFFF

/-- The CRC-32 of a byte sequence (R132). -/
def crc32 (bytes : List Byte) : Word := crc32Final (bytes.foldl crc32Step crc32Init)

/-- The version a boot block's CRC-32 stands for (R134); `none` is an unknown boot block (R135). -/
def cicOfBootCrc (w : Word) : Option CicVersion :=
  if w = 0x6170A4A1 then some .v6101
  else if w = 0x90BB6CB5 then some .v6102
  else if w = 0x0B050EE0 then some .v6103
  else if w = 0x98BC2C86 then some .v6105
  else if w = 0xACC8580A then some .v6106
  else none

/-- The seed of a version (R134). -/
def CicVersion.seed : CicVersion → Word
  | .v6101 => 0xF8CA4DDC
  | .v6102 => 0xF8CA4DDC
  | .v6103 => 0xA3886759
  | .v6105 => 0xDF26F436
  | .v6106 => 0x1FEA617A

/-- The version as the plain integer the `CIC` register holds (10_state R33). -/
def CicVersion.number : CicVersion → Word
  | .v6101 => 6101
  | .v6102 => 6102
  | .v6103 => 6103
  | .v6105 => 6105
  | .v6106 => 6106

/-- `rotl32(d, n)` for `0 <= n <= 31` (00_scope R11). -/
def rotl32 (d : Word) (n : Nat) : Word := if n = 0 then d else (d <<< n) ||| (d >>> (32 - n))

/-- `r = rotate_left(d, d & 0x1F)` (R143). -/
def rotatedWord (d : Word) : Word := rotl32 d (d &&& 0x1F).toNat

/-- All six accumulators at the seed (R138). -/
def Acc.seeded (seed : Word) : Acc := ⟨seed, seed, seed, seed, seed, seed⟩

/-- The step for one word `d` (R141 to R146); `e` is the table word, used by CIC 6105 only. -/
def checksumStep (v : CicVersion) (e d : Word) (t : Acc) : Acc :=
  let t4 := if carries t.t6 d then t.t4 + 1 else t.t4
  let t6 := t.t6 + d
  let t3 := t.t3 ^^^ d
  let r := rotatedWord d
  let t5 := t.t5 + r
  let t2 := if d < t.t2 then t.t2 ^^^ r else t.t2 ^^^ t6 ^^^ d
  let t1 := if v = .v6105 then t.t1 + (e ^^^ d) else t.t1 + (t5 ^^^ d)
  ⟨t1, t2, t3, t4, t5, t6⟩

/-- `crc1` (R147). -/
def finalCrc1 (v : CicVersion) (t : Acc) : Word :=
  match v with
  | .v6103 => (t.t6 ^^^ t.t4) + t.t3
  | .v6106 => t.t6 * t.t4 + t.t3
  | .v6101 => t.t6 ^^^ t.t4 ^^^ t.t3
  | .v6102 => t.t6 ^^^ t.t4 ^^^ t.t3
  | .v6105 => t.t6 ^^^ t.t4 ^^^ t.t3

/-- `crc2` (R147). -/
def finalCrc2 (v : CicVersion) (t : Acc) : Word :=
  match v with
  | .v6103 => (t.t5 ^^^ t.t2) + t.t1
  | .v6106 => t.t5 * t.t2 + t.t1
  | .v6101 => t.t5 ^^^ t.t2 ^^^ t.t1
  | .v6102 => t.t5 ^^^ t.t2 ^^^ t.t1
  | .v6105 => t.t5 ^^^ t.t2 ^^^ t.t1

/-- `0x40 + 0x0710 + (i & 0xFF)` (R145). -/
def tableOffset (i : Nat) : Nat := tbl6105Off + i % 0x100

/-- The table word of R145: loaded for CIC 6105 only, else the register keeps its value. -/
def tableWord (s : State) : Word :=
  if s.crcU.cic = .v6105 then Memory.read32 s.rom (tableOffset s.crcU.i) else s.crcU.e

/-- Phase 1, bounds of the boot block (R131), then the start of the loop of R132. -/
def crcBootBounds (s : State) : State :=
  if s.romLen.toNat < bootOff + bootLen then raise .romBoot 0 0 s
  else { s with crcU := { s.crcU with phase := .bootCrc, a := bootOff, c := crc32Init } }

/-- Phase 1, one byte of the boot block, and at its end the boot CRC (R132). -/
def crcBootByte (s : State) : State :=
  if s.crcU.a < bootOff + bootLen then
    { s with crcU := { s.crcU with c := crc32Step s.crcU.c (Memory.read s.rom s.crcU.a), a := s.crcU.a + 1 } }
  else
    { s with
      bootCrc := crc32Final s.crcU.c,
      crcU := { s.crcU with phase := .identify, bootCrc := crc32Final s.crcU.c } }

/-- Phase 1, the CIC table (R134, R135). -/
def crcIdentify (s : State) : State :=
  match cicOfBootCrc s.crcU.bootCrc with
  | none => raise .cicUnknown 0 0 s
  | some v => { s with cic := v.number, crcU := { s.crcU with phase := .regionBounds, cic := v, seed := v.seed } }

/-- Start of phase 2: region bounds (R139), the accumulators at the seed (R138), the first word's offset (R140). -/
def crcRegionBounds (s : State) : State :=
  if s.romLen.toNat < ckOff + ckLen then raise .romRegion 0 0 s
  else { s with crcU := { s.crcU with phase := .region, t := Acc.seeded s.crcU.seed, i := ckOff } }

/-- Phase 2, one word (R140, R146). -/
def crcWord (s : State) : State :=
  if s.crcU.i < ckOff + ckLen then
    { s with
      crcU :=
        { s.crcU with
          d := Memory.read32 s.rom s.crcU.i,
          r := rotatedWord (Memory.read32 s.rom s.crcU.i),
          e := tableWord s,
          t := checksumStep s.crcU.cic (tableWord s) (Memory.read32 s.rom s.crcU.i) s.crcU.t,
          i := s.crcU.i + 4 } }
  else { s with crcU := { s.crcU with phase := .finalise } }

/-- Phase 3 (R147). -/
def crcFinalise (s : State) : State :=
  { s with
    crcU :=
      { s.crcU with
        phase := .writeBack, crc1 := finalCrc1 s.crcU.cic s.crcU.t, crc2 := finalCrc2 s.crcU.cic s.crcU.t } }

/-- The ROM with the two words written big-endian (R149, 30_encoding R110). -/
def writeCrcWords (rom : Memory) (w1 w2 : Word) : Memory :=
  Memory.write32 (Memory.write32 rom crc1Off w1) crc2Off w2

/-- Phase 4 and completion (R149, R151). -/
def crcWriteBack (s : State) : State :=
  complete 0 0 0
    { s with rom := writeCrcWords s.rom s.crcU.crc1 s.crcU.crc2, crc1 := s.crcU.crc1, crc2 := s.crcU.crc2 }

/-- One step of the CRC unit (R130). -/
def crcTurn (s : State) : State :=
  match s.crcU.phase with
  | .bootBounds => crcBootBounds s
  | .bootCrc => crcBootByte s
  | .identify => crcIdentify s
  | .regionBounds => crcRegionBounds s
  | .region => crcWord s
  | .finalise => crcFinalise s
  | .writeBack => crcWriteBack s

end Sys2Proof.Machine
end

