-- ==== Sys2Proof/Machine/DecUnit.lean ====
section
/-! DEFINITION. The decoder unit (41_yaz0_decoder): the fetch, the back-reference copy, faults and completion. The
tokens' own meanings are in Machine/Token.lean. -/

namespace Sys2Proof.Machine

/-- The fetch: the code byte or token at `srcPos`, or an error when its bytes are not all there (R173 to R176). -/
def fetchToken (s : State) : Except DecodeError Instr :=
  match decode s.dec.context s.streamAhead with
  | .ok (i, _) => .ok i
  | .error e => .error e

/-- A decoder fault (R181, 60_exceptions R292, R293): the cursors at the start of the faulting step are reported and
`DST[0..DST_LEN)` becomes free. -/
def decRaise (c : FaultCause) (s : State) : State := raise c s.dec.stepStart s.dec.dstPos s.havocDst

/-- `len` single-byte moves in increasing offset order, each reading after the write before it (R177, 20_memory
R78, 70_reset R340). -/
def copyForward : Memory → Nat → Nat → Nat → Memory
  | m, _, _, 0 => m
  | m, from_, to_, n + 1 => copyForward (Memory.write m to_ (Memory.read m from_)) (from_ + 1) (to_ + 1) n

/-- Both cursors move on (R178) and the code byte is shifted (R179). -/
def DecRegs.advance (r : DecRegs) (srcBytes dstBytes : Nat) : DecRegs :=
  { srcPos := r.srcPos + srcBytes, dstPos := r.dstPos + dstBytes, cb := shiftCode r.cb, bitCount := r.bitCount - 1 }

/-- A back-reference of `size` token bytes (R175, R176): its bytes must be there, then `copy(dist, len)` (R177) with
its checks in the order of R181, then the shift. -/
def backReference (size dist len : Nat) (s : State) : State :=
  if s.dec.srcPos + size > s.srcLen.toNat then decRaise .srcExhausted s
  else if dist + 1 > s.dec.dstPos then decRaise .backrefUnderflow s
  else if s.dec.dstPos + len > s.dstLen.toNat then decRaise .dstOverflow s
  else
    { s with
      dst := copyForward s.dst (s.dec.dstPos - dist - 1) s.dec.dstPos len,
      dec := s.dec.advance size len }

/-- Completion (R183). -/
def decComplete (s : State) : State := complete s.dstLen.toNat s.dec.srcPos s.dec.dstPos s

/-- One step of the decoder unit: the termination test first (R172), then the code byte or token at the cursor
(R180). A code byte and the token after it are two steps of the model (log 9). -/
def decTurn (s : State) : Turn :=
  if s.dec.dstPos = s.dstLen.toNat then .settle (decComplete s)
  else
    match fetchToken s with
    | .ok i => .run i s
    | .error _ => .settle (decRaise .srcExhausted s)

end Sys2Proof.Machine
end

