-- ==== Sys2Proof/Machine/EncUnit.lean ====
section
/-! DEFINITION. The encoder unit (42_yaz0_encoder): the longest-match search, the lazy rule, emission, groups and
the frame. One step is one token, or one of the single acts after the last token (43_host_commands R256, log 9). -/

namespace Sys2Proof.Machine

/-- The number of equal bytes from `i` and `pos` on, at most `n` (R206, the inner loop). -/
def matchLength (m : Memory) : Nat → Nat → Nat → Nat
  | _, _, 0 => 0
  | i, pos, n + 1 =>
    if Memory.read m i = Memory.read m pos then matchLength m (i + 1) (pos + 1) n + 1 else 0

/-- A match: its length and start offset. -/
structure Match where
  length   : Nat
  position : Nat
deriving DecidableEq, Repr

/-- "strictly greater: the lowest i wins a tie" (R206, R207). -/
def betterMatch (best : Match) (len i : Nat) : Match := if len > best.length then ⟨len, i⟩ else best

/-- The outer loop of R206 over `count` candidates from `i` on, in increasing order. -/
def searchWindow (m : Memory) (pos smp : Nat) : Nat → Nat → Match → Match
  | _, 0, best => best
  | i, count + 1, best => searchWindow m pos smp (i + 1) count (betterMatch best (matchLength m i pos smp) i)

/-- `max(0, pos - 0x1000)`, exact (R205, 90_conflicts C4). -/
def windowStart (pos : Nat) : Nat := pos - window

/-- `smp = min(srcSize - pos, 0x111)` (R205). -/
def compareLimit (srcSize pos : Nat) : Nat := min (srcSize - pos) lenMax

/-- `search(pos)` (R206). -/
def search (m : Memory) (srcSize pos : Nat) : Match :=
  if compareLimit srcSize pos < lenMin then ⟨0, 0⟩
  else searchWindow m pos (compareLimit srcSize pos) (windowStart pos) (pos - windowStart pos) ⟨0, 0⟩

/-- Steps 3 to 5 of `findBest` (R212), after `search(p)` gave `m1`: the length returned and the registers. -/
def lookAhead (m : Memory) (srcSize p : Nat) (m1 : Match) (r : EncRegs) : Nat × EncRegs :=
  if m1.length ≥ lenMin ∧ (search m srcSize (p + 1)).length ≥ m1.length + lazyGain then
    (1, { r with
            matchPosition := m1.position,
            stashSize := (search m srcSize (p + 1)).length,
            stashMatch := (search m srcSize (p + 1)).position,
            flag := true })
  else (m1.length, { r with matchPosition := m1.position })

/-- `findBest(p)` (R212, R213) at `p = srcPos`: the length returned and the registers. -/
def findBest (m : Memory) (srcSize : Nat) (r : EncRegs) : Nat × EncRegs :=
  if r.flag then (r.stashSize, { r with flag := false, matchPosition := r.stashMatch })
  else lookAhead m srcSize r.srcPos (search m srcSize r.srcPos) r

/-- `dist = srcPos - matchPosition - 1` (R225). -/
def EncRegs.dist (r : EncRegs) : BitVec 12 := BitVec.ofNat 12 (r.srcPos - r.matchPosition - 1)

/-- The token for a length `findBest` returned (R220 to R224). -/
def tokenFor (m : Memory) (len : Nat) (r : EncRegs) : Instr :=
  if len < lenMin then .lit (Memory.read m r.srcPos)
  else if len ≤ lenShortMax then .ref2 (BitVec.ofNat 4 (len - 2)) r.dist
  else .ref3 r.dist (BitVec.ofNat 8 (min len lenMax - lenLongMin))

/-- How far the token advances `srcPos` (R221 to R225). -/
def spanOf (len : Nat) : Nat := if len < lenMin then 1 else min len lenMax

/-- The code byte with the token's bit: set for a literal, left 0 for a back-reference (R221, R222, R226). -/
def codeWith (len : Nat) (r : EncRegs) : Byte := if len < lenMin then r.code ||| literalBit r.cnt else r.code

/-- The code byte and then the token bytes are appended to the encoded stream (R227, R228), and `code`, `cnt` and `grp` are
cleared (R227; for the last group, of which R228 does not say it, by the model's choice, log 24). -/
def EncRegs.closeGroup (r : EncRegs) : EncRegs :=
  { r with stream := r.stream ++ (encode (.code r.code) ++ r.grp), code := 0, cnt := 0, grp := [] }

/-- The token is emitted, `srcPos` advances and the token is accounted in the group (R221 to R226). -/
def emit (m : Memory) (len : Nat) (r : EncRegs) : EncRegs :=
  { r with
    grp := r.grp ++ encode (tokenFor m len r), code := codeWith len r, cnt := r.cnt + 1, srcPos := r.srcPos + spanOf len }

/-- "When `cnt` reaches 8" the group is closed (R227). -/
def closeIfFull (r : EncRegs) : EncRegs := if r.cnt = groupTokens then r.closeGroup else r

/-- One iteration of the main loop (R202). -/
def encodeToken (m : Memory) (srcSize : Nat) (r : EncRegs) : EncRegs :=
  closeIfFull (emit m (findBest m srcSize r).1 (findBest m srcSize r).2)

/-- The end of the main loop: a partial group is closed, an empty one is not (R228, R229). R228 does not say what `code`,
`cnt` and `grp` hold after it; that they are cleared is the model's choice (log 24). -/
def closeLast (r : EncRegs) : EncRegs :=
  if r.cnt > 0 then { r.closeGroup with phase := .header } else { r with phase := .header }

/-- `frameLen = (ENC_TAIL_BASE + encLen + 31) & ~15` (R232). -/
def frameLen (tailBase encLen : Nat) : Nat := (tailBase + encLen + 31) / 16 * 16

/-- An encoder fault (R234, 60_exceptions R292, R293): both positions report 0 and `DST[0..DST_LEN)` becomes free. -/
def encRaise (c : FaultCause) (s : State) : State := raise c 0 0 s.havocDst

/-- A step of the main loop, or its end (R202). -/
def encMainLoop (s : State) : State :=
  if s.enc.srcPos < s.srcLen.toNat then { s with enc := encodeToken s.src s.srcLen.toNat s.enc }
  else { s with enc := closeLast s.enc }

/-- The padding bytes of the frame, all 0x00 (R233). -/
def padding (tailBase encLen : Nat) : List Byte := List.replicate (frameLen tailBase encLen - hdrLen - encLen) 0

/-- The capacity check, made once, now that `encLen` is known (R234); then the encoded stream and the padding are placed
after the header (R231, R233) and the operation completes (R238). -/
def encBody (tailBase : Nat) (s : State) : State :=
  if frameLen tailBase s.enc.encLen > s.dstLen.toNat then encRaise .dstCapacity s
  else
    complete (frameLen tailBase s.enc.encLen) s.srcLen.toNat (hdrLen + s.enc.encLen)
      (s.writeDst hdrLen (s.enc.stream ++ padding tailBase s.enc.encLen))

/-- One step of the encoder unit (R200): tokens, then the header, which is an instruction of its own (R230), then the rest
of the frame. -/
def encTurn (s : State) : Turn :=
  match s.enc.phase with
  | .tokens => .settle (encMainLoop s)
  | .header => .run (.hdr s.srcLen) s
  | .body => .settle (encBody encTailBase s)

end Sys2Proof.Machine
end

