-- ==== Sys2Proof/Machine/Command.lean ====
section
/-! DEFINITION. The meanings of the three host commands (43_host_commands R250 to R254): acceptance, and the start of
the unit. The unit then runs in steps of its own (log 9). A command issued while `BUSY` is ignored. -/

namespace Sys2Proof.Machine

/-- The CRC unit's registers at the start of an operation: nothing of an earlier one is left (10_state R54). `c` and `i` have
the values of the table of R40 and `a` is where the loop of R132 begins; the table calls the others computed or loaded, and
what they hold until then is the model's (log 2). -/
def CrcRegs.start : CrcRegs := { CrcRegs.reset with phase := .bootBounds, a := bootOff, c := crc32Init, i := ckOff }

/-- The decoder unit's registers at the start of an operation (10_state R41, 41_yaz0_decoder R171). -/
def DecRegs.start : DecRegs := { srcPos := 0, dstPos := 0, cb := 0, bitCount := 0 }

/-- The encoder unit's registers at the start of an operation (10_state R42, 42_yaz0_encoder R201): nothing of an earlier one
is left (R54). -/
def EncRegs.start : EncRegs :=
  { phase := .tokens, srcPos := 0, flag := false, stashSize := 0, stashMatch := 0, matchPosition := 0, code := 0, cnt := 0,
    grp := [], stream := [] }

/-- `CRC` (R252): the CRC unit starts at the boot block's bounds check (40_cic_checksum R130, R131). -/
def execCrc (s : State) : Host.Outcome State Fault Refusal :=
  if s.status = .busy then .next s
  else .next { accept .crc s with crcU := CrcRegs.start }

/-- `DEC` (R253): the decoder unit starts in its initial state (41_yaz0_decoder R171). -/
def execDec (s : State) : Host.Outcome State Fault Refusal :=
  if s.status = .busy then .next s
  else .next { accept .dec s with dec := DecRegs.start }

/-- `ENC` (R254): the encoder unit starts in its initial state (42_yaz0_encoder R201). -/
def execEnc (s : State) : Host.Outcome State Fault Refusal :=
  if s.status = .busy then .next s
  else .next { accept .enc s with enc := EncRegs.start }

end Sys2Proof.Machine
end

