-- ==== Sys2Proof/Machine/Token.lean ====
section
/-! DEFINITION. The meanings of the items of a Yaz0 frame: the code byte and the tokens as the decoder unit executes
them, the header as the encoder unit writes it. Each is the unit's own act on its working registers; the sequencer
hands it over only while that unit runs (log 12). -/

namespace Sys2Proof.Machine

/-- `CODE k`, the group fetch (41_yaz0_decoder R173). -/
def execCode (k : Byte) (s : State) : Host.Outcome State Fault Refusal :=
  if s.dec.srcPos ≥ s.srcLen.toNat then .next (decRaise .srcExhausted s)
  else .next { s with dec := { s.dec with cb := k, srcPos := s.dec.srcPos + 1, bitCount := groupTokens } }

/-- `LIT v` (R174, R179). A literal past the end of `DST` cannot come from the sequencer (R174); here it is the
out-of-range write of 20_memory R64. (log 12) -/
def execLit (v : Byte) (s : State) : Host.Outcome State Fault Refusal :=
  if s.dec.srcPos ≥ s.srcLen.toNat then .next (decRaise .srcExhausted s)
  else if s.dec.dstPos ≥ s.dstLen.toNat then .next (decRaise .dstOverflow s)
  else .next { s with dst := Memory.write s.dst s.dec.dstPos v, dec := s.dec.advance 1 1 }

/-- `REF2` (R175, R177, R179). -/
def execRef2 (n : BitVec 4) (d : BitVec 12) (s : State) : Host.Outcome State Fault Refusal :=
  .next (backReference 2 d.toNat (lenOfRef2 n) s)

/-- `REF3` (R176, R177, R179). -/
def execRef3 (d : BitVec 12) (m : Byte) (s : State) : Host.Outcome State Fault Refusal :=
  .next (backReference 3 d.toNat (lenOfRef3 m) s)

/-- `HDR size` (42_yaz0_encoder R230): the 16 header bytes are written to `DST[0..16)` and the encoder goes on to the
stream. In a `DST` of less than 16 bytes no frame fits (R232, R234). -/
def execHdr (size : Word) (s : State) : Host.Outcome State Fault Refusal :=
  if s.dstLen.toNat < hdrLen then .next (encRaise .dstCapacity s)
  else .next (State.writeDst 0 (encode (.hdr size)) { s with enc := { s.enc with phase := .body } })

end Sys2Proof.Machine
end

