-- ==== Sys2Proof/Machine/Dispatch.lean ====
section
/-! DEFINITION. Each instruction's meaning, one arm per constructor. -/

namespace Sys2Proof.Machine

def exec (i : Instr) (s : State) : Host.Outcome State Fault Refusal :=
  match i with
  | .code k => Sys2Proof.Machine.execCode k s
  | .lit v => Sys2Proof.Machine.execLit v s
  | .ref2 n d => Sys2Proof.Machine.execRef2 n d s
  | .ref3 d m => Sys2Proof.Machine.execRef3 d m s
  | .hdr size => Sys2Proof.Machine.execHdr size s
  | .crc => Sys2Proof.Machine.execCrc s
  | .dec => Sys2Proof.Machine.execDec s
  | .enc => Sys2Proof.Machine.execEnc s

end Sys2Proof.Machine
end

