-- ==== Sys2Proof/Machine/HostPort.lean ====
section
/-! DEFINITION. What each of the host's actions does at the block's interface (10_state R22 to R37, 20_memory R75,
43_host_commands R250 to R259, 70_reset R320), and the host sequences of 43_host_commands R259 and R261. -/

namespace Sys2Proof.Machine

/-- A write to `CMD` (10_state R23, 43_host_commands R250, R251): ignored while `BUSY`, else the command is fetched from
`CMD` and run, or refused as illegal. -/
def issueCommand (v : Word) (s : State) : Turn :=
  if s.status = .busy then .settle s
  else
    match decodeCommand v with
    | .ok i => .run i { s with cmd := v }
    | .error _ => .settle (illegalCommand { s with cmd := v })

/-- An access of the host to a space: an offset of 2^32 or more does not exist (20_memory R60, log 15), a space in use
is refused (R75, log 14). That the host sees what an operation wrote as soon as it has ended, even where it has not read the
final `STATUS` (R73, R74 order the two only there), is the model's choice (log 23). `last` is one past the last offset
touched. -/
def spaceAccess (sp : Space) (last : Nat) (s t : State) : Turn :=
  if last > 2 ^ 32 then .stop .noSuchOffset
  else if s.spaceInUse sp then .refuse .hostSpaceWhileBusy
  else .settle t

/-- The host takes an action other than `tick` and `poll`; `s` is the state without the action. -/
def hostTurn (a : HostAction) (s : State) : Turn :=
  match a with
  | .write .cmd v => issueCommand v s
  | .write r v => .settle (s.writeReg r v)
  | .read r => .settle (s.readReg r)
  | .poke sp a v => spaceAccess sp (a + 1) s (s.withSpace sp (Memory.write (s.space sp) a v))
  | .peek sp a => spaceAccess sp (a + 1) s { s with readData := (Memory.read (s.space sp) a).setWidth 32 }
  | .bind sp bytes => spaceAccess sp bytes.length s (s.withSpace sp (Memory.writeBytes [] 0 bytes))
  | .reset => .settle (resetEvent s)
  | .tick => .settle s
  | .poll => .settle s

/-- The actions of one operation (43_host_commands R259): the operands, the command, and polling to its end. -/
def commandScript (srcLen dstLen romLen code : Word) : List HostAction :=
  [.write .srcLen srcLen, .write .dstLen dstLen, .write .romLen romLen, .write .cmd code, .poll]

/-- `decodeFrame` (43_host_commands R261) on the bytes `F` of a whole frame: `DST_LEN` from `F[4..8)`, `SRC` bound to
`F[16..L)`, then `DEC`. -/
def decodeFrameScript (f : List Byte) : List HostAction :=
  [.bind .src (f.drop hdrLen),
   .write .srcLen (BitVec.ofNat 32 (f.length - hdrLen)),
   .write .dstLen (be32 (f.getD 4 0) (f.getD 5 0) (f.getD 6 0) (f.getD 7 0)),
   .write .cmd 2,
   .poll]

end Sys2Proof.Machine
end

