-- ==== Sys2Proof/Machine/Sequencer.lean ====
section
/-! DEFINITION. Which agent moves next and what it does (10_state R20, log 3); and how a table word is placed where the
next step fetches (log 11). -/

namespace Sys2Proof.Machine

/-- The block's move: a step of the running unit, or nothing while it waits for a command (70_reset R323). -/
def blockTurn (s : State) : Turn :=
  match s.status with
  | .busy =>
    match s.unit with
    | .crc => .settle (crcTurn s)
    | .dec => decTurn s
    | .enc => encTurn s
  | .idle => .settle s
  | .done => .settle s
  | .fault => .settle s

/-- One poll of `STATUS` (43_host_commands R258): while it reads `BUSY` the poll stays the host's next action and the
block moves on. -/
def pollTurn (rest : List HostAction) (s : State) : Turn :=
  match s.status with
  | .busy => blockTurn { s with readData := s.regValue .status }
  | .idle => .settle { s with readData := s.regValue .status, host := rest }
  | .done => .settle { s with readData := s.regValue .status, host := rest }
  | .fault => .settle { s with readData := s.regValue .status, host := rest }

/-- The next move: the host's if it has an action other than `tick`, else the block's. -/
def turn (s : State) : Turn :=
  match s.host with
  | [] => blockTurn s
  | .tick :: rest => blockTurn { s with host := rest }
  | .poll :: rest => pollTurn rest s
  | .write r v :: rest => hostTurn (.write r v) { s with host := rest }
  | .read r :: rest => hostTurn (.read r) { s with host := rest }
  | .poke sp a v :: rest => hostTurn (.poke sp a v) { s with host := rest }
  | .peek sp a :: rest => hostTurn (.peek sp a) { s with host := rest }
  | .bind sp bytes :: rest => hostTurn (.bind sp bytes) { s with host := rest }
  | .reset :: rest => hostTurn .reset { s with host := rest }

/-- Token bytes placed at the decoder's cursor of a running `DEC`, three of them, with room in `DST` for at least one
byte; `bitCount` and `cb` as the token's context needs them. (log 11) -/
def placeToken (codeByte : Bool) (bytes : List Byte) (s : State) : State :=
  { s with
    status := .busy, unit := .dec, host := [],
    src := Memory.writeBytes s.src s.dec.srcPos bytes,
    srcLen := BitVec.ofNat 32 (s.dec.srcPos + 3),
    dstLen := BitVec.ofNat 32 (max s.dstLen.toNat (s.dec.dstPos + 1)),
    dec := { s.dec with bitCount := if codeByte then 0 else 7, cb := 0 } }

/-- A command word as the host's next write to `CMD`, the block not busy. (log 11) -/
def placeCommand (w : Word) (s : State) : State :=
  { s with status := if s.status = .busy then .idle else s.status, host := .write .cmd w :: s.host }

/-- A running `ENC` about to write its header, `SRC_LEN` being the size the header holds. (log 11) -/
def placeHeader (size : Word) (s : State) : State :=
  { s with
    status := .busy, unit := .enc, host := [], srcLen := size,
    dstLen := BitVec.ofNat 32 (max s.dstLen.toNat hdrLen),
    enc := { s.enc with phase := .header } }

/-- The table word of `nbits` bits placed where the next step fetches; a word that decodes to nothing and has no place
to stand leaves the state. (log 11) -/
def placeTableWord (s : State) (nbits w : Nat) : State :=
  match tableContext nbits with
  | some .groupStart => placeToken true ((tableStream nbits w).take 3) s
  | some (.token _) => placeToken false ((tableStream nbits w).take 3) s
  | some .command => placeCommand (BitVec.ofNat 32 w) s
  | some .frameStart =>
    match decodeTableWord nbits w with
    | some (.hdr size) => placeHeader size s
    | _ => s
  | none => s

end Sys2Proof.Machine
end

