-- ==== Sys2Proof/Machine/Step.lean ====
section
/-! DEFINITION. One step of the machine. -/

namespace Sys2Proof.Machine

/-- The agent that moves next moves; an instruction it hands over is executed. -/
def step (s : State) : Host.Outcome State Fault Refusal :=
  match turn s with
  | .run i t => exec i t
  | .settle t => .next t
  | .stop f => .fault f
  | .refuse r => .refused r

/-- The state whose next step runs the instruction of a table word. (log 11) -/
def State.withFetchWord (s : State) (nbits w : Nat) : State := placeTableWord s nbits w

end Sys2Proof.Machine
end

