-- ==== Sys2Proof/Safety.lean ====
section
/-! DEFINITION. The terms claims are stated in: runs, what holds of every state a run reaches, what a fault leaves, and
the functions the spec says the units compute. -/

namespace Sys2Proof.Machine

/-- `n` steps from `s`, stopping at the first fault or refusal. -/
def run (n : Nat) (s : State) : Host.Outcome State Fault Refusal := Host.Core.run Sys2Proof.core n s

/-- The operation has ended (43_host_commands R255). -/
def State.ended (s : State) : Prop := s.status = .done ∨ s.status = .fault

/-- The next move is the block's: the host does nothing, lets it move, or polls (log 3). -/
def State.BlockMoves (s : State) : Prop :=
  s.host = [] ∨ (∃ rest, s.host = .tick :: rest) ∨ ∃ rest, s.host = .poll :: rest

/-- A command that uses the space is running: `ROM` for `CRC`, `SRC` and `DST` for `DEC` and `ENC` (20_memory R75). -/
def State.CommandUses (s : State) (sp : Space) : Prop := s.status = .busy ∧ (sp = .rom ↔ s.unit = .crc)

/-! ## The spaces -/

/-- Every space is in canonical form. -/
def State.SpacesOk (s : State) : Prop :=
  Memory.wf s.src = true ∧ Memory.wf s.dst = true ∧ Memory.wf s.rom = true

/-- Two spaces agree on `[a, b)`. -/
def AgreeOn (m m' : Memory) (a b : Nat) : Prop := ∀ x, a ≤ x → x < b → Memory.read m x = Memory.read m' x

/-! ## The report registers (10_state R24 to R36) -/

/-- The sub-causes of each kind (10_state R26). -/
def ErrKind.infoOk (k : ErrKind) (info : BitVec 3) : Prop :=
  match k with
  | .none => info = 0
  | .boundsError => info = 1 ∨ info = 2 ∨ info = 3
  | .cicUnknown => info = 0
  | .yaz0Malformed => info = 1 ∨ info = 2 ∨ info = 3
  | .illegalCommand => info = 0

/-- What the report registers say in every state (10_state R25, R26, R30 to R32, R35, R36). -/
structure State.ReportOk (s : State) : Prop where
  err_iff_fault : s.err ≠ .none ↔ s.status = .fault
  info_of_kind : s.err.infoOk s.errInfo
  outLen_unless_done : s.status ≠ .done → s.outLen = 0
  words_unless_done : s.status ≠ .done → s.crc1 = 0 ∧ s.crc2 = 0
  positions_while_unended : ¬ s.ended → s.srcPos = 0 ∧ s.dstPos = 0

/-- What a fault of cause `c` leaves, `p` and `q` being the cursors it reports (60_exceptions R292 to R294): the report
registers, and everything the operation may not have touched. -/
structure Faulted (c : FaultCause) (p q : Nat) (s t : State) : Prop where
  status : t.status = .fault
  err : t.err = c.kind
  errInfo : t.errInfo = c.info
  outLen : t.outLen = 0
  srcPos : t.srcPos = BitVec.ofNat 32 p
  dstPos : t.dstPos = BitVec.ofNat 32 q
  words : t.crc1 = 0 ∧ t.crc2 = 0
  identity : t.cic = s.cic ∧ t.bootCrc = s.bootCrc
  lengths : t.srcLen = s.srcLen ∧ t.dstLen = s.dstLen ∧ t.romLen = s.romLen
  inputs : t.src = s.src ∧ t.rom = s.rom
  beyond : ∀ a, s.dstLen.toNat ≤ a → Memory.read t.dst a = Memory.read s.dst a

/-! ## The decoder unit -/

/-- The decoder unit is running, the host lets it, and the output is not yet full. -/
def State.Decoding (s : State) : Prop :=
  s.host = [] ∧ s.status = .busy ∧ s.unit = .dec ∧ s.dec.dstPos ≠ s.dstLen.toNat

/-- The invariants of 41_yaz0_decoder R185 that speak of one state. -/
def State.DecOk (s : State) : Prop :=
  s.status = .busy → s.unit = .dec →
    s.dec.srcPos ≤ s.srcLen.toNat ∧ s.dec.dstPos ≤ s.dstLen.toNat ∧ s.dec.bitCount ≤ 8 ∧
      s.dec.cb.toNat % 2 ^ (8 - s.dec.bitCount) = 0

/-! ## The encoder unit -/

/-- A match for position `p`: it lies in the window of `p`, is within the comparison limit, and its bytes agree
(42_yaz0_encoder R205, R206, R236). -/
structure MatchAt (m : Memory) (srcSize p : Nat) (q : Match) : Prop where
  before : q.position < p
  inWindow : p ≤ q.position + window
  inLimit : q.length ≤ compareLimit srcSize p
  agree : ∀ j, j < q.length → Memory.read m (q.position + j) = Memory.read m (p + j)

/-- The encoder's registers between two steps (42_yaz0_encoder R215, R216, R225 to R228). That `code`, `cnt` and `grp` are
clear after a last partial group is the model's choice (log 24). -/
structure EncRegs.Ok (m : Memory) (srcSize : Nat) (r : EncRegs) : Prop where
  cnt_lt : r.cnt < groupTokens
  grp_le : r.grp.length ≤ 3 * r.cnt
  code_unused : r.code.toNat % 2 ^ (8 - r.cnt) = 0
  cursor : r.srcPos ≤ srcSize
  stash : r.flag = true → 5 ≤ r.stashSize ∧ r.srcPos + r.stashSize ≤ srcSize ∧
    MatchAt m srcSize r.srcPos ⟨r.stashSize, r.stashMatch⟩
  closed : r.phase ≠ .tokens → r.srcPos = srcSize ∧ r.flag = false ∧ r.cnt = 0 ∧ r.grp = [] ∧ r.code = 0

/-- The encoder's registers are as they should be while it runs. -/
def State.EncOk (s : State) : Prop :=
  s.status = .busy → s.unit = .enc → s.enc.Ok s.src s.srcLen.toNat

/-! ## The CRC unit -/

/-- The CRC-32 of the boot block (40_cic_checksum R132). -/
def bootCrcOf (rom : Memory) : Word := crc32 (Memory.readBytes rom bootOff bootLen)

/-- The offset of word number `w` (R140). -/
def wordOffset (w : Nat) : Nat := ckOff + 4 * w

/-- The accumulators after `w` words of the region (R138, R140, R146). -/
def checksumWords (v : CicVersion) (rom : Memory) : Nat → Acc
  | 0 => Acc.seeded v.seed
  | w + 1 =>
    checksumStep v (Memory.read32 rom (tableOffset (wordOffset w))) (Memory.read32 rom (wordOffset w))
      (checksumWords v rom w)

/-- The number of words (R140). -/
def ckWords : Nat := 0x40000

/-- The two header checksums of a ROM for a CIC version (R147). -/
def romCrc1 (v : CicVersion) (rom : Memory) : Word := finalCrc1 v (checksumWords v rom ckWords)
def romCrc2 (v : CicVersion) (rom : Memory) : Word := finalCrc2 v (checksumWords v rom ckWords)

/-- The boot block has been identified as `v` and the registers say so (R132, R134). -/
def State.Identified (s : State) (v : CicVersion) : Prop :=
  cicOfBootCrc (bootCrcOf s.rom) = some v ∧ s.bootCrc = bootCrcOf s.rom ∧ s.cic = v.number ∧ s.crcU.cic = v ∧
    s.crcU.seed = v.seed

/-- What `CIC` and `BOOT_CRC` say in every state (10_state R33, R34): a version that is reported is the one the table has
for the reported boot CRC. -/
def State.IdentityOk (s : State) : Prop :=
  s.cic ≠ 0 → ∃ v, cicOfBootCrc s.bootCrc = some v ∧ s.cic = v.number

/-- What the CRC unit has computed when it stands in each phase (R130 to R149). -/
def State.CrcPhaseOk (s : State) : Prop :=
  match s.crcU.phase with
  | .bootBounds => s.cic = 0 ∧ s.bootCrc = 0
  | .bootCrc =>
    s.cic = 0 ∧ s.bootCrc = 0 ∧ bootOff + bootLen ≤ s.romLen.toNat ∧ bootOff ≤ s.crcU.a ∧
      s.crcU.a ≤ bootOff + bootLen ∧
      s.crcU.c = (Memory.readBytes s.rom bootOff (s.crcU.a - bootOff)).foldl crc32Step crc32Init
  | .identify =>
    s.cic = 0 ∧ bootOff + bootLen ≤ s.romLen.toNat ∧ s.bootCrc = bootCrcOf s.rom ∧ s.crcU.bootCrc = bootCrcOf s.rom
  | .regionBounds => bootOff + bootLen ≤ s.romLen.toNat ∧ s.Identified s.crcU.cic
  | .region =>
    ckOff + ckLen ≤ s.romLen.toNat ∧ s.Identified s.crcU.cic ∧
      ∃ w, w ≤ ckWords ∧ s.crcU.i = wordOffset w ∧ s.crcU.t = checksumWords s.crcU.cic s.rom w
  | .finalise =>
    ckOff + ckLen ≤ s.romLen.toNat ∧ s.Identified s.crcU.cic ∧ s.crcU.t = checksumWords s.crcU.cic s.rom ckWords
  | .writeBack =>
    ckOff + ckLen ≤ s.romLen.toNat ∧ s.Identified s.crcU.cic ∧ s.crcU.crc1 = romCrc1 s.crcU.cic s.rom ∧
      s.crcU.crc2 = romCrc2 s.crcU.cic s.rom

/-- The CRC unit's registers are as they should be while it runs. -/
def State.CrcOk (s : State) : Prop := s.status = .busy → s.unit = .crc → s.CrcPhaseOk

end Sys2Proof.Machine
end

