-- ==== Sys2Proof/Certificates/Slice0/Obligations.lean ====
section
/-! DEFINITION. The statements for the provers. Each docstring names the rules of the spec it formalises; where a clause
rests on a choice of the model it names the log entry. -/

open Sys2Proof Sys2Proof.Machine

/-! ## Encoding -/

/-- Decoding the encoding of a well-formed instruction, in the context it stands in and whatever follows, gives it back
(30_encoding R90, R96, R101 to R103, R112). -/
def Obligations.DecodeOfEncode : Prop :=
  ∀ (i : Instr) (rest : List Byte), i.wf = true → decode i.context (encode i ++ rest) = .ok (i, rest)

/-- Bytes that decode are the encoding of what they decode to: no two readings, no bit dropped (tokens R100, R105, R106; command
words R112, R113; the header R90 to R93). For the header it rests on the model's choice that `decode` refuses other magic or
reserved bytes, which no unit checks (log 18). -/
def Obligations.EncodeOfDecode : Prop :=
  ∀ (ctx : Context) (bs rest : List Byte) (i : Instr), decode ctx bs = .ok (i, rest) →
    i.wf = true ∧ i.context = ctx ∧ bs = encode i ++ rest

/-- The token kinds of R100: the code bit and the high nibble decide, and nothing else does. -/
def Obligations.TokenKinds : Prop :=
  ∀ (b1 b2 b3 : Byte) (rest : List Byte),
    decode (.token true) (b1 :: rest) = .ok (.lit b1, rest) ∧
    (b1.extractLsb' 4 4 ≠ 0 →
      decode (.token false) (b1 :: b2 :: rest) = .ok (.ref2 (b1.extractLsb' 4 4) (distField b1 b2), rest)) ∧
    (b1.extractLsb' 4 4 = 0 →
      decode (.token false) (b1 :: b2 :: b3 :: rest) = .ok (.ref3 (distField b1 b2) b3, rest))

/-- R104: the distance field is `((b1 & 0x0F) << 8) | b2`, at most 0xFFF, and what the encoder's two token bytes say of a
distance in that range is read back. -/
def Obligations.DistanceAssembly : Prop :=
  (∀ b1 b2 : Byte, (distField b1 b2).toNat = (b1.toNat % 16) * 256 + b2.toNat ∧ (distField b1 b2).toNat ≤ 0xFFF) ∧
  (∀ (n m : Nat) (dist : Nat), dist ≤ 0xFFF →
    (encode (.ref2 (BitVec.ofNat 4 n) (BitVec.ofNat 12 dist))).map BitVec.toNat =
      [(n % 16) * 16 + dist / 256, dist % 256] ∧
    (encode (.ref3 (BitVec.ofNat 12 dist) (BitVec.ofNat 8 m))).map BitVec.toNat =
      [dist / 256, dist % 256, m % 256])

/-- R105: a `REF2` has a length of 3 to 0x11, a `REF3` one of 0x12 to 0x111; every length from 3 to 0x111 with any distance
field has exactly one well-formed instruction; the encoder's mask `(len - 0x12) & 0xFF` changes nothing. The spec marks the last two as
its own inference, from R102 and R103 and from R224. -/
def Obligations.OneFormPerLength : Prop :=
  (∀ (n : BitVec 4) (d : BitVec 12), (Instr.ref2 n d).wf = true → 3 ≤ lenOfRef2 n ∧ lenOfRef2 n ≤ 0x11) ∧
  (∀ m : Byte, 0x12 ≤ lenOfRef3 m ∧ lenOfRef3 m ≤ 0x111) ∧
  (∀ len dist : Nat, 3 ≤ len → len ≤ 0x111 → dist ≤ 0xFFF →
    ∃! i : Instr, i.wf = true ∧ backRefFields i = some (len, dist)) ∧
  (∀ len : Nat, 0x12 ≤ len → len ≤ 0x111 → (len - 0x12) % 256 = len - 0x12)

/-- A few worked encodings of R120 and the three command words of R112, read by the decoder, and an illegal word. -/
def Obligations.WorkedEncodings : Prop :=
  decode (.token true) [0x41] = .ok (.lit 0x41, []) ∧
  decode (.token false) [0xE0, 0x00] = .ok (.ref2 14 0, []) ∧
  decode (.token false) [0xFF, 0xFF] = .ok (.ref2 15 0xFFF, []) ∧
  decode (.token false) [0x00, 0x01, 0xFF] = .ok (.ref3 1 0xFF, []) ∧
  decode (.token false) [0x02, 0x23, 0x22] = .ok (.ref3 0x223 0x22, []) ∧
  decode .groupStart [0xC0] = .ok (.code 0xC0, []) ∧
  decode .frameStart [0x59, 0x61, 0x7A, 0x30, 0, 0, 0, 0x11, 0, 0, 0, 0, 0, 0, 0, 0] = .ok (.hdr 17, []) ∧
  decodeCommand 1 = .ok .crc ∧ decodeCommand 2 = .ok .dec ∧ decodeCommand 3 = .ok .enc ∧
  decodeCommand 7 = .error (.illegalCommand 7)

/-! ## The step -/

/-- A step runs the decoded instruction: the code byte or token at the decoder's cursor, the command the host writes to
`CMD`, which keeps the word (the model's choice, log 19), the header of an encoder that has closed its last group (a step of
its own, log 9). A `tick` of the host lets the block move as an empty list of host actions does (log 3). So does a `poll`
(43_host_commands R258) while `BUSY`, and it stays the host's next action; otherwise it reads `STATUS`, is removed and changes
no register. -/
def Obligations.StepRunsDecoded : Prop :=
  (∀ (s : State) (i : Instr), s.Decoding → fetchToken s = .ok i → step s = exec i s) ∧
  (∀ (s : State) (v : Word) (i : Instr) (rest : List HostAction), s.status ≠ .busy → s.host = .write .cmd v :: rest →
    decodeCommand v = .ok i → step s = exec i { s with host := rest, cmd := v }) ∧
  (∀ s : State, s.host = [] → s.status = .busy → s.unit = .enc → s.enc.phase = .header →
    step s = exec (.hdr s.srcLen) s) ∧
  (∀ s : State, s.host = [] → turn s = blockTurn s) ∧
  (∀ (s : State) (rest : List HostAction), s.host = .tick :: rest → turn s = blockTurn { s with host := rest }) ∧
  (∀ (s : State) (rest : List HostAction), s.host = .poll :: rest →
    (s.status = .busy → turn s = blockTurn { s with readData := 1 } ∧ ∃ t, step s = .next t ∧ t.host = .poll :: rest) ∧
    (s.status = .idle → step s = .next { s with host := rest, readData := 0 }) ∧
    (s.status = .done → step s = .next { s with host := rest, readData := 2 }) ∧
    (s.status = .fault → step s = .next { s with host := rest, readData := 3 }))

/-- While no command runs and the host does nothing, nothing changes (70_reset R323). -/
def Obligations.WaitsForCommand : Prop :=
  ∀ s : State, s.host = [] → s.status ≠ .busy → step s = .next s

/-! ## Commands -/

/-- `CRC` accepted (R250 (1), (3), R252): every field of the state after it. No working register keeps a value of an earlier
operation (R54); `c` and `i` have the initial values of R40. What the registers that R40 calls computed or loaded hold until
then is the model's choice (log 2), and so are `phase` and `a` (log 9). -/
def Obligations.AcceptCrc : Prop :=
  ∀ s : State, s.status ≠ .busy →
    exec .crc s = .next
      { s with
        status := .busy, unit := .crc, err := .none, errInfo := 0, outLen := 0, srcPos := 0, dstPos := 0, cic := 0,
        bootCrc := 0, crc1 := 0, crc2 := 0,
        crcU := {
          phase := .bootBounds, a := 0x40, c := 0xFFFFFFFF, bootCrc := 0, cic := .v6101, seed := 0,
          t := ⟨0, 0, 0, 0, 0, 0⟩, i := 0x1000, d := 0, r := 0, e := 0, crc1 := 0, crc2 := 0 } }

/-- `DEC` accepted, with the initial state of R171: every field of the state after it. -/
def Obligations.AcceptDec : Prop :=
  ∀ s : State, s.status ≠ .busy →
    exec .dec s = .next
      { s with
        status := .busy, unit := .dec, err := .none, errInfo := 0, outLen := 0, srcPos := 0, dstPos := 0, cic := 0,
        bootCrc := 0, crc1 := 0, crc2 := 0, dec := { srcPos := 0, dstPos := 0, cb := 0, bitCount := 0 } }

/-- `ENC` accepted, with the initial state of R201: every field of the state after it. `stashSize`, `stashMatch` and
`matchPosition` are 0 as the table of R42 says, so nothing of an earlier operation is left (R54). `encLen <- 0` is the empty
stream (log 13); `phase` is the model's (log 9). -/
def Obligations.AcceptEnc : Prop :=
  ∀ s : State, s.status ≠ .busy →
    (exec .enc s = .next
      { s with
        status := .busy, unit := .enc, err := .none, errInfo := 0, outLen := 0, srcPos := 0, dstPos := 0, cic := 0,
        bootCrc := 0, crc1 := 0, crc2 := 0,
        enc := {
          phase := .tokens, srcPos := 0, flag := false, stashSize := 0, stashMatch := 0, matchPosition := 0, code := 0,
          cnt := 0, grp := [], stream := [] } }) ∧
    ∀ t, exec .enc s = .next t → t.enc.encLen = 0

/-- R251: a code other than 1, 2, 3 written while not busy clears the results and faults with `IllegalCommand`; no unit
starts, no space and no length register changes, and the block is ready for the next command. The clearing is R250 (1); that
`CMD` keeps the word is the model's choice (log 19). -/
def Obligations.IllegalCommandFaults : Prop :=
  ∀ (s : State) (v : Word) (rest : List HostAction), s.status ≠ .busy → s.host = .write .cmd v :: rest →
    v ≠ 1 → v ≠ 2 → v ≠ 3 →
    ∃ t, step s = .next t ∧ t.status ≠ .busy ∧
      t = { s with
        host := rest, cmd := v, status := .fault, err := .illegalCommand, errInfo := 0, outLen := 0, srcPos := 0,
        dstPos := 0, cic := 0, bootCrc := 0, crc1 := 0, crc2 := 0 }

/-- R37: while `BUSY` every host write is ignored and a read of `STATUS` gives `BUSY`; a read of any other register changes
nothing but what was read (a free value, log 5). While not `BUSY` every register reads as its rule says, with the numbers of
R24 and R25 spelt out, and the three length registers and `CMD` accept writes (what a write to `CMD` does: the acceptance
statements and `IllegalCommandFaults`; that it keeps the word is the model's choice, log 19). -/
def Obligations.RegisterAccessWhileBusy : Prop :=
  (∀ (s : State) (r : Reg) (v : Word) (rest : List HostAction), s.status = .busy → s.host = .write r v :: rest →
    step s = .next { s with host := rest }) ∧
  (∀ (s : State) (rest : List HostAction), s.status = .busy → s.host = .read .status :: rest →
    step s = .next { s with host := rest, readData := 1 }) ∧
  (∀ (s : State) (r : Reg) (rest : List HostAction), s.status = .busy → s.host = .read r :: rest →
    ∃ t, step s = .next t ∧ t = { s with host := rest, readData := t.readData, draws := t.draws }) ∧
  (∀ (s : State) (r : Reg) (rest : List HostAction), s.status ≠ .busy → s.host = .read r :: rest →
    step s = .next { s with host := rest, readData := s.regValue r } ∧
    s.regValue r =
      (match r with
        | .cmd => 0
        | .status =>
          match s.status with
          | .idle => 0
          | .busy => 1
          | .done => 2
          | .fault => 3
        | .err =>
          match s.err with
          | .none => 0
          | .boundsError => 1
          | .cicUnknown => 2
          | .yaz0Malformed => 3
          | .illegalCommand => 4
        | .errInfo => BitVec.ofNat 32 s.errInfo.toNat
        | .srcLen => s.srcLen
        | .dstLen => s.dstLen
        | .romLen => s.romLen
        | .outLen => s.outLen
        | .srcPos => s.srcPos
        | .dstPos => s.dstPos
        | .cic => s.cic
        | .bootCrc => s.bootCrc
        | .crc1 => s.crc1
        | .crc2 => s.crc2)) ∧
  (∀ (s : State) (v : Word) (rest : List HostAction), s.status ≠ .busy →
    (s.host = .write .srcLen v :: rest → step s = .next { s with host := rest, srcLen := v }) ∧
    (s.host = .write .dstLen v :: rest → step s = .next { s with host := rest, dstLen := v }) ∧
    (s.host = .write .romLen v :: rest → step s = .next { s with host := rest, romLen := v }) ∧
    (s.host = .write .cmd v :: rest → ∃ t, step s = .next t ∧ t.host = rest ∧ t.cmd = v))

/-- Fault entry (60_exceptions R292) with the numbers of R25 and R26: what each of the eight causes leaves in the registers.
`CRC1` and `CRC2` are 0 after a fault (R35, R36; log 20). The output space is not its matter: the codecs free it beside (R293,
log 4). -/
def Obligations.FaultEntry : Prop :=
  ∀ (c : FaultCause) (p q : Nat) (s : State),
    (raise c p q s).regValue .status = 3 ∧ (raise c p q s).regValue .outLen = 0 ∧
    (raise c p q s).regValue .srcPos = BitVec.ofNat 32 p ∧ (raise c p q s).regValue .dstPos = BitVec.ofNat 32 q ∧
    (raise c p q s).regValue .crc1 = 0 ∧ (raise c p q s).regValue .crc2 = 0 ∧
    (∀ r, r ∈ [Reg.cic, .bootCrc, .srcLen, .dstLen, .romLen] → (raise c p q s).regValue r = s.regValue r) ∧
    ((raise c p q s).regValue .err, (raise c p q s).regValue .errInfo) =
      (match c with
        | .romBoot => (1, 1)
        | .romRegion => (1, 2)
        | .dstCapacity => (1, 3)
        | .cicUnknown => (2, 0)
        | .srcExhausted => (3, 1)
        | .dstOverflow => (3, 2)
        | .backrefUnderflow => (3, 3)
        | .illegalCommand => (4, 0)) ∧
    (raise c p q s).src = s.src ∧ (raise c p q s).dst = s.dst ∧ (raise c p q s).rom = s.rom

/-- "A host write to a register marked `R` only is ignored" and `CMD` reads 0 (R22, R23). -/
def Obligations.ReadOnlyRegisters : Prop :=
  ∀ (s : State) (v : Word) (rest : List HostAction) (r : Reg),
    r ∈ [Reg.status, .err, .errInfo, .outLen, .srcPos, .dstPos, .cic, .bootCrc, .crc1, .crc2] →
    (s.host = .write r v :: rest → step s = .next { s with host := rest }) ∧ s.regValue .cmd = 0

/-- A host that reads, writes or rebinds a space the running command uses is refused (R75, U9); an offset of 2^32 or more does
not exist (R60). The model's choice of stop: logs 14 and 15. Otherwise, and that is also while a command runs that does not use
the space, a byte written is read back and no other byte changes, a read gives the byte and changes nothing but what was read,
and a binding gives the space its bytes from offset 0 on (log 7) and leaves the other spaces; no register changes. That this
holds as soon as an operation has ended, before the host has read the final `STATUS`, is the model's choice (log 23). -/
def Obligations.HostSpaceAccess : Prop :=
  ∀ (s : State) (sp : Space) (a : Nat) (v : Byte) (bytes : List Byte) (rest : List HostAction),
    (s.CommandUses sp →
      (a < 2 ^ 32 → (s.host = .poke sp a v :: rest ∨ s.host = .peek sp a :: rest) →
        step s = .refused .hostSpaceWhileBusy) ∧
      (bytes.length ≤ 2 ^ 32 → s.host = .bind sp bytes :: rest → step s = .refused .hostSpaceWhileBusy)) ∧
    (2 ^ 32 ≤ a → (s.host = .poke sp a v :: rest ∨ s.host = .peek sp a :: rest) → step s = .fault .noSuchOffset) ∧
    (2 ^ 32 < bytes.length → s.host = .bind sp bytes :: rest → step s = .fault .noSuchOffset) ∧
    (¬ s.CommandUses sp →
      (a < 2 ^ 32 → s.host = .poke sp a v :: rest →
        ∃ t, step s = .next t ∧ Memory.read (t.space sp) a = v ∧
          (∀ sp' b, sp' ≠ sp ∨ b ≠ a → Memory.read (t.space sp') b = Memory.read (s.space sp') b) ∧
          t = { s with host := rest, src := t.src, dst := t.dst, rom := t.rom }) ∧
      (a < 2 ^ 32 → s.host = .peek sp a :: rest →
        step s = .next { s with host := rest, readData := (Memory.read (s.space sp) a).setWidth 32 }) ∧
      (bytes.length ≤ 2 ^ 32 → s.host = .bind sp bytes :: rest →
        ∃ t, step s = .next t ∧ (∀ k, k < bytes.length → Memory.read (t.space sp) k = bytes.getD k 0) ∧
          (∀ sp', sp' ≠ sp → t.space sp' = s.space sp') ∧
          t = { s with host := rest, src := t.src, dst := t.dst, rom := t.rom }))

/-! ## Tokens -/

/-- `CODE`: the group fetch completes when its byte is there; every field of the state after it (R173). -/
def Obligations.CodeRuns : Prop :=
  ∀ (k : Byte) (s : State), s.dec.srcPos < s.srcLen.toNat →
    exec (.code k) s = .next { s with dec := { s.dec with cb := k, srcPos := s.dec.srcPos + 1, bitCount := 8 } }

/-- R173: at the start of a group a running decoder that needs a token consumes the next byte as `cb`, or faults when there
is none. That the group fetch is a step of its own is the model's choice (log 9): the spec's step executes a token with it. -/
def Obligations.GroupFetchStep : Prop :=
  ∀ s : State, s.Decoding → s.dec.bitCount = 0 →
    (s.dec.srcPos < s.srcLen.toNat →
      step s = .next
        { s with
          dec := { s.dec with
            cb := Memory.read s.src s.dec.srcPos, srcPos := s.dec.srcPos + 1, bitCount := 8 } }) ∧
    (s.srcLen.toNat ≤ s.dec.srcPos →
      ∃ t, step s = .next t ∧ Faulted .srcExhausted s.dec.srcPos s.dec.dstPos s t)

/-- `LIT` completes when its byte is there and the output is not full; every field of the state after it, `DST` byte by byte
(R174, R179). -/
def Obligations.LitRuns : Prop :=
  ∀ (v : Byte) (s : State), s.dec.srcPos < s.srcLen.toNat → s.dec.dstPos < s.dstLen.toNat →
    ∃ t, exec (.lit v) s = .next t ∧ Memory.read t.dst s.dec.dstPos = v ∧
      (∀ a, a ≠ s.dec.dstPos → Memory.read t.dst a = Memory.read s.dst a) ∧
      t = { s with
        dst := t.dst,
        dec := {
          srcPos := s.dec.srcPos + 1, dstPos := s.dec.dstPos + 1, cb := s.dec.cb <<< 1,
          bitCount := s.dec.bitCount - 1 } }

/-- R174: inside a group with code bit 1 a running decoder copies the next byte of `SRC`, or faults when there is none. -/
def Obligations.LiteralStep : Prop :=
  ∀ s : State, s.Decoding → s.dec.bitCount ≠ 0 → s.dec.cb.getLsbD 7 = true → s.dec.dstPos < s.dstLen.toNat →
    (s.dec.srcPos < s.srcLen.toNat →
      ∃ t, step s = .next t ∧ Memory.read t.dst s.dec.dstPos = Memory.read s.src s.dec.srcPos ∧
        (∀ a, a ≠ s.dec.dstPos → Memory.read t.dst a = Memory.read s.dst a) ∧
        t = { s with
          dst := t.dst,
          dec := {
            srcPos := s.dec.srcPos + 1, dstPos := s.dec.dstPos + 1, cb := s.dec.cb <<< 1,
            bitCount := s.dec.bitCount - 1 } }) ∧
    (s.srcLen.toNat ≤ s.dec.srcPos →
      ∃ t, step s = .next t ∧ Faulted .srcExhausted s.dec.stepStart s.dec.dstPos s t)

/-- `REF2` and `REF3` complete when their bytes are there, the source lies in the output written so far and the copy fits; the
byte at `dstPos + k` is the byte of the last `dist + 1` bytes that R177 names, every other byte of `DST` and every other
field is as it was (R175, R176, R177, R179). -/
def Obligations.BackReferenceRuns : Prop :=
  ∀ (i : Instr) (len dist size : Nat) (s : State), backRefFields i = some (len, dist) → size = i.lengthBytes →
    s.dec.srcPos + size ≤ s.srcLen.toNat → dist + 1 ≤ s.dec.dstPos → s.dec.dstPos + len ≤ s.dstLen.toNat →
    ∃ t, exec i s = .next t ∧
      (∀ k, k < len →
        Memory.read t.dst (s.dec.dstPos + k) = Memory.read s.dst (s.dec.dstPos - dist - 1 + k % (dist + 1))) ∧
      (∀ a, a < s.dec.dstPos ∨ s.dec.dstPos + len ≤ a → Memory.read t.dst a = Memory.read s.dst a) ∧
      t = { s with
        dst := t.dst,
        dec := {
          srcPos := s.dec.srcPos + size, dstPos := s.dec.dstPos + len, cb := s.dec.cb <<< 1,
          bitCount := s.dec.bitCount - 1 } }

/-- The faults of a back-reference, in the order of R181: bytes missing, then underflow, then overflow. -/
def Obligations.BackReferenceFaults : Prop :=
  ∀ (i : Instr) (len dist : Nat) (s : State), backRefFields i = some (len, dist) →
    (s.srcLen.toNat < s.dec.srcPos + i.lengthBytes →
      ∃ t, exec i s = .next t ∧ Faulted .srcExhausted s.dec.stepStart s.dec.dstPos s t) ∧
    (s.dec.srcPos + i.lengthBytes ≤ s.srcLen.toNat → s.dec.dstPos < dist + 1 →
      ∃ t, exec i s = .next t ∧ Faulted .backrefUnderflow s.dec.stepStart s.dec.dstPos s t) ∧
    (s.dec.srcPos + i.lengthBytes ≤ s.srcLen.toNat → dist + 1 ≤ s.dec.dstPos → s.dstLen.toNat < s.dec.dstPos + len →
      ∃ t, exec i s = .next t ∧ Faulted .dstOverflow s.dec.stepStart s.dec.dstPos s t)

/-- Inside a group with code bit 0 a running decoder executes the `REF2` or `REF3` that the first byte's high nibble selects,
and faults when its bytes are not all there (R175, R176, R180, R181). -/
def Obligations.BackReferenceStep : Prop :=
  ∀ s : State, s.Decoding → s.dec.bitCount ≠ 0 → s.dec.cb.getLsbD 7 = false →
    (s.dec.srcPos + 2 ≤ s.srcLen.toNat → (Memory.read s.src s.dec.srcPos).extractLsb' 4 4 ≠ 0 →
      step s = exec (.ref2 ((Memory.read s.src s.dec.srcPos).extractLsb' 4 4)
        (distField (Memory.read s.src s.dec.srcPos) (Memory.read s.src (s.dec.srcPos + 1)))) s) ∧
    (s.dec.srcPos + 3 ≤ s.srcLen.toNat → (Memory.read s.src s.dec.srcPos).extractLsb' 4 4 = 0 →
      step s = exec (.ref3 (distField (Memory.read s.src s.dec.srcPos) (Memory.read s.src (s.dec.srcPos + 1)))
        (Memory.read s.src (s.dec.srcPos + 2))) s) ∧
    (s.srcLen.toNat < s.dec.srcPos + 2 ∨
        (s.srcLen.toNat < s.dec.srcPos + 3 ∧ (Memory.read s.src s.dec.srcPos).extractLsb' 4 4 = 0) →
      ∃ t, step s = .next t ∧ Faulted .srcExhausted s.dec.stepStart s.dec.dstPos s t)

/-! ## The decoder unit -/

/-- R183: the step that finds the output full completes; the result registers, and nothing else. -/
def Obligations.DecoderCompletes : Prop :=
  ∀ s : State, s.host = [] → s.status = .busy → s.unit = .dec → s.dec.dstPos = s.dstLen.toNat →
    step s = .next
      { s with
        status := .done, outLen := s.dstLen, srcPos := BitVec.ofNat 32 s.dec.srcPos, dstPos := s.dstLen }

/-- The invariants of R185 hold after every step of a state in which they hold. -/
def Obligations.DecoderInvariant : Prop :=
  ∀ s t : State, s.DecOk → step s = .next t → t.DecOk

/-- What the decoder has written depends only on what it has read (R185). Of two running decoders with the same registers and
the same `DST[0..dstPos)`: where both go on, agreement on `SRC` below the new `srcPos` alone gives the same registers and the
same `DST` below the new `dstPos`; with agreement on the lengths and on `SRC[0..SRC_LEN)` they also stop alike. And of two `DEC`
runs from acceptance that are both still running after `n` steps: agreement on `SRC[0..srcPos)` gives the same registers and
the same `DST[0..dstPos)`. -/
def Obligations.DecoderOutputDependsOnInput : Prop :=
  (∀ s s' t t' : State, s.Decoding → s'.Decoding → s.dec = s'.dec → AgreeOn s.dst s'.dst 0 s.dec.dstPos →
    step s = .next t → step s' = .next t' → t.status = .busy → t'.status = .busy →
    AgreeOn s.src s'.src 0 t.dec.srcPos → t.dec = t'.dec ∧ AgreeOn t.dst t'.dst 0 t.dec.dstPos) ∧
  (∀ s s' t t' : State, s.Decoding → s'.Decoding → s.dec = s'.dec → s.srcLen = s'.srcLen → s.dstLen = s'.dstLen →
    AgreeOn s.src s'.src 0 s.srcLen.toNat → AgreeOn s.dst s'.dst 0 s.dec.dstPos →
    step s = .next t → step s' = .next t' →
    t.status = t'.status ∧ t.dec = t'.dec ∧
      (t.status = .fault →
        t.err = t'.err ∧ t.errInfo = t'.errInfo ∧ t.srcPos = t'.srcPos ∧ t.dstPos = t'.dstPos) ∧
      (t.status = .busy → AgreeOn t.dst t'.dst 0 t.dec.dstPos)) ∧
  (∀ (u u' s s' t t' : State) (n : Nat), u.host = [] → u.status ≠ .busy → u'.host = [] → u'.status ≠ .busy →
    exec .dec u = .next s → exec .dec u' = .next s' → run n s = .next t → run n s' = .next t' →
    t.status = .busy → t'.status = .busy → AgreeOn u.src u'.src 0 t.dec.srcPos →
    t.dec = t'.dec ∧ AgreeOn t.dst t'.dst 0 t.dec.dstPos)

/-! ## The encoder unit -/

/-- R206: `search(pos)` gives the longest match within the comparison limit that starts in the window, the lowest start among
the longest, and `(0, 0)` where there is none or the limit is below 3. -/
def Obligations.SearchFindsLongest : Prop :=
  ∀ (m : Memory) (srcSize pos : Nat),
    (compareLimit srcSize pos < 3 → search m srcSize pos = ⟨0, 0⟩) ∧
    (3 ≤ compareLimit srcSize pos →
      (0 < (search m srcSize pos).length → MatchAt m srcSize pos (search m srcSize pos)) ∧
      ((search m srcSize pos).length = 0 → (search m srcSize pos).position = 0) ∧
      (∀ q : Match, MatchAt m srcSize pos q → q.length ≤ (search m srcSize pos).length) ∧
      (∀ q : Match, MatchAt m srcSize pos q → q.length = (search m srcSize pos).length → 0 < q.length →
        (search m srcSize pos).position ≤ q.position))

/-- R212: `findBest` consumes a deferred match, or prefers a look-ahead that gains 2, or returns what `search(p)` gave. -/
def Obligations.LazyRule : Prop :=
  ∀ (m : Memory) (srcSize : Nat) (r : EncRegs),
    (r.flag = true →
      findBest m srcSize r = (r.stashSize, { r with flag := false, matchPosition := r.stashMatch })) ∧
    (r.flag = false → 3 ≤ (search m srcSize r.srcPos).length →
      (search m srcSize r.srcPos).length + 2 ≤ (search m srcSize (r.srcPos + 1)).length →
      findBest m srcSize r =
        (1, { r with
          matchPosition := (search m srcSize r.srcPos).position,
          stashSize := (search m srcSize (r.srcPos + 1)).length,
          stashMatch := (search m srcSize (r.srcPos + 1)).position, flag := true })) ∧
    (r.flag = false →
      ((search m srcSize r.srcPos).length < 3 ∨
        (search m srcSize (r.srcPos + 1)).length < (search m srcSize r.srcPos).length + 2) →
      findBest m srcSize r =
        ((search m srcSize r.srcPos).length, { r with matchPosition := (search m srcSize r.srcPos).position }))

/-- What the encoder's registers satisfy while it runs holds after every step of a state in which it holds (R215, R216, R225,
R227, R228, R236). That `code`, `cnt` and `grp` are clear after a last partial group is the model's choice (log 24). -/
def Obligations.EncoderInvariant : Prop :=
  ∀ s t : State, s.EncOk → step s = .next t → t.EncOk

/-- A step of the main loop emits the token that the length `findBest` returned selects (R220 to R223) and accounts it (R225 to
R227). The token is well formed. A length below 3 gives the literal at `srcPos`, which advances by 1; any other gives the
back-reference of that length to the position `findBest` chose, which advances by its length, stays inside the input, has a
source already encoded, and whose bytes are the input's (R236). The code bit of position `cnt` is set exactly for a literal. The
token's bytes join the group and `cnt` goes up by 1, or, as the eighth token, close the group: code byte and group join the
stream (log 13). Nothing else changes but what `findBest` does (`LazyRule`). -/
def Obligations.EmittedTokenIsRight : Prop :=
  ∀ (s : State) (len : Nat) (r : EncRegs), s.host = [] → s.status = .busy → s.unit = .enc → s.enc.phase = .tokens →
    s.EncOk → s.enc.srcPos < s.srcLen.toNat → findBest s.src s.srcLen.toNat s.enc = (len, r) →
    ∃ (i : Instr) (span : Nat) (code : Byte) (t : State), step s = .next t ∧ t = { s with enc := t.enc } ∧
      i = tokenFor s.src len r ∧ i.wf = true ∧
      (len < 3 → i = .lit (Memory.read s.src s.enc.srcPos) ∧ span = 1) ∧
      (3 ≤ len →
        ∃ dist, dist = s.enc.srcPos - r.matchPosition - 1 ∧ backRefFields i = some (len, dist) ∧ span = len ∧
          dist + 1 ≤ s.enc.srcPos ∧ dist ≤ 0xFFF ∧ s.enc.srcPos + span ≤ s.srcLen.toNat ∧
          ∀ j, j < span →
            Memory.read s.src (s.enc.srcPos - dist - 1 + j) = Memory.read s.src (s.enc.srcPos + j)) ∧
      (code.getLsbD (7 - s.enc.cnt) = true ↔ i = .lit (Memory.read s.src s.enc.srcPos)) ∧
      (∀ k, k ≠ 7 - s.enc.cnt → code.getLsbD k = s.enc.code.getLsbD k) ∧
      t.enc =
        (if s.enc.cnt + 1 = 8 then
          { r with
            srcPos := s.enc.srcPos + span, code := 0, cnt := 0, grp := [],
            stream := s.enc.stream ++ code :: (s.enc.grp ++ encode i) }
        else
          { r with
            srcPos := s.enc.srcPos + span, code := code, cnt := s.enc.cnt + 1, grp := s.enc.grp ++ encode i,
            stream := s.enc.stream })

/-- The accounting of groups (R226 to R229), from any registers. The token that makes `cnt` 8 closes its group: code byte and
token bytes join the stream, which `encLen` counts, and the group is empty again. Before it the stream does not change. At the
end of the input a partial group is closed the same way and an empty one is not written. `stream` is the model's (log 13);
that the closing is a step of its own, after which `phase` says so, is log 9; that the last partial group also leaves `code`,
`cnt` and `grp` clear, which R228 does not say, is log 24. -/
def Obligations.GroupsAreClosed : Prop :=
  ∀ s : State, s.host = [] → s.status = .busy → s.unit = .enc → s.enc.phase = .tokens →
    (s.enc.srcPos < s.srcLen.toNat →
      ∃ (i : Instr) (code : Byte) (t : State), step s = .next t ∧
        i = tokenFor s.src (findBest s.src s.srcLen.toNat s.enc).1 (findBest s.src s.srcLen.toNat s.enc).2 ∧
        code = (if (findBest s.src s.srcLen.toNat s.enc).1 < 3 then s.enc.code ||| (0x80#8 >>> s.enc.cnt) else s.enc.code) ∧
        (s.enc.cnt = 7 →
          t.enc.stream = s.enc.stream ++ code :: (s.enc.grp ++ encode i) ∧
          t.enc.encLen = s.enc.encLen + 1 + (s.enc.grp.length + i.lengthBytes) ∧
          t.enc.code = 0 ∧ t.enc.cnt = 0 ∧ t.enc.grp = []) ∧
        (s.enc.cnt ≠ 7 →
          t.enc.stream = s.enc.stream ∧ t.enc.encLen = s.enc.encLen ∧ t.enc.code = code ∧
          t.enc.cnt = s.enc.cnt + 1 ∧ t.enc.grp = s.enc.grp ++ encode i)) ∧
    (s.srcLen.toNat ≤ s.enc.srcPos → 0 < s.enc.cnt →
      ∃ t, step s = .next t ∧ t.enc.encLen = s.enc.encLen + 1 + s.enc.grp.length ∧
        t = { s with
          enc := { s.enc with
            phase := .header, stream := s.enc.stream ++ s.enc.code :: s.enc.grp, code := 0, cnt := 0, grp := [] } }) ∧
    (s.srcLen.toNat ≤ s.enc.srcPos → s.enc.cnt = 0 →
      step s = .next { s with enc := { s.enc with phase := .header } })

/-- `HDR` completes when `DST` has room for it: the 16 header bytes in `DST[0..16)` (R230), every other byte of `DST` and every
other field as it was. Two clauses are the model's choice: that the header is a step of its own, after which `phase` is `body`
(log 9), and that it completes whether or not the whole frame fits, the capacity check of R234 being made in the next step
(log 13). -/
def Obligations.HdrRuns : Prop :=
  ∀ (size : Word) (s : State), 16 ≤ s.dstLen.toNat →
    ∃ t, exec (.hdr size) s = .next t ∧
      Memory.readBytes t.dst 0 16 =
        [0x59, 0x61, 0x7A, 0x30, size.extractLsb' 24 8, size.extractLsb' 16 8, size.extractLsb' 8 8,
          size.extractLsb' 0 8, 0, 0, 0, 0, 0, 0, 0, 0] ∧
      (∀ a, 16 ≤ a → Memory.read t.dst a = Memory.read s.dst a) ∧
      t = { s with dst := t.dst, enc := { s.enc with phase := .body } }

/-- R232: the frame length and the padding for the two admissible values of `ENC_TAIL_BASE`, of which the machine's is one. -/
def Obligations.FrameLength : Prop :=
  (encTailBase = 0 ∨ encTailBase = 16) ∧
  ∀ encLen : Nat,
    frameLen 0 encLen = 16 + 16 * ((encLen + 15) / 16) ∧ frameLen 16 encLen = 32 + 16 * ((encLen + 15) / 16) ∧
    (∀ base : Nat, frameLen base encLen = (base + encLen + 31) - (base + encLen + 31) % 16) ∧
    frameLen 0 encLen - 16 - encLen ≤ 15 ∧ 16 ≤ frameLen 16 encLen - 16 - encLen ∧
    frameLen 16 encLen - 16 - encLen ≤ 31 ∧
    frameLen encTailBase encLen % 16 = 0 ∧ 16 + encLen ≤ frameLen encTailBase encLen

/-- The frame (R230, R231, R233, R234, R238): an encoder that has closed its last group faults with `DST_CAPACITY` when the
frame does not fit, and otherwise leaves header, stream and zero padding in `DST[0..frameLen)`, every byte above as it was,
the result registers and `DONE`. That the model takes two steps for it, the header and then the rest from the stream it has
kept aside, is its choice (logs 9 and 13). -/
def Obligations.FrameIsWritten : Prop :=
  ∀ s : State, s.host = [] → s.status = .busy → s.unit = .enc → s.enc.phase = .header →
    (s.dstLen.toNat < frameLen encTailBase s.enc.encLen →
      ∃ n t, n ≤ 2 ∧ run n s = .next t ∧ Faulted .dstCapacity 0 0 s t) ∧
    (frameLen encTailBase s.enc.encLen ≤ s.dstLen.toNat →
      ∃ t, run 2 s = .next t ∧ t.status = .done ∧
        Memory.readBytes t.dst 0 (frameLen encTailBase s.enc.encLen) =
          encode (.hdr s.srcLen) ++ s.enc.stream ++
            List.replicate (frameLen encTailBase s.enc.encLen - 16 - s.enc.encLen) 0 ∧
        (∀ a, frameLen encTailBase s.enc.encLen ≤ a → Memory.read t.dst a = Memory.read s.dst a) ∧
        t.outLen.toNat = frameLen encTailBase s.enc.encLen ∧ t.srcPos = s.srcLen ∧
        t.dstPos.toNat = 16 + s.enc.encLen ∧ t.src = s.src ∧ t.rom = s.rom ∧ t.err = s.err)

/-- R235: the encoded stream of an `ENC` run is never longer than all literals would make it,
`srcSize + ceil(srcSize / 8)`. -/
def Obligations.StreamSizeBound : Prop :=
  ∀ (s s1 t : State) (n : Nat), s.host = [] → s.status ≠ .busy → exec .enc s = .next s1 → run n s1 = .next t →
    t.enc.encLen ≤ s.srcLen.toNat + (s.srcLen.toNat + 7) / 8

/-- R186, P2: if `ENC` ends `DONE`, a `DEC` given the stream bytes of its frame (and possibly more) as `SRC` and the input's
length as `DST_LEN` ends `DONE` with the input in `DST` and `SRC_POS = encLen`. -/
def Obligations.RoundTrip : Prop :=
  ∀ (s s1 t u u1 : State) (n : Nat), s.host = [] → s.status ≠ .busy → exec .enc s = .next s1 → run n s1 = .next t →
    t.status = .done →
    u.host = [] → u.status ≠ .busy → u.dstLen = s.srcLen → t.dstPos.toNat - 16 ≤ u.srcLen.toNat →
    (∀ j, j < t.dstPos.toNat - 16 → Memory.read u.src j = Memory.read t.dst (16 + j)) → exec .dec u = .next u1 →
    ∃ m v, run m u1 = .next v ∧ v.status = .done ∧ AgreeOn v.dst s.src 0 s.srcLen.toNat ∧
      v.srcPos.toNat = t.dstPos.toNat - 16

/-- P2 through the host's own sequence: `decodeFrame` (R261) on the frame `DST[0..OUT_LEN)` that `ENC` produced gives the
encoder's input. -/
def Obligations.DecodeFrameOfEncode : Prop :=
  ∀ (s s1 t u : State) (n : Nat), s.host = [] → s.status ≠ .busy → exec .enc s = .next s1 → run n s1 = .next t →
    t.status = .done → u.status ≠ .busy →
    u.host = decodeFrameScript (Memory.readBytes t.dst 0 t.outLen.toNat) →
    ∃ m v, run m u = .next v ∧ v.host = [] ∧ v.status = .done ∧ v.outLen = s.srcLen ∧
      AgreeOn v.dst s.src 0 s.srcLen.toNat

/-! ## The CRC unit -/

/-- The table form of the CRC-32 computes the same function as the bitwise loop (R132). -/
def Obligations.Crc32TableForm : Prop :=
  ∀ (c : Word) (b : Byte),
    crc32Step c b = crc32Bits 8 ((c ^^^ b.setWidth 32) &&& 0xFF) ^^^ (c >>> 8)

/-- R141: `t4` counts the carries of the exact sum `t6 + d`, `t6` is the sum modulo 2^32, and "an equivalent test is
`u32(t6 + d) < t6`". -/
def Obligations.CarryCount : Prop :=
  ∀ (v : CicVersion) (e d : Word) (t : Acc),
    (checksumStep v e d t).t6 = t.t6 + d ∧
    (checksumStep v e d t).t4 = (if 2 ^ 32 ≤ t.t6.toNat + d.toNat then t.t4 + 1 else t.t4) ∧
    (2 ^ 32 ≤ t.t6.toNat + d.toNat ↔ (checksumStep v e d t).t6 < t.t6) ∧
    (d = 0 → (checksumStep v e d t).t4 = t.t4) ∧
    (t.t6 = 0xFFFFFFFF → d = 1 → (checksumStep v e d t).t4 = t.t4 + 1 ∧ (checksumStep v e d t).t6 = 0)

/-- R143: the rotated word is circular in 32 bits by the low 5 bits of the word itself, and `t5` adds it modulo 2^32. -/
def Obligations.RotatedWord : Prop :=
  (∀ (d : Word) (k : Nat), k < 32 →
    (rotatedWord d).getLsbD ((k + (d &&& 0x1F).toNat) % 32) = d.getLsbD k) ∧
  (∀ d : Word, d &&& 0x1F = 0 → rotatedWord d = d) ∧
  (∀ (v : CicVersion) (e d : Word) (t : Acc), (checksumStep v e d t).t5 = t.t5 + rotatedWord d) ∧
  rotatedWord 0x00000001 = 0x00000002 ∧ rotatedWord 0x0000001F = 0x8000000F ∧
  rotatedWord 0x00000020 = 0x00000020 ∧ rotatedWord 0x80000000 = 0x80000000 ∧
  rotatedWord 0xFFFFFFFF = 0xFFFFFFFF

/-- R142, R144, R145: `t3`, `t2` and `t1`, where `t2` sees the new `t6` and `t1` the new `t5`, or for CIC 6105 the table
word. -/
def Obligations.MixingUpdates : Prop :=
  ∀ (v : CicVersion) (e d : Word) (t : Acc),
    (checksumStep v e d t).t3 = t.t3 ^^^ d ∧
    (d < t.t2 → (checksumStep v e d t).t2 = t.t2 ^^^ rotatedWord d) ∧
    (¬ d < t.t2 → (checksumStep v e d t).t2 = t.t2 ^^^ (checksumStep v e d t).t6 ^^^ d) ∧
    (v = .v6105 → (checksumStep v e d t).t1 = t.t1 + (e ^^^ d)) ∧
    (v ≠ .v6105 → (checksumStep v e d t).t1 = t.t1 + ((checksumStep v e d t).t5 ^^^ d))

/-- R140, R145, R146: while words of the region are left, a step of the CRC unit takes the big-endian word at `i`, updates the
six accumulators in the rule's order, loads `e` for CIC 6105 and moves `i` on by 4; nothing else changes. -/
def Obligations.ChecksumWordStep : Prop :=
  ∀ (s : State) (d : Word), s.host = [] → s.status = .busy → s.unit = .crc → s.crcU.phase = .region →
    s.crcU.i < 0x101000 → d = Memory.read32 s.rom s.crcU.i →
    ∃ (e : Word) (t : Acc),
      step s = .next { s with crcU := { s.crcU with d := d, r := rotatedWord d, e := e, t := t, i := s.crcU.i + 4 } } ∧
      (s.crcU.cic = .v6105 → e = Memory.read32 s.rom (0x750 + s.crcU.i % 0x100)) ∧
      t.t6 = s.crcU.t.t6 + d ∧
      t.t4 = (if 2 ^ 32 ≤ s.crcU.t.t6.toNat + d.toNat then s.crcU.t.t4 + 1 else s.crcU.t.t4) ∧
      t.t3 = s.crcU.t.t3 ^^^ d ∧ t.t5 = s.crcU.t.t5 + rotatedWord d ∧
      t.t2 = (if d < s.crcU.t.t2 then s.crcU.t.t2 ^^^ rotatedWord d else s.crcU.t.t2 ^^^ t.t6 ^^^ d) ∧
      t.t1 = (if s.crcU.cic = .v6105 then s.crcU.t.t1 + (e ^^^ d) else s.crcU.t.t1 + (t.t5 ^^^ d))

/-- R152 (c): with an all-zero region and a version other than 6105 every word adds the seed to `t1` and changes nothing
else. -/
def Obligations.ZeroRegion : Prop :=
  ∀ (v : CicVersion) (rom : Memory) (w : Nat), v ≠ .v6105 → w ≤ ckWords →
    (∀ a, ckOff ≤ a → a < ckOff + ckLen → Memory.read rom a = 0) →
    checksumWords v rom w = { Acc.seeded v.seed with t1 := v.seed + BitVec.ofNat 32 w * v.seed }

/-- R147: the finalisation, with the rule's example. -/
def Obligations.Finalisation : Prop :=
  (∀ t : Acc,
    finalCrc1 .v6103 t = (t.t6 ^^^ t.t4) + t.t3 ∧ finalCrc2 .v6103 t = (t.t5 ^^^ t.t2) + t.t1 ∧
    finalCrc1 .v6106 t = t.t6 * t.t4 + t.t3 ∧ finalCrc2 .v6106 t = t.t5 * t.t2 + t.t1 ∧
    ∀ v, v = .v6101 ∨ v = .v6102 ∨ v = .v6105 →
      finalCrc1 v t = t.t6 ^^^ t.t4 ^^^ t.t3 ∧ finalCrc2 v t = t.t5 ^^^ t.t2 ^^^ t.t1) ∧
  (let t : Acc := ⟨0x11111111, 0x22222222, 0x33333333, 0x44444444, 0x55555555, 0x66666666⟩
   finalCrc1 .v6102 t = 0x11111111 ∧ finalCrc2 .v6102 t = 0x66666666 ∧ finalCrc1 .v6103 t = 0x55555555 ∧
     finalCrc2 .v6103 t = 0x88888888 ∧ finalCrc1 .v6106 t = 0xE4B17E4B ∧ finalCrc2 .v6106 t = 0x5B05B05B)

/-- The whole of a `CRC` that succeeds (R130 to R151): from acceptance the unit reaches `DONE` with the version, the boot CRC
and the two checksums of the ROM in the registers and, big-endian, in `ROM[0x10..0x18)`; no other byte of a space changes. -/
def Obligations.CrcComputesChecksums : Prop :=
  ∀ (s s1 : State) (v : CicVersion), s.host = [] → s.status ≠ .busy → 0x101000 ≤ s.romLen.toNat →
    cicOfBootCrc (bootCrcOf s.rom) = some v → exec .crc s = .next s1 →
    ∃ n t, run n s1 = .next t ∧ t.status = .done ∧ t.err = .none ∧ t.cic = v.number ∧ t.bootCrc = bootCrcOf s.rom ∧
      t.crc1 = romCrc1 v s.rom ∧ t.crc2 = romCrc2 v s.rom ∧ t.outLen = 0 ∧ t.srcPos = 0 ∧ t.dstPos = 0 ∧
      Memory.read32 t.rom 0x10 = romCrc1 v s.rom ∧ Memory.read32 t.rom 0x14 = romCrc2 v s.rom ∧
      (∀ a, a < 0x10 ∨ 0x18 ≤ a → Memory.read t.rom a = Memory.read s.rom a) ∧ t.src = s.src ∧ t.dst = s.dst

/-- R131, R135: a ROM shorter than 0x1000 bytes faults with `ROM_BOOT` before anything is computed; a boot block whose CRC-32
is not in the table, an all-zero one for example, faults with `CicUnknown` and `BOOT_CRC` tells which value it was; `ROM` is
unchanged. -/
def Obligations.CrcIdentificationFaults : Prop :=
  ∀ s s1 : State, s.host = [] → s.status ≠ .busy → exec .crc s = .next s1 →
    (s.romLen.toNat < 0x1000 →
      ∃ n t, run n s1 = .next t ∧ t.status = .fault ∧ t.err = .boundsError ∧ t.errInfo = 1 ∧ t.bootCrc = 0 ∧
        t.cic = 0 ∧ t.rom = s.rom) ∧
    (0x1000 ≤ s.romLen.toNat → cicOfBootCrc (bootCrcOf s.rom) = none →
      ∃ n t, run n s1 = .next t ∧ t.status = .fault ∧ t.err = .cicUnknown ∧ t.errInfo = 0 ∧
        t.bootCrc = bootCrcOf s.rom ∧ t.cic = 0 ∧ t.rom = s.rom) ∧
    ((∀ a, 0x40 ≤ a → a < 0x1000 → Memory.read s.rom a = 0) →
      bootCrcOf s.rom = 0xE8B8467D ∧ cicOfBootCrc (bootCrcOf s.rom) = none)

/-- R139: a ROM whose boot block is known but whose region is not wholly valid faults with `ROM_REGION` after identification;
`CIC` and `BOOT_CRC` hold, `CRC1` and `CRC2` are 0, `ROM` is unchanged; the reads of the CIC 6105 table lie inside the boot
block. -/
def Obligations.CrcRegionFault : Prop :=
  ∀ (s s1 : State) (v : CicVersion), s.host = [] → s.status ≠ .busy → exec .crc s = .next s1 →
    0x1000 ≤ s.romLen.toNat → s.romLen.toNat < 0x101000 → cicOfBootCrc (bootCrcOf s.rom) = some v →
    ∃ n t, run n s1 = .next t ∧ t.status = .fault ∧ t.err = .boundsError ∧ t.errInfo = 2 ∧
      t.bootCrc = bootCrcOf s.rom ∧ t.cic = v.number ∧ t.crc1 = 0 ∧ t.crc2 = 0 ∧ t.rom = s.rom ∧
      ∀ i, 0x40 ≤ tableOffset i ∧ tableOffset i + 4 ≤ 0x1000

/-- What the CRC unit has computed in each of its phases holds after every step of a state in which it holds (R130 to
R149). -/
def Obligations.CrcInvariant : Prop :=
  ∀ s t : State, s.CrcOk → step s = .next t → t.CrcOk

/-- P3 (R69, R152 (d)): the results depend only on `ROM[0x40..0x101000)`: two machines that agree there, with a known boot
block and the whole region valid, end `DONE` after the same number of steps with the same words in the registers and in
`ROM[0x10..0x18)`. -/
def Obligations.CrcDependsOnRomOnly : Prop :=
  ∀ (s s1 u u1 : State) (v : CicVersion), s.host = [] → s.status ≠ .busy → u.host = [] → u.status ≠ .busy →
    0x101000 ≤ s.romLen.toNat → 0x101000 ≤ u.romLen.toNat → cicOfBootCrc (bootCrcOf s.rom) = some v →
    AgreeOn s.rom u.rom 0x40 0x101000 → exec .crc s = .next s1 → exec .crc u = .next u1 →
    ∃ n t w, run n s1 = .next t ∧ run n u1 = .next w ∧ t.status = .done ∧ w.status = .done ∧
      t.cic = w.cic ∧ t.bootCrc = w.bootCrc ∧ t.crc1 = w.crc1 ∧ t.crc2 = w.crc2 ∧ AgreeOn t.rom w.rom 0x10 0x18

/-- R69, R150: a second `CRC` on the ROM the first one left ends `DONE`, changes no byte and reports the same words. -/
def Obligations.CrcIdempotent : Prop :=
  ∀ (s s1 : State) (v : CicVersion), s.host = [] → s.status ≠ .busy → 0x101000 ≤ s.romLen.toNat →
    cicOfBootCrc (bootCrcOf s.rom) = some v → exec .crc s = .next s1 →
    ∃ n t t1 m u, run n s1 = .next t ∧ t.status = .done ∧ exec .crc t = .next t1 ∧ run m t1 = .next u ∧
      u.status = .done ∧ u.crc1 = t.crc1 ∧ u.crc2 = t.crc2 ∧ u.cic = t.cic ∧ u.bootCrc = t.bootCrc ∧
      ∀ a, Memory.read u.rom a = Memory.read t.rom a

/-! ## Whole-machine rules -/

/-- R255, R350: every accepted command ends, in `DONE` or in `FAULT`, within the bound of its loops, counted in the model's steps
(a code byte is a step of its own, log 9). -/
def Obligations.EveryCommandEnds : Prop :=
  ∀ (s s1 : State) (i : Instr), s.host = [] → s.status ≠ .busy → i ∈ [Instr.crc, .dec, .enc] → exec i s = .next s1 →
    ∃ n t, run n s1 = .next t ∧ t.ended ∧
      n ≤ (if i = .crc then 0xFC0 + 0x40000 + 7 else if i = .dec then 2 * s.dstLen.toNat + 1 else s.srcLen.toNat + 3)

/-- R24: "Nothing else changes `STATUS`": only reset makes the block idle, only a legal command makes it busy, only the end of
an operation makes it done, only a fault of an operation or an illegal code makes it faulty. -/
def Obligations.StatusTransitions : Prop :=
  ∀ s t : State, step s = .next t → t.status ≠ s.status →
    (t.status = .idle → ∃ rest, s.host = .reset :: rest) ∧
    (t.status = .busy → ∃ v rest, s.host = .write .cmd v :: rest ∧ (v = 1 ∨ v = 2 ∨ v = 3)) ∧
    (t.status = .done → s.status = .busy) ∧
    (t.status = .fault →
      s.status = .busy ∨ ∃ v rest, s.host = .write .cmd v :: rest ∧ v ≠ 1 ∧ v ≠ 2 ∧ v ≠ 3)

/-- R80, R61 to R63: what the block may touch when it moves, whether the host does nothing, lets it move or polls (log 3).
`SRC` and the lengths never change; `DST` changes only below `DST_LEN` and only under `DEC` and `ENC`; `ROM` changes only in
`[0x10, 0x18)`, only under `CRC` and only as it ends `DONE`. -/
def Obligations.BlockFootprint : Prop :=
  ∀ s t : State, s.BlockMoves → step s = .next t →
    t.src = s.src ∧ t.srcLen = s.srcLen ∧ t.dstLen = s.dstLen ∧ t.romLen = s.romLen ∧
    (∀ a, s.dstLen.toNat ≤ a → Memory.read t.dst a = Memory.read s.dst a) ∧
    (∀ a, a < 0x10 ∨ 0x18 ≤ a → Memory.read t.rom a = Memory.read s.rom a) ∧
    (s.status ≠ .busy ∨ s.unit = .crc → t.dst = s.dst) ∧
    (s.status ≠ .busy ∨ s.unit ≠ .crc ∨ t.status ≠ .done → t.rom = s.rom)

/-- R293, R150: after a fault of a running operation the inputs are as they were, and so is the whole of `ROM` and, after
`CRC`, of `DST`; a `DST` byte below `DST_LEN` after `DEC` or `ENC` is left open. When the block moves: log 3. -/
def Obligations.FaultLeavesInputs : Prop :=
  ∀ s t : State, s.BlockMoves → s.status = .busy → step s = .next t → t.status = .fault →
    t.src = s.src ∧ t.rom = s.rom ∧ t.outLen = 0 ∧ t.err ≠ .none ∧
    (∀ a, s.dstLen.toNat ≤ a → Memory.read t.dst a = Memory.read s.dst a) ∧ (s.unit = .crc → t.dst = s.dst)

/-- R320 to R322: the reset event, in any state: the registers take their reset values, `SRC` is unchanged, `DST` is unchanged
but for `[0, DST_LEN)` of a `DEC` or `ENC` it cuts off, `ROM` but for `[0x10, 0x18)` of a `CRC` it cuts off. What the host has
still to do stays (log 22). -/
def Obligations.ResetEventEffect : Prop :=
  ∀ (s : State) (rest : List HostAction), s.host = .reset :: rest →
    ∃ t, step s = .next t ∧ t.host = rest ∧ t.status = .idle ∧ (∀ r, t.regValue r = 0) ∧ t.src = s.src ∧
      (∀ a, s.dstLen.toNat ≤ a → Memory.read t.dst a = Memory.read s.dst a) ∧
      (∀ a, a < 0x10 ∨ 0x18 ≤ a → Memory.read t.rom a = Memory.read s.rom a) ∧
      (s.status ≠ .busy ∨ s.unit = .crc → t.dst = s.dst) ∧ (s.status ≠ .busy ∨ s.unit ≠ .crc → t.rom = s.rom)

/-- R321: the machine right after reset reads 0 in every register and is `IDLE`. -/
def Obligations.ResetState : Prop :=
  State.reset.status = .idle ∧ ∀ r, State.reset.regValue r = 0

/-- The spaces stay in canonical form (the model's representation, log 1): every step keeps it. -/
def Obligations.SpacesInvariant : Prop :=
  ∀ s t : State, s.SpacesOk → step s = .next t → t.SpacesOk

/-- R25, R26, R30, R31, R32, R35, R36: what the report registers say holds after every step of a state in which it holds. -/
def Obligations.ReportInvariant : Prop :=
  ∀ s t : State, s.ReportOk → step s = .next t → t.ReportOk

/-- R33, R34: a version that is reported is the table's version of the reported boot CRC; every step of a state in which that
and the CRC unit's own invariant hold keeps it. -/
def Obligations.IdentityInvariant : Prop :=
  ∀ s t : State, s.CrcOk → s.IdentityOk → step s = .next t → t.IdentityOk

/-- All the invariants hold right after reset. -/
def Obligations.ResetMeetsInvariants : Prop :=
  State.reset.SpacesOk ∧ State.reset.ReportOk ∧ State.reset.DecOk ∧ State.reset.EncOk ∧ State.reset.CrcOk ∧
    State.reset.IdentityOk
end

