-- ==== Sys2Proof/Laws/Memory.lean ====
section
/-! SUPPORT. What reading and writing a space do, and that every operation keeps the canonical form. -/

namespace Sys2Proof.Machine

/-! ## Reading after an operation -/

theorem read_cons (cell : Host.Cell) (m : Memory) (b : Nat) :
    Memory.read (cell :: m) b = if cell.1 = b then cell.2 else Memory.read m b := rfl

theorem erase_cons (cell : Host.Cell) (m : Memory) (a : Nat) :
    Memory.erase (cell :: m) a = if cell.1 = a then Memory.erase m a else cell :: Memory.erase m a := by
  by_cases h : cell.1 = a <;> simp [Memory.erase, h]

theorem read_erase (m : Memory) (a b : Nat) :
    Memory.read (Memory.erase m a) b = if b = a then unlistedByte else Memory.read m b := by
  induction m with
  | nil => simp [Memory.erase, Memory.read]
  | cons cell m ih =>
    rw [erase_cons, read_cons]
    by_cases hc : cell.1 = a
    · rw [if_pos hc, ih]
      by_cases hb : b = a
      · rw [if_pos hb, if_pos hb]
      · rw [if_neg hb, if_neg hb, if_neg fun h => hb (h.symm.trans hc)]
    · rw [if_neg hc, read_cons, ih]
      by_cases hb : cell.1 = b
      · rw [if_pos hb, if_pos hb, if_neg fun h => hc (hb.trans h)]
      · rw [if_neg hb, if_neg hb]

theorem read_insert (m : Memory) (a : Nat) (v : Byte) (b : Nat) (h : ∀ cell ∈ m, cell.1 ≠ a) :
    Memory.read (Memory.insert m a v) b = if b = a then v else Memory.read m b := by
  induction m with
  | nil => simp [Memory.insert, Memory.read, eq_comm]
  | cons cell m ih =>
    have hm := ih fun c hc => h c (List.mem_cons_of_mem _ hc)
    have hne := h cell List.mem_cons_self
    unfold Memory.insert
    split
    · simp [read_cons, eq_comm]
    · by_cases hb : cell.1 = b
      · have hba : ¬ b = a := fun e => hne (hb.trans e)
        simp [read_cons, hb, hba]
      · simp [read_cons, hb, hm]

theorem mem_erase_ne (m : Memory) (a : Nat) : ∀ cell ∈ Memory.erase m a, cell.1 ≠ a := by
  intro cell hc
  simpa using (List.mem_filter.mp hc).2

/-- The law of a write: the byte written is read back, every other byte is as it was. -/
theorem read_write (m : Memory) (a : Nat) (v : Byte) (b : Nat) :
    Memory.read (Memory.write m a v) b = if b = a then v else Memory.read m b := by
  unfold Memory.write
  split
  · next h => rw [read_erase, h]
  · rw [read_insert _ _ _ _ (mem_erase_ne m a), read_erase]
    split <;> rfl

@[simp] theorem read_write_same (m : Memory) (a : Nat) (v : Byte) : Memory.read (Memory.write m a v) a = v := by
  simp [read_write]

theorem read_write_ne (m : Memory) {a b : Nat} (v : Byte) (h : b ≠ a) :
    Memory.read (Memory.write m a v) b = Memory.read m b := by
  simp [read_write, h]

/-- The law of a write of several bytes. -/
theorem read_writeBytes (vs : List Byte) : ∀ (m : Memory) (a b : Nat),
    Memory.read (Memory.writeBytes m a vs) b =
      if a ≤ b ∧ b < a + vs.length then vs.getD (b - a) 0 else Memory.read m b := by
  induction vs with
  | nil =>
    intro m a b
    rw [Memory.writeBytes, if_neg (by simp only [List.length_nil]; omega)]
  | cons v vs ih =>
    intro m a b
    rw [Memory.writeBytes, ih, read_write]
    by_cases hb : b = a
    · subst hb
      have h1 : ¬ (b + 1 ≤ b ∧ b < b + 1 + vs.length) := by omega
      have h2 : b ≤ b ∧ b < b + (v :: vs).length := by simp
      rw [if_neg h1, if_pos h2]; simp
    · by_cases hin : a + 1 ≤ b ∧ b < a + 1 + vs.length
      · have h2 : a ≤ b ∧ b < a + (v :: vs).length := by
          simp only [List.length_cons]; omega
        have h3 : b - a = (b - (a + 1)) + 1 := by omega
        rw [if_pos hin, if_pos h2, h3]; simp
      · have h2 : ¬ (a ≤ b ∧ b < a + (v :: vs).length) := by
          simp only [List.length_cons]; omega
        rw [if_neg hin, if_neg h2, if_neg hb]

theorem read_writeBytes_outside (m : Memory) (vs : List Byte) {a b : Nat} (h : b < a ∨ a + vs.length ≤ b) :
    Memory.read (Memory.writeBytes m a vs) b = Memory.read m b := by
  rw [read_writeBytes, if_neg (by omega)]

theorem read_writeBytes_inside (m : Memory) (vs : List Byte) {a k : Nat} (h : k < vs.length) :
    Memory.read (Memory.writeBytes m a vs) (a + k) = vs.getD k 0 := by
  rw [read_writeBytes, if_pos (by omega)]
  congr 1
  omega

@[simp] theorem readBytes_length (n : Nat) : ∀ (m : Memory) (a : Nat), (Memory.readBytes m a n).length = n := by
  induction n with
  | zero => intro m a; rfl
  | succ n ih => intro m a; simp [Memory.readBytes, ih]

theorem readBytes_getD (n : Nat) : ∀ (m : Memory) (a k : Nat), k < n →
    (Memory.readBytes m a n).getD k 0 = Memory.read m (a + k) := by
  induction n with
  | zero => intro m a k h; omega
  | succ n ih =>
    intro m a k h
    cases k with
    | zero => rfl
    | succ k =>
      have := ih m (a + 1) k (by omega)
      simp only [Memory.readBytes, List.getD_cons_succ]
      rw [this]
      congr 1
      omega

/-- Reading a stretch depends on its bytes only. -/
theorem readBytes_congr (n : Nat) : ∀ (m m' : Memory) (a : Nat),
    (∀ b, a ≤ b → b < a + n → Memory.read m b = Memory.read m' b) → Memory.readBytes m a n = Memory.readBytes m' a n := by
  induction n with
  | zero => intro m m' a _; rfl
  | succ n ih =>
    intro m m' a h
    rw [Memory.readBytes, Memory.readBytes, h a (Nat.le_refl a) (by omega),
      ih m m' (a + 1) fun b h1 h2 => h b (by omega) (by omega)]

theorem readBytes_writeBytes_self (vs : List Byte) : ∀ (m : Memory) (a : Nat),
    Memory.readBytes (Memory.writeBytes m a vs) a vs.length = vs := by
  induction vs with
  | nil => intro m a; rfl
  | cons v vs ih =>
    intro m a
    rw [Memory.writeBytes, List.length_cons, Memory.readBytes, ih]
    rw [read_writeBytes_outside _ _ (Or.inl (Nat.lt_succ_self a)), read_write_same]

@[simp] theorem freeBytes_length (n : Nat) : ∀ draw a : Nat, (freeBytes draw a n).length = n := by
  induction n with
  | zero => intro draw a; rfl
  | succ n ih => intro draw a; simp [freeBytes, ih]

/-- Free bytes leave everything outside their range. -/
theorem read_havoc_outside (m : Memory) (draw : Nat) {a n b : Nat} (h : b < a ∨ a + n ≤ b) :
    Memory.read (Memory.havoc m draw a n) b = Memory.read m b := by
  rw [Memory.havoc, read_writeBytes_outside]
  simpa using h

theorem read32_congr {m m' : Memory} {a : Nat} (h : ∀ b, a ≤ b → b < a + 4 → Memory.read m b = Memory.read m' b) :
    Memory.read32 m a = Memory.read32 m' a := by
  unfold Memory.read32
  rw [h a (by omega) (by omega), h (a + 1) (by omega) (by omega), h (a + 2) (by omega) (by omega),
    h (a + 3) (by omega) (by omega)]

@[simp] theorem be32Bytes_length (v : Word) : (be32Bytes v).length = 4 := rfl

theorem read_write32_outside (m : Memory) (v : Word) {a b : Nat} (h : b < a ∨ a + 4 ≤ b) :
    Memory.read (Memory.write32 m a v) b = Memory.read m b :=
  read_writeBytes_outside m (be32Bytes v) h

/-! ## The forward copy -/

theorem copyForward_succ (m : Memory) (p q n : Nat) :
    copyForward m p q (n + 1) = copyForward (Memory.write m q (Memory.read m p)) (p + 1) (q + 1) n := rfl

/-- The copy leaves every byte outside the bytes it writes. -/
theorem read_copyForward_outside (n : Nat) : ∀ (m : Memory) (p q b : Nat), b < q ∨ q + n ≤ b →
    Memory.read (copyForward m p q n) b = Memory.read m b := by
  induction n with
  | zero => intro m p q b _; rfl
  | succ n ih =>
    intro m p q b h
    rw [copyForward_succ, ih _ _ _ _ (by omega), read_write_ne _ _ (by omega)]

/-- The copy as its sequential definition gives it: the byte at `q + k` is the byte at `p + k` of the result itself
(41_yaz0_decoder R177), for a source that lies before the destination. -/
theorem read_copyForward_seq (n : Nat) : ∀ (m : Memory) (p q k : Nat), p < q → k < n →
    Memory.read (copyForward m p q n) (q + k) = Memory.read (copyForward m p q n) (p + k) := by
  induction n with
  | zero => intro m p q k _ h; omega
  | succ n ih =>
    intro m p q k hpq hk
    rw [copyForward_succ]
    cases k with
    | zero =>
      rw [read_copyForward_outside _ _ _ _ _ (by omega), read_copyForward_outside _ _ _ _ _ (by omega)]
      rw [Nat.add_zero, Nat.add_zero, read_write_same, read_write_ne _ _ (by omega)]
    | succ k =>
      have h := ih (Memory.write m q (Memory.read m p)) (p + 1) (q + 1) k (by omega) (by omega)
      rw [show q + (k + 1) = q + 1 + k from by omega, show p + (k + 1) = p + 1 + k from by omega]
      exact h

/-! ## The canonical form -/

theorem wfFrom_cons (lo : Nat) (cell : Host.Cell) (m : Memory) :
    Memory.wfFrom lo (cell :: m) = true ↔
      lo ≤ cell.1 ∧ cell.1 < 2 ^ 32 ∧ cell.2 ≠ unlistedByte ∧ Memory.wfFrom (cell.1 + 1) m = true := by
  simp [Memory.wfFrom, and_assoc]

theorem wfFrom_mono {lo lo' : Nat} (h : lo' ≤ lo) (m : Memory) (hm : Memory.wfFrom lo m = true) :
    Memory.wfFrom lo' m = true := by
  cases m with
  | nil => rfl
  | cons cell m =>
    rw [wfFrom_cons] at hm ⊢
    exact ⟨by omega, hm.2.1, hm.2.2.1, hm.2.2.2⟩

theorem wfFrom_erase (a : Nat) (m : Memory) : ∀ lo, Memory.wfFrom lo m = true →
    Memory.wfFrom lo (Memory.erase m a) = true := by
  induction m with
  | nil => intro lo h; exact h
  | cons cell m ih =>
    intro lo h
    rw [wfFrom_cons] at h
    obtain ⟨h1, h2, h3, h4⟩ := h
    by_cases hc : cell.1 = a
    · rw [erase_cons, if_pos hc]
      exact wfFrom_mono (by omega) _ (ih _ h4)
    · rw [erase_cons, if_neg hc, wfFrom_cons]
      exact ⟨h1, h2, h3, ih _ h4⟩

theorem wfFrom_insert (a : Nat) (v : Byte) (ha : a < 2 ^ 32) (hv : v ≠ unlistedByte) (m : Memory) :
    ∀ lo, lo ≤ a → (∀ cell ∈ m, cell.1 ≠ a) → Memory.wfFrom lo m = true →
      Memory.wfFrom lo (Memory.insert m a v) = true := by
  induction m with
  | nil => intro lo hlo _ _; rw [Memory.insert, wfFrom_cons]; exact ⟨hlo, ha, hv, rfl⟩
  | cons cell m ih =>
    intro lo hlo hne h
    have hc := hne cell List.mem_cons_self
    have hrest := fun c hc => hne c (List.mem_cons_of_mem cell hc)
    rw [wfFrom_cons] at h
    obtain ⟨h1, h2, h3, h4⟩ := h
    unfold Memory.insert
    split
    · next hlt =>
      rw [wfFrom_cons, wfFrom_cons]
      exact ⟨hlo, ha, hv, hlt, h2, h3, h4⟩
    · next hge =>
      rw [wfFrom_cons]
      exact ⟨h1, h2, h3, ih _ (by omega) hrest h4⟩

/-- A write within the 32-bit offsets keeps the canonical form. -/
theorem wf_write {m : Memory} {a : Nat} (v : Byte) (ha : a < 2 ^ 32) (h : Memory.wf m = true) :
    Memory.wf (Memory.write m a v) = true := by
  unfold Memory.write Memory.wf
  split
  · exact wfFrom_erase a m 0 h
  · next hv => exact wfFrom_insert a v ha hv _ 0 (Nat.zero_le a) (mem_erase_ne m a) (wfFrom_erase a m 0 h)

theorem wf_writeBytes (vs : List Byte) : ∀ {m : Memory} {a : Nat}, a + vs.length ≤ 2 ^ 32 → Memory.wf m = true →
    Memory.wf (Memory.writeBytes m a vs) = true := by
  induction vs with
  | nil => intro m a _ h; exact h
  | cons v vs ih =>
    intro m a hlen h
    simp only [List.length_cons] at hlen
    exact ih (by omega) (wf_write v (by omega) h)

theorem wf_havoc {m : Memory} {draw a n : Nat} (h : a + n ≤ 2 ^ 32) (hm : Memory.wf m = true) :
    Memory.wf (Memory.havoc m draw a n) = true :=
  wf_writeBytes _ (by simpa using h) hm

theorem wf_copyForward (n : Nat) : ∀ {m : Memory} {p q : Nat}, q + n ≤ 2 ^ 32 → Memory.wf m = true →
    Memory.wf (copyForward m p q n) = true := by
  induction n with
  | zero => intro m p q _ h; exact h
  | succ n ih =>
    intro m p q hq h
    exact ih (by omega) (wf_write _ (by omega) h)

theorem wf_write32 {m : Memory} {a : Nat} (v : Word) (ha : a + 4 ≤ 2 ^ 32) (h : Memory.wf m = true) :
    Memory.wf (Memory.write32 m a v) = true :=
  wf_writeBytes _ (by simpa using ha) h

theorem read_below_wfFrom {lo b : Nat} (m : Memory) (hm : Memory.wfFrom lo m = true) (hb : b < lo) :
    Memory.read m b = unlistedByte := by
  induction m generalizing lo with
  | nil => rfl
  | cons cell m ih =>
    rw [wfFrom_cons] at hm
    rw [read_cons, if_neg (by omega)]
    exact ih hm.2.2.2 (by omega)

/-- Two spaces in canonical form that read alike are the same data. -/
theorem memory_ext_from (m : Memory) : ∀ (m' : Memory) (lo : Nat), Memory.wfFrom lo m = true →
    Memory.wfFrom lo m' = true → (∀ b, Memory.read m b = Memory.read m' b) → m = m' := by
  induction m with
  | nil =>
    intro m' lo _ h' hr
    cases m' with
    | nil => rfl
    | cons cell m' =>
      rw [wfFrom_cons] at h'
      have := hr cell.1
      rw [read_cons, if_pos rfl] at this
      exact absurd this.symm h'.2.2.1
  | cons cell m ih =>
    intro m' lo h h' hr
    rw [wfFrom_cons] at h
    cases m' with
    | nil =>
      have := hr cell.1
      rw [read_cons, if_pos rfl] at this
      exact absurd this h.2.2.1
    | cons cell' m' =>
      rw [wfFrom_cons] at h'
      have hkey : cell.1 = cell'.1 := by
        rcases Nat.lt_trichotomy cell.1 cell'.1 with hlt | heq | hgt
        · have h1 := hr cell.1
          rw [read_cons, if_pos rfl, read_cons, if_neg (by omega), read_below_wfFrom m' h'.2.2.2 (by omega)] at h1
          exact absurd h1 h.2.2.1
        · exact heq
        · have h1 := hr cell'.1
          rw [read_cons, if_neg (by omega), read_cons, if_pos rfl, read_below_wfFrom m h.2.2.2 (by omega)] at h1
          exact absurd h1.symm h'.2.2.1
      have hval : cell.2 = cell'.2 := by
        have h1 := hr cell.1
        rwa [read_cons, if_pos rfl, read_cons, if_pos hkey.symm] at h1
      have hcell : cell = cell' := Prod.ext hkey hval
      subst hcell
      congr 1
      refine ih m' _ h.2.2.2 h'.2.2.2 fun b => ?_
      have h1 := hr b
      rw [read_cons, read_cons] at h1
      by_cases hb : cell.1 = b
      · rw [read_below_wfFrom m h.2.2.2 (by omega), read_below_wfFrom m' h'.2.2.2 (by omega)]
      · rwa [if_neg hb, if_neg hb] at h1

theorem memory_ext {m m' : Memory} (h : Memory.wf m = true) (h' : Memory.wf m' = true)
    (hr : ∀ b, Memory.read m b = Memory.read m' b) : m = m' :=
  memory_ext_from m m' 0 h h' hr

end Sys2Proof.Machine
end

