-- ==== Sys2Proof/Laws/Crc.lean ====
section
/-! SUPPORT. The CRC unit's loops: the CRC-32 over one byte more, the checksum step without its table word, and a form of the
CRC-32 that the kernel evaluates on a whole boot block. -/

namespace Sys2Proof.Machine

/-- The table word matters to CIC 6105 only (R145). -/
theorem checksumStep_no_table {v : CicVersion} (h : v ≠ .v6105) (e e' d : Word) (t : Acc) :
    checksumStep v e d t = checksumStep v e' d t := by
  unfold checksumStep
  simp [h]

/-- Reading one byte more. -/
theorem readBytes_succ (n : Nat) : ∀ (m : Memory) (a : Nat),
    Memory.readBytes m a (n + 1) = Memory.readBytes m a n ++ [Memory.read m (a + n)] := by
  induction n with
  | zero => intro m a; rfl
  | succ n ih =>
    intro m a
    rw [Memory.readBytes, ih, Memory.readBytes, List.cons_append, show a + 1 + n = a + (n + 1) from by omega]

/-- The CRC-32 register after one byte more (R132). -/
theorem foldl_crc32_succ (m : Memory) (a n : Nat) (c : Word) :
    (Memory.readBytes m a (n + 1)).foldl crc32Step c =
      crc32Step ((Memory.readBytes m a n).foldl crc32Step c) (Memory.read m (a + n)) := by
  rw [readBytes_succ, List.foldl_append]
  rfl

/-! ## The CRC-32 of a boot block, for the kernel -/

/-- One round of R132 on natural numbers. -/
def bitNat (c : Nat) : Nat := c / 2 ^^^ 0xEDB88320 * (c % 2)

/-- One byte: eight rounds. -/
def byteNat (c b : Nat) : Nat :=
  bitNat (bitNat (bitNat (bitNat (bitNat (bitNat (bitNat (bitNat (c ^^^ b))))))))

/-- The `n` last bytes of the boot block; each round matches on the register, so that the kernel evaluates it before the next. -/
def bootNat (rom : Memory) : Nat → Nat → Nat
  | 0, c => c
  | n + 1, c =>
    match byteNat c (Memory.read rom (0x1000 - (n + 1))).toNat with
    | 0 => bootNat rom n 0
    | k + 1 => bootNat rom n (k + 1)

theorem bootNat_succ (rom : Memory) (n c : Nat) :
    bootNat rom (n + 1) c = bootNat rom n (byteNat c (Memory.read rom (0x1000 - (n + 1))).toNat) := by
  rw [bootNat]
  split <;> simp_all

theorem bitNat_toNat (c : Word) :
    bitNat c.toNat = (if c.getLsbD 0 then (c >>> 1) ^^^ crc32Poly else c >>> 1).toNat := by
  have h : c.getLsbD 0 = decide (c.toNat % 2 = 1) := by
    simp only [BitVec.getLsbD, Nat.testBit_zero]
  rw [h]
  rcases Nat.mod_two_eq_zero_or_one c.toNat with e | e <;>
    simp [bitNat, e, crc32Poly, BitVec.toNat_ushiftRight, Nat.shiftRight_eq_div_pow]

theorem byteNat_toNat (c : Word) (b : Byte) : byteNat c.toNat b.toNat = (crc32Step c b).toNat := by
  have h : c.toNat ^^^ b.toNat = (c ^^^ b.setWidth 32).toNat := by
    have hb : b.toNat % 4294967296 = b.toNat := Nat.mod_eq_of_lt (by have := b.isLt; omega)
    simp [BitVec.toNat_xor, hb]
  simp only [byteNat, crc32Step, crc32Bits, h, bitNat_toNat]

theorem bootNat_toNat (rom : Memory) (n : Nat) : ∀ c : Word, n ≤ 0x1000 →
    bootNat rom n c.toNat = ((Memory.readBytes rom (0x1000 - n) n).foldl crc32Step c).toNat := by
  induction n with
  | zero => intro c _; rfl
  | succ n ih =>
    intro c hn
    rw [bootNat_succ, byteNat_toNat, ih _ (by omega), Memory.readBytes, List.foldl_cons,
      show 0x1000 - (n + 1) + 1 = 0x1000 - n from by omega]

/-- The CRC-32 of a boot block from its evaluation on natural numbers. -/
theorem bootCrcOf_eq {rom : Memory} {k : Nat} (h : bootNat rom 0xFC0 0xFFFFFFFF = k) :
    bootCrcOf rom = BitVec.ofNat 32 k ^^^ 0xFFFFFFFF := by
  have e := bootNat_toNat rom 0xFC0 crc32Init (by decide)
  rw [show crc32Init.toNat = 0xFFFFFFFF from rfl, h] at e
  rw [bootCrcOf, crc32, crc32Final, show bootOff = 0x1000 - 0xFC0 from rfl, show bootLen = 0xFC0 from rfl]
  rw [show List.foldl crc32Step crc32Init (Memory.readBytes rom (0x1000 - 0xFC0) 0xFC0) = BitVec.ofNat 32 k from by
    rw [e, BitVec.ofNat_toNat, BitVec.setWidth_eq]]

end Sys2Proof.Machine
end

