-- ==== Sys2Proof/Laws/State.lean ====
section
/-! SUPPORT. What each named update of the state leaves in each field: one lemma per field per update, so that no proof
unfolds an update. -/

namespace Sys2Proof.Machine

section raise
variable (c : FaultCause) (p q : Nat) (s : State)

@[simp] theorem raise_cmd : (raise c p q s).cmd = s.cmd := rfl
@[simp] theorem raise_status : (raise c p q s).status = .fault := rfl
@[simp] theorem raise_err : (raise c p q s).err = c.kind := rfl
@[simp] theorem raise_errInfo : (raise c p q s).errInfo = c.info := rfl
@[simp] theorem raise_srcLen : (raise c p q s).srcLen = s.srcLen := rfl
@[simp] theorem raise_dstLen : (raise c p q s).dstLen = s.dstLen := rfl
@[simp] theorem raise_romLen : (raise c p q s).romLen = s.romLen := rfl
@[simp] theorem raise_outLen : (raise c p q s).outLen = 0 := rfl
@[simp] theorem raise_srcPos : (raise c p q s).srcPos = BitVec.ofNat 32 p := rfl
@[simp] theorem raise_dstPos : (raise c p q s).dstPos = BitVec.ofNat 32 q := rfl
@[simp] theorem raise_cic : (raise c p q s).cic = s.cic := rfl
@[simp] theorem raise_bootCrc : (raise c p q s).bootCrc = s.bootCrc := rfl
@[simp] theorem raise_crc1 : (raise c p q s).crc1 = 0 := rfl
@[simp] theorem raise_crc2 : (raise c p q s).crc2 = 0 := rfl
@[simp] theorem raise_unit : (raise c p q s).unit = s.unit := rfl
@[simp] theorem raise_crcU : (raise c p q s).crcU = s.crcU := rfl
@[simp] theorem raise_dec : (raise c p q s).dec = s.dec := rfl
@[simp] theorem raise_enc : (raise c p q s).enc = s.enc := rfl
@[simp] theorem raise_src : (raise c p q s).src = s.src := rfl
@[simp] theorem raise_dst : (raise c p q s).dst = s.dst := rfl
@[simp] theorem raise_rom : (raise c p q s).rom = s.rom := rfl
@[simp] theorem raise_host : (raise c p q s).host = s.host := rfl
@[simp] theorem raise_readData : (raise c p q s).readData = s.readData := rfl
@[simp] theorem raise_draws : (raise c p q s).draws = s.draws := rfl

end raise

section clearResults
variable (s : State)

@[simp] theorem clearResults_cmd : (clearResults s).cmd = s.cmd := rfl
@[simp] theorem clearResults_status : (clearResults s).status = s.status := rfl
@[simp] theorem clearResults_err : (clearResults s).err = .none := rfl
@[simp] theorem clearResults_errInfo : (clearResults s).errInfo = 0 := rfl
@[simp] theorem clearResults_srcLen : (clearResults s).srcLen = s.srcLen := rfl
@[simp] theorem clearResults_dstLen : (clearResults s).dstLen = s.dstLen := rfl
@[simp] theorem clearResults_romLen : (clearResults s).romLen = s.romLen := rfl
@[simp] theorem clearResults_outLen : (clearResults s).outLen = 0 := rfl
@[simp] theorem clearResults_srcPos : (clearResults s).srcPos = 0 := rfl
@[simp] theorem clearResults_dstPos : (clearResults s).dstPos = 0 := rfl
@[simp] theorem clearResults_cic : (clearResults s).cic = 0 := rfl
@[simp] theorem clearResults_bootCrc : (clearResults s).bootCrc = 0 := rfl
@[simp] theorem clearResults_crc1 : (clearResults s).crc1 = 0 := rfl
@[simp] theorem clearResults_crc2 : (clearResults s).crc2 = 0 := rfl
@[simp] theorem clearResults_unit : (clearResults s).unit = s.unit := rfl
@[simp] theorem clearResults_crcU : (clearResults s).crcU = s.crcU := rfl
@[simp] theorem clearResults_dec : (clearResults s).dec = s.dec := rfl
@[simp] theorem clearResults_enc : (clearResults s).enc = s.enc := rfl
@[simp] theorem clearResults_src : (clearResults s).src = s.src := rfl
@[simp] theorem clearResults_dst : (clearResults s).dst = s.dst := rfl
@[simp] theorem clearResults_rom : (clearResults s).rom = s.rom := rfl
@[simp] theorem clearResults_host : (clearResults s).host = s.host := rfl
@[simp] theorem clearResults_readData : (clearResults s).readData = s.readData := rfl
@[simp] theorem clearResults_draws : (clearResults s).draws = s.draws := rfl

end clearResults

section accept
variable (u : UnitId) (s : State)

@[simp] theorem accept_cmd : (accept u s).cmd = s.cmd := rfl
@[simp] theorem accept_status : (accept u s).status = .busy := rfl
@[simp] theorem accept_err : (accept u s).err = .none := rfl
@[simp] theorem accept_errInfo : (accept u s).errInfo = 0 := rfl
@[simp] theorem accept_srcLen : (accept u s).srcLen = s.srcLen := rfl
@[simp] theorem accept_dstLen : (accept u s).dstLen = s.dstLen := rfl
@[simp] theorem accept_romLen : (accept u s).romLen = s.romLen := rfl
@[simp] theorem accept_outLen : (accept u s).outLen = 0 := rfl
@[simp] theorem accept_srcPos : (accept u s).srcPos = 0 := rfl
@[simp] theorem accept_dstPos : (accept u s).dstPos = 0 := rfl
@[simp] theorem accept_cic : (accept u s).cic = 0 := rfl
@[simp] theorem accept_bootCrc : (accept u s).bootCrc = 0 := rfl
@[simp] theorem accept_crc1 : (accept u s).crc1 = 0 := rfl
@[simp] theorem accept_crc2 : (accept u s).crc2 = 0 := rfl
@[simp] theorem accept_unit : (accept u s).unit = u := rfl
@[simp] theorem accept_crcU : (accept u s).crcU = s.crcU := rfl
@[simp] theorem accept_dec : (accept u s).dec = s.dec := rfl
@[simp] theorem accept_enc : (accept u s).enc = s.enc := rfl
@[simp] theorem accept_src : (accept u s).src = s.src := rfl
@[simp] theorem accept_dst : (accept u s).dst = s.dst := rfl
@[simp] theorem accept_rom : (accept u s).rom = s.rom := rfl
@[simp] theorem accept_host : (accept u s).host = s.host := rfl
@[simp] theorem accept_readData : (accept u s).readData = s.readData := rfl
@[simp] theorem accept_draws : (accept u s).draws = s.draws := rfl

end accept

section complete
variable (n p q : Nat) (s : State)

@[simp] theorem complete_cmd : (complete n p q s).cmd = s.cmd := rfl
@[simp] theorem complete_status : (complete n p q s).status = .done := rfl
@[simp] theorem complete_err : (complete n p q s).err = s.err := rfl
@[simp] theorem complete_errInfo : (complete n p q s).errInfo = s.errInfo := rfl
@[simp] theorem complete_srcLen : (complete n p q s).srcLen = s.srcLen := rfl
@[simp] theorem complete_dstLen : (complete n p q s).dstLen = s.dstLen := rfl
@[simp] theorem complete_romLen : (complete n p q s).romLen = s.romLen := rfl
@[simp] theorem complete_outLen : (complete n p q s).outLen = BitVec.ofNat 32 n := rfl
@[simp] theorem complete_srcPos : (complete n p q s).srcPos = BitVec.ofNat 32 p := rfl
@[simp] theorem complete_dstPos : (complete n p q s).dstPos = BitVec.ofNat 32 q := rfl
@[simp] theorem complete_cic : (complete n p q s).cic = s.cic := rfl
@[simp] theorem complete_bootCrc : (complete n p q s).bootCrc = s.bootCrc := rfl
@[simp] theorem complete_crc1 : (complete n p q s).crc1 = s.crc1 := rfl
@[simp] theorem complete_crc2 : (complete n p q s).crc2 = s.crc2 := rfl
@[simp] theorem complete_unit : (complete n p q s).unit = s.unit := rfl
@[simp] theorem complete_crcU : (complete n p q s).crcU = s.crcU := rfl
@[simp] theorem complete_dec : (complete n p q s).dec = s.dec := rfl
@[simp] theorem complete_enc : (complete n p q s).enc = s.enc := rfl
@[simp] theorem complete_src : (complete n p q s).src = s.src := rfl
@[simp] theorem complete_dst : (complete n p q s).dst = s.dst := rfl
@[simp] theorem complete_rom : (complete n p q s).rom = s.rom := rfl
@[simp] theorem complete_host : (complete n p q s).host = s.host := rfl
@[simp] theorem complete_readData : (complete n p q s).readData = s.readData := rfl
@[simp] theorem complete_draws : (complete n p q s).draws = s.draws := rfl

end complete

section illegalCommand
variable (s : State)

@[simp] theorem illegalCommand_cmd : (illegalCommand s).cmd = s.cmd := rfl
@[simp] theorem illegalCommand_status : (illegalCommand s).status = .fault := rfl
@[simp] theorem illegalCommand_err : (illegalCommand s).err = .illegalCommand := rfl
@[simp] theorem illegalCommand_errInfo : (illegalCommand s).errInfo = 0 := rfl
@[simp] theorem illegalCommand_srcLen : (illegalCommand s).srcLen = s.srcLen := rfl
@[simp] theorem illegalCommand_dstLen : (illegalCommand s).dstLen = s.dstLen := rfl
@[simp] theorem illegalCommand_romLen : (illegalCommand s).romLen = s.romLen := rfl
@[simp] theorem illegalCommand_outLen : (illegalCommand s).outLen = 0 := rfl
@[simp] theorem illegalCommand_srcPos : (illegalCommand s).srcPos = 0 := rfl
@[simp] theorem illegalCommand_dstPos : (illegalCommand s).dstPos = 0 := rfl
@[simp] theorem illegalCommand_cic : (illegalCommand s).cic = 0 := rfl
@[simp] theorem illegalCommand_bootCrc : (illegalCommand s).bootCrc = 0 := rfl
@[simp] theorem illegalCommand_crc1 : (illegalCommand s).crc1 = 0 := rfl
@[simp] theorem illegalCommand_crc2 : (illegalCommand s).crc2 = 0 := rfl
@[simp] theorem illegalCommand_unit : (illegalCommand s).unit = s.unit := rfl
@[simp] theorem illegalCommand_crcU : (illegalCommand s).crcU = s.crcU := rfl
@[simp] theorem illegalCommand_dec : (illegalCommand s).dec = s.dec := rfl
@[simp] theorem illegalCommand_enc : (illegalCommand s).enc = s.enc := rfl
@[simp] theorem illegalCommand_src : (illegalCommand s).src = s.src := rfl
@[simp] theorem illegalCommand_dst : (illegalCommand s).dst = s.dst := rfl
@[simp] theorem illegalCommand_rom : (illegalCommand s).rom = s.rom := rfl
@[simp] theorem illegalCommand_host : (illegalCommand s).host = s.host := rfl
@[simp] theorem illegalCommand_readData : (illegalCommand s).readData = s.readData := rfl
@[simp] theorem illegalCommand_draws : (illegalCommand s).draws = s.draws := rfl

end illegalCommand

section resetRegs
variable (s : State)

@[simp] theorem resetRegs_cmd : (resetRegs s).cmd = 0 := rfl
@[simp] theorem resetRegs_status : (resetRegs s).status = .idle := rfl
@[simp] theorem resetRegs_err : (resetRegs s).err = .none := rfl
@[simp] theorem resetRegs_errInfo : (resetRegs s).errInfo = 0 := rfl
@[simp] theorem resetRegs_srcLen : (resetRegs s).srcLen = 0 := rfl
@[simp] theorem resetRegs_dstLen : (resetRegs s).dstLen = 0 := rfl
@[simp] theorem resetRegs_romLen : (resetRegs s).romLen = 0 := rfl
@[simp] theorem resetRegs_outLen : (resetRegs s).outLen = 0 := rfl
@[simp] theorem resetRegs_srcPos : (resetRegs s).srcPos = 0 := rfl
@[simp] theorem resetRegs_dstPos : (resetRegs s).dstPos = 0 := rfl
@[simp] theorem resetRegs_cic : (resetRegs s).cic = 0 := rfl
@[simp] theorem resetRegs_bootCrc : (resetRegs s).bootCrc = 0 := rfl
@[simp] theorem resetRegs_crc1 : (resetRegs s).crc1 = 0 := rfl
@[simp] theorem resetRegs_crc2 : (resetRegs s).crc2 = 0 := rfl
@[simp] theorem resetRegs_unit : (resetRegs s).unit = .crc := rfl
@[simp] theorem resetRegs_crcU : (resetRegs s).crcU = CrcRegs.reset := rfl
@[simp] theorem resetRegs_dec : (resetRegs s).dec = DecRegs.reset := rfl
@[simp] theorem resetRegs_enc : (resetRegs s).enc = EncRegs.reset := rfl
@[simp] theorem resetRegs_src : (resetRegs s).src = s.src := rfl
@[simp] theorem resetRegs_dst : (resetRegs s).dst = s.dst := rfl
@[simp] theorem resetRegs_rom : (resetRegs s).rom = s.rom := rfl
@[simp] theorem resetRegs_host : (resetRegs s).host = s.host := rfl
@[simp] theorem resetRegs_readData : (resetRegs s).readData = s.readData := rfl
@[simp] theorem resetRegs_draws : (resetRegs s).draws = s.draws := rfl

end resetRegs

section writeDst
variable (a : Nat) (bytes : List Byte) (s : State)

@[simp] theorem writeDst_cmd : (State.writeDst a bytes s).cmd = s.cmd := rfl
@[simp] theorem writeDst_status : (State.writeDst a bytes s).status = s.status := rfl
@[simp] theorem writeDst_err : (State.writeDst a bytes s).err = s.err := rfl
@[simp] theorem writeDst_errInfo : (State.writeDst a bytes s).errInfo = s.errInfo := rfl
@[simp] theorem writeDst_srcLen : (State.writeDst a bytes s).srcLen = s.srcLen := rfl
@[simp] theorem writeDst_dstLen : (State.writeDst a bytes s).dstLen = s.dstLen := rfl
@[simp] theorem writeDst_romLen : (State.writeDst a bytes s).romLen = s.romLen := rfl
@[simp] theorem writeDst_outLen : (State.writeDst a bytes s).outLen = s.outLen := rfl
@[simp] theorem writeDst_srcPos : (State.writeDst a bytes s).srcPos = s.srcPos := rfl
@[simp] theorem writeDst_dstPos : (State.writeDst a bytes s).dstPos = s.dstPos := rfl
@[simp] theorem writeDst_cic : (State.writeDst a bytes s).cic = s.cic := rfl
@[simp] theorem writeDst_bootCrc : (State.writeDst a bytes s).bootCrc = s.bootCrc := rfl
@[simp] theorem writeDst_crc1 : (State.writeDst a bytes s).crc1 = s.crc1 := rfl
@[simp] theorem writeDst_crc2 : (State.writeDst a bytes s).crc2 = s.crc2 := rfl
@[simp] theorem writeDst_unit : (State.writeDst a bytes s).unit = s.unit := rfl
@[simp] theorem writeDst_crcU : (State.writeDst a bytes s).crcU = s.crcU := rfl
@[simp] theorem writeDst_dec : (State.writeDst a bytes s).dec = s.dec := rfl
@[simp] theorem writeDst_enc : (State.writeDst a bytes s).enc = s.enc := rfl
@[simp] theorem writeDst_src : (State.writeDst a bytes s).src = s.src := rfl
@[simp] theorem writeDst_dst : (State.writeDst a bytes s).dst = Memory.writeBytes s.dst a bytes := rfl
@[simp] theorem writeDst_rom : (State.writeDst a bytes s).rom = s.rom := rfl
@[simp] theorem writeDst_host : (State.writeDst a bytes s).host = s.host := rfl
@[simp] theorem writeDst_readData : (State.writeDst a bytes s).readData = s.readData := rfl
@[simp] theorem writeDst_draws : (State.writeDst a bytes s).draws = s.draws := rfl

end writeDst

section havocDst
variable (s : State)

@[simp] theorem havocDst_cmd : (State.havocDst s).cmd = s.cmd := rfl
@[simp] theorem havocDst_status : (State.havocDst s).status = s.status := rfl
@[simp] theorem havocDst_err : (State.havocDst s).err = s.err := rfl
@[simp] theorem havocDst_errInfo : (State.havocDst s).errInfo = s.errInfo := rfl
@[simp] theorem havocDst_srcLen : (State.havocDst s).srcLen = s.srcLen := rfl
@[simp] theorem havocDst_dstLen : (State.havocDst s).dstLen = s.dstLen := rfl
@[simp] theorem havocDst_romLen : (State.havocDst s).romLen = s.romLen := rfl
@[simp] theorem havocDst_outLen : (State.havocDst s).outLen = s.outLen := rfl
@[simp] theorem havocDst_srcPos : (State.havocDst s).srcPos = s.srcPos := rfl
@[simp] theorem havocDst_dstPos : (State.havocDst s).dstPos = s.dstPos := rfl
@[simp] theorem havocDst_cic : (State.havocDst s).cic = s.cic := rfl
@[simp] theorem havocDst_bootCrc : (State.havocDst s).bootCrc = s.bootCrc := rfl
@[simp] theorem havocDst_crc1 : (State.havocDst s).crc1 = s.crc1 := rfl
@[simp] theorem havocDst_crc2 : (State.havocDst s).crc2 = s.crc2 := rfl
@[simp] theorem havocDst_unit : (State.havocDst s).unit = s.unit := rfl
@[simp] theorem havocDst_crcU : (State.havocDst s).crcU = s.crcU := rfl
@[simp] theorem havocDst_dec : (State.havocDst s).dec = s.dec := rfl
@[simp] theorem havocDst_enc : (State.havocDst s).enc = s.enc := rfl
@[simp] theorem havocDst_src : (State.havocDst s).src = s.src := rfl
@[simp] theorem havocDst_dst : (State.havocDst s).dst = Memory.havoc s.dst s.draws 0 s.dstLen.toNat := rfl
@[simp] theorem havocDst_rom : (State.havocDst s).rom = s.rom := rfl
@[simp] theorem havocDst_host : (State.havocDst s).host = s.host := rfl
@[simp] theorem havocDst_readData : (State.havocDst s).readData = s.readData := rfl
@[simp] theorem havocDst_draws : (State.havocDst s).draws = s.draws + 1 := rfl

end havocDst

section havocRomWords
variable (s : State)

@[simp] theorem havocRomWords_cmd : (State.havocRomWords s).cmd = s.cmd := rfl
@[simp] theorem havocRomWords_status : (State.havocRomWords s).status = s.status := rfl
@[simp] theorem havocRomWords_err : (State.havocRomWords s).err = s.err := rfl
@[simp] theorem havocRomWords_errInfo : (State.havocRomWords s).errInfo = s.errInfo := rfl
@[simp] theorem havocRomWords_srcLen : (State.havocRomWords s).srcLen = s.srcLen := rfl
@[simp] theorem havocRomWords_dstLen : (State.havocRomWords s).dstLen = s.dstLen := rfl
@[simp] theorem havocRomWords_romLen : (State.havocRomWords s).romLen = s.romLen := rfl
@[simp] theorem havocRomWords_outLen : (State.havocRomWords s).outLen = s.outLen := rfl
@[simp] theorem havocRomWords_srcPos : (State.havocRomWords s).srcPos = s.srcPos := rfl
@[simp] theorem havocRomWords_dstPos : (State.havocRomWords s).dstPos = s.dstPos := rfl
@[simp] theorem havocRomWords_cic : (State.havocRomWords s).cic = s.cic := rfl
@[simp] theorem havocRomWords_bootCrc : (State.havocRomWords s).bootCrc = s.bootCrc := rfl
@[simp] theorem havocRomWords_crc1 : (State.havocRomWords s).crc1 = s.crc1 := rfl
@[simp] theorem havocRomWords_crc2 : (State.havocRomWords s).crc2 = s.crc2 := rfl
@[simp] theorem havocRomWords_unit : (State.havocRomWords s).unit = s.unit := rfl
@[simp] theorem havocRomWords_crcU : (State.havocRomWords s).crcU = s.crcU := rfl
@[simp] theorem havocRomWords_dec : (State.havocRomWords s).dec = s.dec := rfl
@[simp] theorem havocRomWords_enc : (State.havocRomWords s).enc = s.enc := rfl
@[simp] theorem havocRomWords_src : (State.havocRomWords s).src = s.src := rfl
@[simp] theorem havocRomWords_dst : (State.havocRomWords s).dst = s.dst := rfl
@[simp] theorem havocRomWords_rom : (State.havocRomWords s).rom = Memory.havoc s.rom s.draws crc1Off 8 := rfl
@[simp] theorem havocRomWords_host : (State.havocRomWords s).host = s.host := rfl
@[simp] theorem havocRomWords_readData : (State.havocRomWords s).readData = s.readData := rfl
@[simp] theorem havocRomWords_draws : (State.havocRomWords s).draws = s.draws + 1 := rfl

end havocRomWords

section decRaise
variable (c : FaultCause) (s : State)

@[simp] theorem decRaise_cmd : (decRaise c s).cmd = s.cmd := rfl
@[simp] theorem decRaise_status : (decRaise c s).status = .fault := rfl
@[simp] theorem decRaise_err : (decRaise c s).err = c.kind := rfl
@[simp] theorem decRaise_errInfo : (decRaise c s).errInfo = c.info := rfl
@[simp] theorem decRaise_srcLen : (decRaise c s).srcLen = s.srcLen := rfl
@[simp] theorem decRaise_dstLen : (decRaise c s).dstLen = s.dstLen := rfl
@[simp] theorem decRaise_romLen : (decRaise c s).romLen = s.romLen := rfl
@[simp] theorem decRaise_outLen : (decRaise c s).outLen = 0 := rfl
@[simp] theorem decRaise_srcPos : (decRaise c s).srcPos = BitVec.ofNat 32 s.dec.stepStart := rfl
@[simp] theorem decRaise_dstPos : (decRaise c s).dstPos = BitVec.ofNat 32 s.dec.dstPos := rfl
@[simp] theorem decRaise_cic : (decRaise c s).cic = s.cic := rfl
@[simp] theorem decRaise_bootCrc : (decRaise c s).bootCrc = s.bootCrc := rfl
@[simp] theorem decRaise_crc1 : (decRaise c s).crc1 = 0 := rfl
@[simp] theorem decRaise_crc2 : (decRaise c s).crc2 = 0 := rfl
@[simp] theorem decRaise_unit : (decRaise c s).unit = s.unit := rfl
@[simp] theorem decRaise_crcU : (decRaise c s).crcU = s.crcU := rfl
@[simp] theorem decRaise_dec : (decRaise c s).dec = s.dec := rfl
@[simp] theorem decRaise_enc : (decRaise c s).enc = s.enc := rfl
@[simp] theorem decRaise_src : (decRaise c s).src = s.src := rfl
@[simp] theorem decRaise_dst : (decRaise c s).dst = Memory.havoc s.dst s.draws 0 s.dstLen.toNat := rfl
@[simp] theorem decRaise_rom : (decRaise c s).rom = s.rom := rfl
@[simp] theorem decRaise_host : (decRaise c s).host = s.host := rfl
@[simp] theorem decRaise_readData : (decRaise c s).readData = s.readData := rfl
@[simp] theorem decRaise_draws : (decRaise c s).draws = s.draws + 1 := rfl

end decRaise

section encRaise
variable (c : FaultCause) (s : State)

@[simp] theorem encRaise_cmd : (encRaise c s).cmd = s.cmd := rfl
@[simp] theorem encRaise_status : (encRaise c s).status = .fault := rfl
@[simp] theorem encRaise_err : (encRaise c s).err = c.kind := rfl
@[simp] theorem encRaise_errInfo : (encRaise c s).errInfo = c.info := rfl
@[simp] theorem encRaise_srcLen : (encRaise c s).srcLen = s.srcLen := rfl
@[simp] theorem encRaise_dstLen : (encRaise c s).dstLen = s.dstLen := rfl
@[simp] theorem encRaise_romLen : (encRaise c s).romLen = s.romLen := rfl
@[simp] theorem encRaise_outLen : (encRaise c s).outLen = 0 := rfl
@[simp] theorem encRaise_srcPos : (encRaise c s).srcPos = 0 := rfl
@[simp] theorem encRaise_dstPos : (encRaise c s).dstPos = 0 := rfl
@[simp] theorem encRaise_cic : (encRaise c s).cic = s.cic := rfl
@[simp] theorem encRaise_bootCrc : (encRaise c s).bootCrc = s.bootCrc := rfl
@[simp] theorem encRaise_crc1 : (encRaise c s).crc1 = 0 := rfl
@[simp] theorem encRaise_crc2 : (encRaise c s).crc2 = 0 := rfl
@[simp] theorem encRaise_unit : (encRaise c s).unit = s.unit := rfl
@[simp] theorem encRaise_crcU : (encRaise c s).crcU = s.crcU := rfl
@[simp] theorem encRaise_dec : (encRaise c s).dec = s.dec := rfl
@[simp] theorem encRaise_enc : (encRaise c s).enc = s.enc := rfl
@[simp] theorem encRaise_src : (encRaise c s).src = s.src := rfl
@[simp] theorem encRaise_dst : (encRaise c s).dst = Memory.havoc s.dst s.draws 0 s.dstLen.toNat := rfl
@[simp] theorem encRaise_rom : (encRaise c s).rom = s.rom := rfl
@[simp] theorem encRaise_host : (encRaise c s).host = s.host := rfl
@[simp] theorem encRaise_readData : (encRaise c s).readData = s.readData := rfl
@[simp] theorem encRaise_draws : (encRaise c s).draws = s.draws + 1 := rfl

end encRaise

section advance
variable (r : DecRegs) (p q : Nat)

@[simp] theorem advance_srcPos : (r.advance p q).srcPos = r.srcPos + p := rfl
@[simp] theorem advance_dstPos : (r.advance p q).dstPos = r.dstPos + q := rfl
@[simp] theorem advance_cb : (r.advance p q).cb = shiftCode r.cb := rfl
@[simp] theorem advance_bitCount : (r.advance p q).bitCount = r.bitCount - 1 := rfl

end advance

section withSpace
variable (s : State) (sp : Space) (m : Memory)

@[simp] theorem withSpace_space : (s.withSpace sp m).space sp = m := by cases sp <;> rfl
@[simp] theorem withSpace_status : (s.withSpace sp m).status = s.status := by cases sp <;> rfl
@[simp] theorem withSpace_host : (s.withSpace sp m).host = s.host := by cases sp <;> rfl
theorem withSpace_space_ne {sp' : Space} (h : sp' ≠ sp) : (s.withSpace sp m).space sp' = s.space sp' := by
  cases sp <;> cases sp' <;> first | rfl | exact absurd rfl h

end withSpace

section start

@[simp] theorem crcStart_phase : CrcRegs.start.phase = .bootBounds := rfl
@[simp] theorem crcStart_a : CrcRegs.start.a = bootOff := rfl
@[simp] theorem crcStart_c : CrcRegs.start.c = crc32Init := rfl
@[simp] theorem crcStart_bootCrc : CrcRegs.start.bootCrc = 0 := rfl
@[simp] theorem crcStart_cic : CrcRegs.start.cic = .v6101 := rfl
@[simp] theorem crcStart_seed : CrcRegs.start.seed = 0 := rfl
@[simp] theorem crcStart_t : CrcRegs.start.t = Acc.zero := rfl
@[simp] theorem crcStart_i : CrcRegs.start.i = ckOff := rfl
@[simp] theorem crcStart_d : CrcRegs.start.d = 0 := rfl
@[simp] theorem crcStart_r : CrcRegs.start.r = 0 := rfl
@[simp] theorem crcStart_e : CrcRegs.start.e = 0 := rfl
@[simp] theorem crcStart_crc1 : CrcRegs.start.crc1 = 0 := rfl
@[simp] theorem crcStart_crc2 : CrcRegs.start.crc2 = 0 := rfl

@[simp] theorem decStart_srcPos : DecRegs.start.srcPos = 0 := rfl
@[simp] theorem decStart_dstPos : DecRegs.start.dstPos = 0 := rfl
@[simp] theorem decStart_cb : DecRegs.start.cb = 0 := rfl
@[simp] theorem decStart_bitCount : DecRegs.start.bitCount = 0 := rfl

@[simp] theorem encStart_phase : EncRegs.start.phase = .tokens := rfl
@[simp] theorem encStart_srcPos : EncRegs.start.srcPos = 0 := rfl
@[simp] theorem encStart_flag : EncRegs.start.flag = false := rfl
@[simp] theorem encStart_stashSize : EncRegs.start.stashSize = 0 := rfl
@[simp] theorem encStart_stashMatch : EncRegs.start.stashMatch = 0 := rfl
@[simp] theorem encStart_matchPosition : EncRegs.start.matchPosition = 0 := rfl
@[simp] theorem encStart_code : EncRegs.start.code = 0 := rfl
@[simp] theorem encStart_cnt : EncRegs.start.cnt = 0 := rfl
@[simp] theorem encStart_grp : EncRegs.start.grp = [] := rfl
@[simp] theorem encStart_stream : EncRegs.start.stream = [] := rfl
@[simp] theorem encStart_encLen : EncRegs.start.encLen = 0 := rfl

end start

end Sys2Proof.Machine
end

