-- ==== Sys2Proof/Laws/Ops.lean ====
section
/-! SUPPORT. What the shared operations do, once each: fault entry in the two codecs, the back-reference, the host's
register accesses, reset. -/

namespace Sys2Proof.Machine

/-- A decoder fault leaves what 60_exceptions R292 and R293 say. -/
theorem decRaise_faulted (c : FaultCause) (s : State) :
    Faulted c s.dec.stepStart s.dec.dstPos s (decRaise c s) where
  status := rfl
  err := rfl
  errInfo := rfl
  outLen := rfl
  srcPos := rfl
  dstPos := rfl
  words := ⟨rfl, rfl⟩
  identity := ⟨rfl, rfl⟩
  lengths := ⟨rfl, rfl, rfl⟩
  inputs := ⟨rfl, rfl⟩
  beyond := fun a ha => by
    rw [decRaise_dst]
    exact read_havoc_outside _ _ (Or.inr (by simpa using ha))

/-- An encoder fault leaves what 60_exceptions R292 and R293 say. -/
theorem encRaise_faulted (c : FaultCause) (s : State) : Faulted c 0 0 s (encRaise c s) where
  status := rfl
  err := rfl
  errInfo := rfl
  outLen := rfl
  srcPos := rfl
  dstPos := rfl
  words := ⟨rfl, rfl⟩
  identity := ⟨rfl, rfl⟩
  lengths := ⟨rfl, rfl, rfl⟩
  inputs := ⟨rfl, rfl⟩
  beyond := fun a ha => by
    rw [encRaise_dst]
    exact read_havoc_outside _ _ (Or.inr (by simpa using ha))

/-- `ENC_TAIL_BASE` is one of the two values of 00_scope R9. -/
theorem encTailBase_cases : encTailBase = 0 ∨ encTailBase = 16 := by
  unfold encTailBase
  split
  · exact .inr rfl
  · exact .inl rfl

/-- Everything a back-reference can do: one of the three faults, in the order of 41_yaz0_decoder R181, or the copy. -/
theorem backReference_cases (size dist len : Nat) (s : State) :
    (s.srcLen.toNat < s.dec.srcPos + size ∧ backReference size dist len s = decRaise .srcExhausted s) ∨
    (s.dec.srcPos + size ≤ s.srcLen.toNat ∧ s.dec.dstPos < dist + 1 ∧
      backReference size dist len s = decRaise .backrefUnderflow s) ∨
    (s.dec.srcPos + size ≤ s.srcLen.toNat ∧ dist + 1 ≤ s.dec.dstPos ∧ s.dstLen.toNat < s.dec.dstPos + len ∧
      backReference size dist len s = decRaise .dstOverflow s) ∨
    (s.dec.srcPos + size ≤ s.srcLen.toNat ∧ dist + 1 ≤ s.dec.dstPos ∧ s.dec.dstPos + len ≤ s.dstLen.toNat ∧
      backReference size dist len s =
        { s with
          dst := copyForward s.dst (s.dec.dstPos - dist - 1) s.dec.dstPos len, dec := s.dec.advance size len }) := by
  unfold backReference
  split
  · exact .inl ⟨by omega, rfl⟩
  · split
    · exact .inr (.inl ⟨by omega, by omega, rfl⟩)
    · split
      · exact .inr (.inr (.inl ⟨by omega, by omega, by omega, rfl⟩))
      · exact .inr (.inr (.inr ⟨by omega, by omega, by omega, rfl⟩))

/-- A host write to a register changes at most the three length registers, and nothing while `BUSY`. -/
theorem writeReg_cases (s : State) (r : Reg) (v : Word) :
    s.writeReg r v = s ∨
    (s.status ≠ .busy ∧
      (s.writeReg r v = { s with srcLen := v } ∨ s.writeReg r v = { s with dstLen := v } ∨
        s.writeReg r v = { s with romLen := v })) := by
  unfold State.writeReg
  split
  · exact .inl rfl
  · next h => cases r <;> first | exact .inl rfl | exact .inr ⟨h, by simp⟩

/-- A host read changes nothing but the value read and the count of free values. -/
theorem readReg_eq (s : State) (r : Reg) :
    s.readReg r = { s with readData := (s.readReg r).readData, draws := (s.readReg r).draws } := by
  unfold State.readReg
  split <;> rfl

/-- The check of the host's accesses is the rule of 20_memory R75. -/
theorem spaceInUse_iff (s : State) (sp : Space) : s.spaceInUse sp = true ↔ s.CommandUses sp := by
  unfold State.spaceInUse State.CommandUses
  cases s.unit <;> cases sp <;> simp [UnitId.uses]

/-- Everything a command can do: nothing while `BUSY`, else acceptance and the start of its unit. -/
theorem command_cases (s : State) :
    (s.status = .busy ∧ exec .crc s = .next s ∧ exec .dec s = .next s ∧ exec .enc s = .next s) ∨
    (s.status ≠ .busy ∧ exec .crc s = .next { accept .crc s with crcU := CrcRegs.start } ∧
      exec .dec s = .next { accept .dec s with dec := DecRegs.start } ∧
      exec .enc s = .next { accept .enc s with enc := EncRegs.start }) := by
  by_cases h : s.status = .busy
  · exact .inl ⟨h, if_pos h, if_pos h, if_pos h⟩
  · exact .inr ⟨h, if_neg h, if_neg h, if_neg h⟩

/-- Everything the reset event can leave of the spaces (70_reset R322). -/
theorem abandonOutput_cases (s : State) :
    (s.status = .busy ∧ s.unit = .crc ∧ abandonOutput s = s.havocRomWords) ∨
    (s.status = .busy ∧ s.unit ≠ .crc ∧ abandonOutput s = s.havocDst) ∨
    (s.status ≠ .busy ∧ abandonOutput s = s) := by
  unfold abandonOutput
  split <;> simp_all

theorem resetEvent_src (s : State) : (resetEvent s).src = s.src := by
  rw [resetEvent, resetRegs_src]
  rcases abandonOutput_cases s with ⟨_, _, h⟩ | ⟨_, _, h⟩ | ⟨_, h⟩ <;> rw [h] <;> rfl

theorem resetEvent_dst (s : State) (a : Nat) (h : s.dstLen.toNat ≤ a) :
    Memory.read (resetEvent s).dst a = Memory.read s.dst a := by
  rw [resetEvent, resetRegs_dst]
  rcases abandonOutput_cases s with ⟨_, _, h'⟩ | ⟨_, _, h'⟩ | ⟨_, h'⟩ <;> rw [h']
  · rfl
  · exact read_havoc_outside _ _ (Or.inr (by simpa using h))

theorem resetEvent_rom (s : State) (a : Nat) (h : a < 0x10 ∨ 0x18 ≤ a) :
    Memory.read (resetEvent s).rom a = Memory.read s.rom a := by
  rw [resetEvent, resetRegs_rom]
  rcases abandonOutput_cases s with ⟨_, _, h'⟩ | ⟨_, _, h'⟩ | ⟨_, h'⟩ <;> rw [h']
  · exact read_havoc_outside _ _ h
  · rfl

theorem resetEvent_host (s : State) : (resetEvent s).host = s.host := by
  rw [resetEvent, resetRegs_host]
  rcases abandonOutput_cases s with ⟨_, _, h⟩ | ⟨_, _, h⟩ | ⟨_, h⟩ <;> rw [h] <;> rfl

end Sys2Proof.Machine
end

