-- ==== Sys2Proof/Laws/Decoder.lean ====
section
/-! SUPPORT. What the decoder's fetch can do, and what decoding a command word can. -/

namespace Sys2Proof.Machine

theorem decodeCommand_ok {v : Word} {i : Instr} (h : decodeCommand v = .ok i) :
    (v = 1 ∧ i = .crc) ∨ (v = 2 ∧ i = .dec) ∨ (v = 3 ∧ i = .enc) := by
  unfold decodeCommand at h
  split at h
  · next hv => exact .inl ⟨hv, (Except.ok.inj h).symm⟩
  · split at h
    · next hv => exact .inr (.inl ⟨hv, (Except.ok.inj h).symm⟩)
    · split at h
      · next hv => exact .inr (.inr ⟨hv, (Except.ok.inj h).symm⟩)
      · cases h

theorem decodeCommand_error {v : Word} {e : DecodeError} (h : decodeCommand v = .error e) :
    v ≠ 1 ∧ v ≠ 2 ∧ v ≠ 3 := by
  unfold decodeCommand at h
  split at h
  · cases h
  · split at h
    · cases h
    · split at h
      · cases h
      · next h1 h2 h3 => exact ⟨h1, h2, h3⟩

theorem decodeCommand_illegal {v : Word} (h1 : v ≠ 1) (h2 : v ≠ 2) (h3 : v ≠ 3) :
    decodeCommand v = .error (.illegalCommand v) := by
  unfold decodeCommand
  rw [if_neg h1, if_neg h2, if_neg h3]

/-- The bytes ahead of the decoder, case by case on how many are left. -/
theorem streamAhead_cases (s : State) :
    (s.srcLen.toNat ≤ s.dec.srcPos ∧ s.streamAhead = []) ∨
    (s.srcLen.toNat = s.dec.srcPos + 1 ∧ s.streamAhead = [Memory.read s.src s.dec.srcPos]) ∨
    (s.srcLen.toNat = s.dec.srcPos + 2 ∧
      s.streamAhead = [Memory.read s.src s.dec.srcPos, Memory.read s.src (s.dec.srcPos + 1)]) ∨
    (s.dec.srcPos + 3 ≤ s.srcLen.toNat ∧
      s.streamAhead =
        [Memory.read s.src s.dec.srcPos, Memory.read s.src (s.dec.srcPos + 1),
          Memory.read s.src (s.dec.srcPos + 2)]) := by
  unfold State.streamAhead
  rcases Nat.lt_or_ge s.srcLen.toNat (s.dec.srcPos + 1) with h0 | h0
  · refine .inl ⟨by omega, ?_⟩
    rw [show min 3 (s.srcLen.toNat - s.dec.srcPos) = 0 from by omega]; rfl
  · rcases Nat.lt_or_ge s.srcLen.toNat (s.dec.srcPos + 2) with h1 | h1
    · refine .inr (.inl ⟨by omega, ?_⟩)
      rw [show min 3 (s.srcLen.toNat - s.dec.srcPos) = 1 from by omega]; rfl
    · rcases Nat.lt_or_ge s.srcLen.toNat (s.dec.srcPos + 3) with h2 | h2
      · refine .inr (.inr (.inl ⟨by omega, ?_⟩))
        rw [show min 3 (s.srcLen.toNat - s.dec.srcPos) = 2 from by omega]; rfl
      · refine .inr (.inr (.inr ⟨h2, ?_⟩))
        rw [show min 3 (s.srcLen.toNat - s.dec.srcPos) = 3 from by omega]; rfl

/-- What the fetch gives at the start of a group. -/
theorem fetchToken_groupStart (s : State) (h : s.dec.bitCount = 0) :
    fetchToken s =
      if s.dec.srcPos < s.srcLen.toNat then .ok (.code (Memory.read s.src s.dec.srcPos)) else .error .truncated := by
  unfold fetchToken DecRegs.context
  rw [if_pos h]
  rcases streamAhead_cases s with ⟨hl, e⟩ | ⟨hl, e⟩ | ⟨hl, e⟩ | ⟨hl, e⟩ <;> rw [e]
  · rw [if_neg (by omega)]; rfl
  · rw [if_pos (by omega)]; rfl
  · rw [if_pos (by omega)]; rfl
  · rw [if_pos (by omega)]; rfl

/-- What the fetch gives where the code bit is 1. -/
theorem fetchToken_literal (s : State) (h : s.dec.bitCount ≠ 0) (hb : codeBit s.dec.cb = true) :
    fetchToken s =
      if s.dec.srcPos < s.srcLen.toNat then .ok (.lit (Memory.read s.src s.dec.srcPos)) else .error .truncated := by
  unfold fetchToken DecRegs.context
  rw [if_neg h, hb]
  rcases streamAhead_cases s with ⟨hl, e⟩ | ⟨hl, e⟩ | ⟨hl, e⟩ | ⟨hl, e⟩ <;> rw [e]
  · rw [if_neg (by omega)]; rfl
  · rw [if_pos (by omega)]; rfl
  · rw [if_pos (by omega)]; rfl
  · rw [if_pos (by omega)]; rfl

/-- What the fetch gives where the code bit is 0. -/
theorem fetchToken_backRef (s : State) (h : s.dec.bitCount ≠ 0) (hb : codeBit s.dec.cb = false) :
    fetchToken s =
      if (Memory.read s.src s.dec.srcPos).extractLsb' 4 4 ≠ 0 ∧ s.dec.srcPos + 2 ≤ s.srcLen.toNat then
        .ok (.ref2 ((Memory.read s.src s.dec.srcPos).extractLsb' 4 4)
          (distField (Memory.read s.src s.dec.srcPos) (Memory.read s.src (s.dec.srcPos + 1))))
      else if (Memory.read s.src s.dec.srcPos).extractLsb' 4 4 = 0 ∧ s.dec.srcPos + 3 ≤ s.srcLen.toNat then
        .ok (.ref3 (distField (Memory.read s.src s.dec.srcPos) (Memory.read s.src (s.dec.srcPos + 1)))
          (Memory.read s.src (s.dec.srcPos + 2)))
      else .error .truncated := by
  unfold fetchToken DecRegs.context
  rw [if_neg h, hb]
  generalize hb1 : Memory.read s.src s.dec.srcPos = b1
  generalize hb2 : Memory.read s.src (s.dec.srcPos + 1) = b2
  generalize hb3 : Memory.read s.src (s.dec.srcPos + 2) = b3
  have hstream := streamAhead_cases s
  rw [hb1, hb2, hb3] at hstream
  by_cases hn : b1.extractLsb' 4 4 = 0
  · have hbne : (b1.extractLsb' 4 4 != 0) = false := by simpa using hn
    rw [if_neg fun hh => hh.1 hn]
    rcases hstream with ⟨hl, e⟩ | ⟨hl, e⟩ | ⟨hl, e⟩ | ⟨hl, e⟩ <;>
      simp only [e, decode, decodeBackRef, hbne, Bool.false_eq_true, if_false]
    · rw [if_neg (by omega)]
    · rw [if_neg (by omega)]
    · rw [if_neg (by omega)]
    · rw [if_pos ⟨hn, hl⟩]
  · have hbne : (b1.extractLsb' 4 4 != 0) = true := by simpa using hn
    rw [if_neg (c := b1.extractLsb' 4 4 = 0 ∧ _) fun hh => hn hh.1]
    rcases hstream with ⟨hl, e⟩ | ⟨hl, e⟩ | ⟨hl, e⟩ | ⟨hl, e⟩ <;>
      simp only [e, decode, decodeBackRef, hbne, if_true]
    · rw [if_neg (by omega)]
    · rw [if_neg (by omega)]
    · rw [if_pos ⟨hn, by omega⟩]
    · rw [if_pos ⟨hn, by omega⟩]

/-- What the fetch can give: a code byte at the start of a group, else a token, and its bytes are in `SRC`. -/
theorem fetchToken_ok {s : State} {i : Instr} (h : fetchToken s = .ok i) :
    (s.dec.bitCount = 0 ∧ s.dec.srcPos + 1 ≤ s.srcLen.toNat ∧ i = .code (Memory.read s.src s.dec.srcPos)) ∨
    (s.dec.bitCount ≠ 0 ∧ s.dec.srcPos + 1 ≤ s.srcLen.toNat ∧ i = .lit (Memory.read s.src s.dec.srcPos)) ∨
    (s.dec.bitCount ≠ 0 ∧ s.dec.srcPos + 2 ≤ s.srcLen.toNat ∧ ∃ n d, i = .ref2 n d ∧ n ≠ 0) ∨
    (s.dec.bitCount ≠ 0 ∧ s.dec.srcPos + 3 ≤ s.srcLen.toNat ∧ ∃ d m, i = .ref3 d m) := by
  by_cases hc : s.dec.bitCount = 0
  · rw [fetchToken_groupStart s hc] at h
    split at h
    · exact .inl ⟨hc, by omega, (Except.ok.inj h).symm⟩
    · cases h
  · cases hb : codeBit s.dec.cb with
    | true =>
      rw [fetchToken_literal s hc hb] at h
      split at h
      · exact .inr (.inl ⟨hc, by omega, (Except.ok.inj h).symm⟩)
      · cases h
    | false =>
      rw [fetchToken_backRef s hc hb] at h
      split at h
      · next hh => exact .inr (.inr (.inl ⟨hc, hh.2, _, _, (Except.ok.inj h).symm, hh.1⟩))
      · split at h
        · next hh => exact .inr (.inr (.inr ⟨hc, hh.2, _, _, (Except.ok.inj h).symm⟩))
        · cases h

/-- What a running decoder's next move is. -/
theorem decTurn_cases (s : State) :
    (s.dec.dstPos = s.dstLen.toNat ∧ decTurn s = .settle (decComplete s)) ∨
    (s.dec.dstPos ≠ s.dstLen.toNat ∧ (∃ i, fetchToken s = .ok i ∧ decTurn s = .run i s)) ∨
    (s.dec.dstPos ≠ s.dstLen.toNat ∧ (∃ e, fetchToken s = .error e ∧
      decTurn s = .settle (decRaise .srcExhausted s))) := by
  unfold decTurn
  split
  · next h => exact .inl ⟨h, rfl⟩
  · next h =>
    cases hf : fetchToken s with
    | ok i => exact .inr (.inl ⟨h, i, rfl, rfl⟩)
    | error e => exact .inr (.inr ⟨h, e, rfl, rfl⟩)

end Sys2Proof.Machine
end

