-- ==== Sys2Proof/Laws/Encoder.lean ====
section
/-! SUPPORT. The encoder's comparison loop, the length of a token's bytes, what one iteration of the main loop
leaves, and the code byte's unused bits. -/

namespace Sys2Proof.Machine

/-- A comparison ends within its limit (42_yaz0_encoder R206). -/
theorem matchLength_le (m : Memory) (n : Nat) : ∀ i pos : Nat, matchLength m i pos n ≤ n := by
  induction n with
  | zero => intro i pos; exact Nat.le_refl _
  | succ n ih =>
    intro i pos
    unfold matchLength
    split
    · have := ih (i + 1) (pos + 1)
      omega
    · omega

/-- The bytes counted are equal. -/
theorem matchLength_agree (m : Memory) (n : Nat) : ∀ i pos j : Nat, j < matchLength m i pos n →
    Memory.read m (i + j) = Memory.read m (pos + j) := by
  induction n with
  | zero => intro i pos j h; simp [matchLength] at h
  | succ n ih =>
    intro i pos j h
    unfold matchLength at h
    split at h
    · next e =>
      cases j with
      | zero => exact e
      | succ j =>
        have := ih (i + 1) (pos + 1) j (by omega)
        rwa [show i + 1 + j = i + (j + 1) from by omega, show pos + 1 + j = pos + (j + 1) from by omega] at this
    · omega

/-- No longer stretch of equal bytes starts there. -/
theorem le_matchLength (m : Memory) (n : Nat) : ∀ i pos k : Nat, k ≤ n →
    (∀ j, j < k → Memory.read m (i + j) = Memory.read m (pos + j)) → k ≤ matchLength m i pos n := by
  induction n with
  | zero => intro i pos k h _; omega
  | succ n ih =>
    intro i pos k h hj
    cases k with
    | zero => omega
    | succ k =>
      unfold matchLength
      rw [if_pos (show Memory.read m i = Memory.read m pos from hj 0 (by omega))]
      have := ih (i + 1) (pos + 1) k (by omega) fun j h => by
        have := hj (j + 1) (by omega)
        rwa [show i + (j + 1) = i + 1 + j from by omega, show pos + (j + 1) = pos + 1 + j from by omega] at this
      omega

/-- A token has at most three bytes (R101 to R103). -/
theorem tokenFor_length_le (m : Memory) (len : Nat) (r : EncRegs) : (encode (tokenFor m len r)).length ≤ 3 := by
  unfold tokenFor
  split
  · simp [encode]
  · split <;> simp [encode]

/-- A token's bytes are as many as the opcode table says. -/
theorem encode_length (i : Instr) : (encode i).length = i.lengthBytes := by cases i <;> rfl

/-- What one iteration of the main loop leaves in the registers (42_yaz0_encoder R221 to R227): those `findBest` left, with
the token in the group, or, as the eighth, the group in the stream. -/
theorem encodeToken_eq {m : Memory} {srcSize len : Nat} {r r' : EncRegs} (h : findBest m srcSize r = (len, r')) :
    encodeToken m srcSize r =
      if r'.cnt + 1 = groupTokens then
        { r' with
          srcPos := r'.srcPos + spanOf len, code := 0, cnt := 0, grp := [],
          stream := r'.stream ++ codeWith len r' :: (r'.grp ++ encode (tokenFor m len r')) }
      else
        { r' with
          srcPos := r'.srcPos + spanOf len, code := codeWith len r', cnt := r'.cnt + 1,
          grp := r'.grp ++ encode (tokenFor m len r') } := by
  unfold encodeToken closeIfFull
  rw [h]
  rfl

/-- Of the registers, `findBest` changes only those of the lazy rule (R212). -/
theorem findBest_frame (m : Memory) (srcSize : Nat) (r : EncRegs) :
    (findBest m srcSize r).2 =
      { r with
        flag := (findBest m srcSize r).2.flag, matchPosition := (findBest m srcSize r).2.matchPosition,
        stashSize := (findBest m srcSize r).2.stashSize, stashMatch := (findBest m srcSize r).2.stashMatch } := by
  unfold findBest
  split
  · rfl
  · unfold lookAhead
    split <;> rfl

/-- The bits of a code byte for tokens that do not exist yet stay 0 (R226, R228). -/
theorem code_unused_step (c : Byte) (k : Nat) (hk : k < 8) (h : c.toNat % 2 ^ (8 - k) = 0) :
    (c ||| literalBit k).toNat % 2 ^ (8 - (k + 1)) = 0 ∧ c.toNat % 2 ^ (8 - (k + 1)) = 0 := by
  revert c
  revert k
  decide +kernel

end Sys2Proof.Machine
end

