-- ==== Sys2Proof/Laws/Invariant.lean ====
section
/-! SUPPORT. Everything one step can do, packaged once: a property of states that each kind of move keeps is kept by
`step`, and so by every run. -/

namespace Sys2Proof.Machine

/-- `P` is kept by every kind of move of the block and of the host. -/
structure Kept (P : State → Prop) : Prop where
  /-- the host's side of the state is not looked at -/
  hostSide : ∀ (s : State) (h : List HostAction) (r : Word) (d : Nat), P s → P { s with host := h, readData := r, draws := d }
  /-- a command word is stored -/
  cmd : ∀ (s : State) (v : Word), P s → P { s with cmd := v }
  /-- a length register is written while not busy -/
  lengths : ∀ (s : State) (v : Word), s.status ≠ .busy → P s →
    P { s with srcLen := v } ∧ P { s with dstLen := v } ∧ P { s with romLen := v }
  /-- a command is accepted -/
  command : ∀ (s t : State) (i : Instr), s.status ≠ .busy → i = .crc ∨ i = .dec ∨ i = .enc → exec i s = .next t →
    P s → P t
  /-- an illegal command is refused -/
  illegal : ∀ s : State, s.status ≠ .busy → P s → P (illegalCommand s)
  /-- the host writes a byte of a space that is not in use -/
  poke : ∀ (s : State) (sp : Space) (a : Nat) (v : Byte), a < 2 ^ 32 → s.spaceInUse sp = false → P s →
    P (s.withSpace sp (Memory.write (s.space sp) a v))
  /-- the host rebinds a space that is not in use -/
  bind : ∀ (s : State) (sp : Space) (bytes : List Byte), bytes.length ≤ 2 ^ 32 → s.spaceInUse sp = false → P s →
    P (s.withSpace sp (Memory.writeBytes [] 0 bytes))
  /-- the reset event -/
  reset : ∀ s : State, P s → P (resetEvent s)
  /-- the CRC unit moves -/
  crcMove : ∀ s : State, s.status = .busy → s.unit = .crc → P s → P (crcTurn s)
  /-- the decoder completes -/
  decDone : ∀ s : State, s.status = .busy → s.unit = .dec → s.dec.dstPos = s.dstLen.toNat → P s → P (decComplete s)
  /-- the decoder finds a code byte or token incomplete -/
  decShort : ∀ s : State, s.status = .busy → s.unit = .dec → s.dec.dstPos ≠ s.dstLen.toNat → P s →
    P (decRaise .srcExhausted s)
  /-- the decoder executes a code byte or token -/
  decToken : ∀ (s t : State) (i : Instr), s.status = .busy → s.unit = .dec → s.dec.dstPos ≠ s.dstLen.toNat →
    fetchToken s = .ok i → exec i s = .next t → P s → P t
  /-- the encoder emits a token or leaves its main loop -/
  encTokens : ∀ s : State, s.status = .busy → s.unit = .enc → s.enc.phase = .tokens → P s → P (encMainLoop s)
  /-- the encoder writes the header -/
  encHeader : ∀ s t : State, s.status = .busy → s.unit = .enc → s.enc.phase = .header →
    exec (.hdr s.srcLen) s = .next t → P s → P t
  /-- the encoder writes the rest of the frame -/
  encFrame : ∀ s : State, s.status = .busy → s.unit = .enc → s.enc.phase = .body → P s → P (encBody encTailBase s)

/-- What a turn leads to. -/
def Turn.outcome : Turn → Host.Outcome State Fault Refusal
  | .run i t => exec i t
  | .settle t => .next t
  | .stop f => .fault f
  | .refuse r => .refused r

theorem step_eq (s : State) : step s = (turn s).outcome := by
  unfold step Turn.outcome
  cases turn s <;> rfl

theorem Kept.blockMove {P : State → Prop} (k : Kept P) {s t : State} (hs : P s)
    (h : (blockTurn s).outcome = .next t) : P t := by
  unfold blockTurn at h
  cases hst : s.status with
  | busy =>
    rw [hst] at h
    cases hu : s.unit with
    | crc =>
      rw [hu] at h
      cases h
      exact k.crcMove s hst hu hs
    | dec =>
      rw [hu] at h
      rcases decTurn_cases s with ⟨hd, e⟩ | ⟨hd, i, hf, e⟩ | ⟨hd, _, _, e⟩ <;> simp only [e] at h
      · cases h; exact k.decDone s hst hu hd hs
      · exact k.decToken s t i hst hu hd hf h hs
      · cases h; exact k.decShort s hst hu hd hs
    | enc =>
      rw [hu] at h
      simp only [encTurn] at h
      cases hp : s.enc.phase with
      | tokens => rw [hp] at h; cases h; exact k.encTokens s hst hu hp hs
      | header => rw [hp] at h; exact k.encHeader s t hst hu hp h hs
      | body => rw [hp] at h; cases h; exact k.encFrame s hst hu hp hs
  | idle => rw [hst] at h; cases h; exact hs
  | done => rw [hst] at h; cases h; exact hs
  | fault => rw [hst] at h; cases h; exact hs

theorem spaceAccess_next {sp : Space} {n : Nat} {s u t : State} (h : (spaceAccess sp n s u).outcome = .next t) :
    n ≤ 2 ^ 32 ∧ s.spaceInUse sp = false ∧ t = u := by
  unfold spaceAccess at h
  split at h
  · cases h
  · next hn =>
    cases hb : s.spaceInUse sp with
    | true => simp [hb, Turn.outcome] at h
    | false =>
      simp only [hb, Turn.outcome, Bool.false_eq_true, if_false] at h
      cases h
      exact ⟨by omega, rfl, rfl⟩

theorem Kept.writeReg {P : State → Prop} (k : Kept P) {s : State} (r : Reg) (v : Word) (hs : P s) :
    P (s.writeReg r v) := by
  rcases writeReg_cases s r v with e | ⟨hb, e | e | e⟩ <;> rw [e]
  · exact hs
  · exact (k.lengths s v hb hs).1
  · exact (k.lengths s v hb hs).2.1
  · exact (k.lengths s v hb hs).2.2

theorem Kept.issue {P : State → Prop} (k : Kept P) {s t : State} (v : Word) (hs : P s)
    (h : (issueCommand v s).outcome = .next t) : P t := by
  unfold issueCommand at h
  split at h
  · cases h; exact hs
  · next hb =>
    cases hd : decodeCommand v with
    | ok i =>
      rw [hd] at h
      refine k.command { s with cmd := v } t i hb ?_ h (k.cmd s v hs)
      rcases decodeCommand_ok hd with ⟨_, e⟩ | ⟨_, e⟩ | ⟨_, e⟩
      · exact .inl e
      · exact .inr (.inl e)
      · exact .inr (.inr e)
    | error e =>
      rw [hd] at h
      cases h
      exact k.illegal { s with cmd := v } hb (k.cmd s v hs)

theorem Kept.hostMove {P : State → Prop} (k : Kept P) {s t : State} (a : HostAction) (hs : P s)
    (h : (hostTurn a s).outcome = .next t) : P t := by
  cases a with
  | tick => cases h; exact hs
  | poll => cases h; exact hs
  | reset => cases h; exact k.reset s hs
  | read r =>
    cases h
    rw [readReg_eq]
    exact k.hostSide s s.host _ _ hs
  | write r v =>
    cases r with
    | cmd => exact k.issue v hs h
    | _ => cases h; exact k.writeReg _ v hs
  | poke sp a v =>
    obtain ⟨hn, hb, rfl⟩ := spaceAccess_next h
    exact k.poke s sp a v (by omega) hb hs
  | peek sp a =>
    obtain ⟨_, _, rfl⟩ := spaceAccess_next h
    exact k.hostSide s s.host _ s.draws hs
  | bind sp bytes =>
    obtain ⟨hn, hb, rfl⟩ := spaceAccess_next h
    exact k.bind s sp bytes hn hb hs

theorem Kept.pollMove {P : State → Prop} (k : Kept P) {s t : State} (rest : List HostAction) (hs : P s)
    (h : (pollTurn rest s).outcome = .next t) : P t := by
  unfold pollTurn at h
  split at h
  · exact k.blockMove (k.hostSide s s.host _ s.draws hs) h
  · cases h; exact k.hostSide s rest _ s.draws hs
  · cases h; exact k.hostSide s rest _ s.draws hs
  · cases h; exact k.hostSide s rest _ s.draws hs

/-- What every kind of move keeps, a step keeps. -/
theorem Kept.step {P : State → Prop} (k : Kept P) {s t : State} (hs : P s) (h : step s = .next t) : P t := by
  rw [step_eq] at h
  unfold turn at h
  have hrest : ∀ rest, P { s with host := rest } := fun rest => k.hostSide s rest s.readData s.draws hs
  cases hh : s.host with
  | nil => rw [hh] at h; exact k.blockMove hs h
  | cons a rest =>
    rw [hh] at h
    cases a with
    | tick => exact k.blockMove (hrest rest) h
    | poll => exact k.pollMove rest hs h
    | write r v => exact k.hostMove (.write r v) (hrest rest) h
    | read r => exact k.hostMove (.read r) (hrest rest) h
    | poke sp a v => exact k.hostMove (.poke sp a v) (hrest rest) h
    | peek sp a => exact k.hostMove (.peek sp a) (hrest rest) h
    | bind sp bytes => exact k.hostMove (.bind sp bytes) (hrest rest) h
    | reset => exact k.hostMove .reset (hrest rest) h

/-! ## Runs -/

theorem run_zero (s : State) : run 0 s = .next s := rfl

theorem coreRun_succ (M : Host.Core) (n : Nat) (s : M.State) :
    M.run (n + 1) s =
      match M.step s with
      | .next t => M.run n t
      | .fault r => .fault r
      | .refused r => .refused r := rfl

theorem run_succ (n : Nat) (s : State) :
    run (n + 1) s =
      match step s with
      | .next t => run n t
      | .fault r => .fault r
      | .refused r => .refused r := by
  refine (coreRun_succ Sys2Proof.core n s).trans ?_
  cases h : step s with
  | next t => rw [show Host.Core.step Sys2Proof.core s = .next t from h]; rfl
  | fault r => rw [show Host.Core.step Sys2Proof.core s = .fault r from h]; rfl
  | refused r => rw [show Host.Core.step Sys2Proof.core s = .refused r from h]; rfl

theorem run_succ_of_next {n : Nat} {s t : State} (h : step s = .next t) : run (n + 1) s = run n t := by
  rw [run_succ, h]

theorem run_add {n : Nat} : ∀ {s t : State} (m : Nat), run n s = .next t → run (n + m) s = run m t := by
  induction n with
  | zero => intro s t m h; cases h; rw [Nat.zero_add]
  | succ n ih =>
    intro s t m h
    rw [run_succ] at h
    rw [Nat.succ_add, run_succ]
    cases hs : step s with
    | next u => rw [hs] at h; exact ih m h
    | fault r => rw [hs] at h; cases h
    | refused r => rw [hs] at h; cases h

/-- What every kind of move keeps holds along every run. -/
theorem Kept.run {P : State → Prop} (k : Kept P) {n : Nat} : ∀ {s t : State}, P s → run n s = .next t → P t := by
  induction n with
  | zero => intro s t hs h; cases h; exact hs
  | succ n ih =>
    intro s t hs h
    rw [run_succ] at h
    cases hst : Sys2Proof.Machine.step s with
    | next u => rw [hst] at h; exact ih (k.step hs hst) h
    | fault r => rw [hst] at h; cases h
    | refused r => rw [hst] at h; cases h

end Sys2Proof.Machine
end

