-- ==== Sys2Proof/Laws/PerInstr.lean ====
section
/-! SUPPORT. The statements made instruction by instruction (LAWS.json). -/

namespace Sys2Proof.Laws.EncodeLength

/-- An instruction's encoding has the length the opcode table states. -/
def Statement (i : Instr) : Prop := (encode i).length = i.lengthBytes

theorem code : ∀ k, Statement (.code k) := fun _ => rfl
theorem lit : ∀ v, Statement (.lit v) := fun _ => rfl
theorem ref2 : ∀ n d, Statement (.ref2 n d) := fun _ _ => rfl
theorem ref3 : ∀ d m, Statement (.ref3 d m) := fun _ _ => rfl
theorem hdr : ∀ size, Statement (.hdr size) := fun _ => rfl
theorem crc : Statement .crc := rfl
theorem dec : Statement .dec := rfl
theorem enc : Statement .enc := rfl

end Sys2Proof.Laws.EncodeLength
end

