-- ==== Sys2Proof/Tests/Slice0.lean ====
section
/-! SUPPORT. Tests. The expected results are those of 95_test_vectors (the section stands in each docstring) or are worked
out from the rules named there. Tests/Witnesses.lean shows that the hypotheses of every statement can be met. -/

namespace Sys2Proof.Tests

open Sys2Proof.Machine

/-! ## Well-formed terms -/

theorem test_wf_refuses_ref2_zero : (Instr.ref2 0 0).wf = false := by decide

theorem test_wf_admits_the_others :
    (Instr.ref2 1 0).wf = true ∧ (Instr.ref2 15 0xFFF).wf = true ∧ (Instr.ref3 0 0).wf = true ∧
      (Instr.code 0).wf = true ∧ (Instr.lit 0).wf = true ∧ (Instr.hdr 0).wf = true ∧ Instr.crc.wf = true ∧
      Instr.dec.wf = true ∧ Instr.enc.wf = true := by decide

/-! ## Decoding words written out bit by bit -/

/-- R96: `kkkkkkkk`. -/
theorem test_decode_code : decode .groupStart [0b10100000, 7] = .ok (.code 0xA0, [7]) := rfl

/-- R101: `vvvvvvvv` under a code bit of 1. -/
theorem test_decode_lit : decode (.token true) [0b01000001] = .ok (.lit 0x41, []) := rfl

/-- R102: `nnnndddd dddddddd`, n = 4, d = 7 (section 5.1: dist=7, len=6). -/
theorem test_decode_ref2 : decode (.token false) [0b01000000, 0b00000111] = .ok (.ref2 4 7, []) := rfl

/-- R103: `0000dddd dddddddd mmmmmmmm`, d = 0x223, m = 0x22 (section 5.1: dist=0x223, len=52). -/
theorem test_decode_ref3 :
    decode (.token false) [0b00000010, 0b00100011, 0b00100010, 9] = .ok (.ref3 0x223 0x22, [9]) := rfl

/-- R90 to R93: magic, size 0x00012345 with its most significant byte first, eight reserved bytes. -/
theorem test_decode_hdr :
    decode .frameStart
      [0b01011001, 0b01100001, 0b01111010, 0b00110000, 0, 0b00000001, 0b00100011, 0b01000101, 0, 0, 0, 0, 0, 0, 0, 0] =
        .ok (.hdr 0x00012345, []) := by decide

/-- R112: the command codes. -/
theorem test_decode_commands :
    decode .command [0, 0, 0, 0b00000001] = .ok (.crc, []) ∧ decode .command [0, 0, 0, 0b00000010] = .ok (.dec, []) ∧
      decode .command [0, 0, 0, 0b00000011] = .ok (.enc, []) := ⟨rfl, rfl, rfl⟩

/-- R113, R91, R93, and items that are cut short. -/
theorem test_decode_rejects :
    decode .command [1, 0, 0, 0] = .error (.illegalCommand 0x01000000) ∧
      decode .frameStart [0x59, 0x61, 0x7A, 0x31, 0, 0, 0, 0, 0, 0, 0, 0, 0, 0, 0, 0] = .error .badMagic ∧
      decode .frameStart [0x59, 0x61, 0x7A, 0x30, 0, 0, 0, 0, 0, 0, 0, 0, 0, 0, 0, 1] = .error .badReserved ∧
      decode (.token false) [0x10] = .error .truncated ∧ decode (.token false) [0x0F, 0xFF] = .error .truncated := by
  decide

/-- The words of the opcode table, the whole row one big-endian number (log 10). -/
theorem test_decode_table_words :
    decodeTableWord 8 0x41 = some (.code 0x41) ∧ decodeTableWord 16 0xE000 = some (.ref2 14 0) ∧
      decodeTableWord 24 0x022322 = some (.ref3 0x223 0x22) ∧ decodeTableWord 32 1 = some .crc ∧
      decodeTableWord 32 2 = some .dec ∧ decodeTableWord 32 3 = some .enc ∧ decodeTableWord 32 4 = none ∧
      decodeTableWord 128 0x59617A30000000110000000000000000 = some (.hdr 17) := by decide

/-! ## Small machines -/

/-- A property of the next state. -/
def after (o : Host.Outcome State Fault Refusal) (p : State → Bool) : Bool :=
  match o with
  | .next t => p t
  | .fault _ => false
  | .refused _ => false

/-- A running `DEC` on a stream, at these cursors. -/
def decoding (stream out : List Byte) (dstLen : Word) (r : DecRegs) : State :=
  { State.reset with
    status := .busy, unit := .dec, src := Memory.writeBytes [] 0 stream, srcLen := BitVec.ofNat 32 stream.length,
    dst := Memory.writeBytes [] 0 out, dstLen := dstLen, dec := r }

/-- An idle block with an input in `SRC`. -/
def withInput (bytes : List Byte) (dstLen : Word) : State :=
  { State.reset with
    src := Memory.writeBytes [] 0 bytes, srcLen := BitVec.ofNat 32 bytes.length, dstLen := dstLen }

/-- A running `ENC` with these registers. -/
def encoding (bytes : List Byte) (dstLen : Word) (r : EncRegs) : State :=
  { withInput bytes dstLen with status := .busy, unit := .enc, enc := r }

/-- The Z-ROM of section 6 with a tail of the boot block. -/
def zRom (tail : List Byte) : Memory :=
  Memory.writeBytes (Memory.writeBytes [] 0xFFC tail) 0x1000 [0, 0, 0, 1, 0, 0, 0, 2]

/-- The tail that makes it a CIC 6102 ROM. -/
def tail6102 : List Byte := [0x89, 0x26, 0x79, 0xFB]

/-- An idle block with a ROM. -/
def withRom (rom : Memory) (romLen : Word) : State := { State.reset with rom := rom, romLen := romLen }

/-- The registers of an encoder that has closed its last group. -/
def closedEnc (stream : List Byte) (srcPos : Nat) : EncRegs :=
  { EncRegs.reset with phase := .header, srcPos := srcPos, stream := stream }

/-! ## One step of each instruction -/

/-- The group fetch (section 7, program 1). -/
theorem test_code :
    after (step (decoding [0x80, 0x41, 0xE0, 0x00] [] 17 ⟨0, 0, 0, 0⟩)) (fun t => t.dec == ⟨1, 0, 0x80, 8⟩) = true := by
  decide

/-- Section 5.4, row (empty), `DST_LEN` = 1. -/
theorem test_code_missing :
    after (step (decoding [] [] 1 ⟨0, 0, 0, 0⟩)) (fun t =>
      t.status == .fault && t.err == .yaz0Malformed && t.errInfo == 1 && t.srcPos == 0 && t.dstPos == 0) = true := by
  decide

/-- A literal at `srcPos` 1 (program 1). -/
theorem test_lit :
    after (step (decoding [0x80, 0x41, 0xE0, 0x00] [] 17 ⟨1, 0, 0x80, 8⟩)) (fun t =>
      t.dec == ⟨2, 1, 0x00, 7⟩ && Memory.read t.dst 0 == 0x41) = true := by decide

/-- Section 5.4, row `80`, `DST_LEN` = 1: the code byte fetched in the same step counts as not consumed. -/
theorem test_lit_missing :
    after (step (decoding [0x80] [] 1 ⟨1, 0, 0x80, 8⟩)) (fun t =>
      t.status == .fault && t.errInfo == 1 && t.srcPos == 0 && t.dstPos == 0) = true := by decide

/-- Program 1: `REF2 dist=0, len=16` copies the byte it has just written. -/
theorem test_ref2_overlap :
    after (step (decoding [0x80, 0x41, 0xE0, 0x00] [0x41] 17 ⟨2, 1, 0x00, 7⟩)) (fun t =>
      t.dec == ⟨4, 17, 0x00, 6⟩ && Memory.readBytes t.dst 0 18 == List.replicate 17 0x41 ++ [0x00]) = true := by
  decide +kernel

/-- Program 3: a reference before the start of the output. -/
theorem test_ref2_underflow :
    after (step (decoding [0xC0, 0x61, 0x62, 0x10, 0x02] [0x61, 0x62] 5 ⟨3, 2, 0x00, 6⟩)) (fun t =>
      t.status == .fault && t.err == .yaz0Malformed && t.errInfo == 3 && t.srcPos == 3 && t.dstPos == 2) = true := by
  decide

/-- Program 2's `REF3 dist=1, len=18`, with only "GH" before it. -/
theorem test_ref3 :
    after (step (decoding [0x00, 0x01, 0x00] [0x47, 0x48] 20 ⟨0, 2, 0x40, 7⟩)) (fun t =>
      t.dec == ⟨3, 20, 0x80, 6⟩ && Memory.readBytes t.dst 16 5 == [0x47, 0x48, 0x47, 0x48, 0x00]) = true := by
  decide +kernel

/-- Program 2 with `DST_LEN` one byte short. -/
theorem test_ref3_overflow :
    after (step (decoding [0x00, 0x01, 0x00] [0x47, 0x48] 19 ⟨0, 2, 0x40, 7⟩)) (fun t =>
      t.status == .fault && t.errInfo == 2 && t.srcPos == 0 && t.dstPos == 2) = true := by decide

/-- R230: the header of a 17-byte input. -/
theorem test_hdr :
    after (exec (.hdr 17) (encoding [] 32 (closedEnc [] 0))) (fun t =>
      Memory.readBytes t.dst 0 17 == [0x59, 0x61, 0x7A, 0x30, 0, 0, 0, 0x11, 0, 0, 0, 0, 0, 0, 0, 0, 0]) = true := by
  decide

/-- R234: no frame fits in 15 bytes. -/
theorem test_hdr_capacity :
    after (exec (.hdr 0) (encoding [] 15 (closedEnc [] 0))) (fun t =>
      t.status == .fault && t.err == .boundsError && t.errInfo == 3) = true := by decide

/-- R250: acceptance clears what an earlier operation reported. -/
theorem test_crc :
    after (step { State.reset with host := [.write .cmd 1], status := .done, cic := 6102, crc1 := 5 }) (fun t =>
      t.status == .busy && t.unit == .crc && t.cic == 0 && t.crc1 == 0) = true := by decide

theorem test_dec :
    after (step { State.reset with host := [.write .cmd 2], dec := ⟨1, 2, 3, 4⟩ }) (fun t =>
      t.status == .busy && t.unit == .dec && t.dec == ⟨0, 0, 0, 0⟩) = true := by decide

/-- R42, R54: a deferral that an earlier operation left is gone. -/
theorem test_enc :
    after (step { State.reset with
        host := [.write .cmd 3],
        enc := { closedEnc [1, 2] 3 with flag := true, stashSize := 5, stashMatch := 6, matchPosition := 7 } }) (fun t =>
      t.status == .busy && t.unit == .enc && !t.enc.flag && t.enc.stashSize == 0 && t.enc.stashMatch == 0 &&
        t.enc.matchPosition == 0 && t.enc.srcPos == 0 && t.enc.encLen == 0) = true := by decide

/-- Program 5: `write CMD = 7`. -/
theorem test_illegal_command :
    after (step { State.reset with host := [.write .cmd 7], status := .done, cic := 6102 }) (fun t =>
      t.status == .fault && t.err == .illegalCommand && t.errInfo == 0 && t.cic == 0) = true := by decide

/-! ## The units' functions -/

/-- Section 3, CIC other than 6105: rotate by 31, carry, the else branch with the new `t6`. -/
theorem test_checksum_steps :
    checksumStep .v6102 0 0x0000001F (Acc.seeded 0xF8CA4DDC) =
        ⟨0x71949BD0, 0x78CA4DD3, 0xF8CA4DC3, 0xF8CA4DDC, 0x78CA4DEB, 0xF8CA4DFB⟩ ∧
      checksumStep .v6101 0 0x80000000 (Acc.seeded 0xF8CA4DDC) =
        ⟨0xF1949BB8, 0x78CA4DDC, 0x78CA4DDC, 0xF8CA4DDD, 0x78CA4DDC, 0x78CA4DDC⟩ ∧
      checksumStep .v6103 0 0xF8CA4DDC (Acc.seeded 0xF8CA4DDC) =
        ⟨0x29670D41, 0xF1949BB8, 0x00000000, 0xF8CA4DDD, 0xC856F2B9, 0xF1949BB8⟩ := by decide

/-- Section 3, CIC 6105 with `e` = 12345678. -/
theorem test_checksum_6105 :
    checksumStep .v6105 0x12345678 3 (Acc.seeded 0xDF26F436) =
      ⟨0xF15B4AB1, 0xDF26F42E, 0xDF26F435, 0xDF26F436, 0xDF26F44E, 0xDF26F439⟩ := by decide

/-- Section 3, "Address of `e`". -/
theorem test_table_offsets :
    tableOffset 0x1000 = 0x750 ∧ tableOffset 0x10FC = 0x84C ∧ tableOffset 0x1100 = 0x750 ∧
      tableOffset 0x100FFC = 0x84C := by decide

/-- Section 4, the rows of 6103 and 6106. -/
theorem test_finalisation :
    let t : Acc := ⟨0x11111111, 0x22222222, 0x33333333, 0x44444444, 0x55555555, 0x66666666⟩
    finalCrc1 .v6103 t = 0x55555555 ∧ finalCrc2 .v6103 t = 0x88888888 ∧ finalCrc1 .v6106 t = 0xE4B17E4B ∧
      finalCrc2 .v6106 t = 0x5B05B05B ∧ finalCrc1 .v6102 t = 0x11111111 ∧ finalCrc2 .v6105 t = 0x66666666 := by decide

/-- Section 2. -/
theorem test_crc32 :
    crc32 [0x31, 0x32, 0x33, 0x34, 0x35, 0x36, 0x37, 0x38, 0x39] = 0xCBF43926 ∧ crc32 [] = 0 := by decide +kernel

/-- Section 5.2: the tie "abcXabcYabc" goes to the lowest start; "aaaaa" at 3 has a limit of 2. -/
theorem test_search :
    search (Memory.writeBytes [] 0 [0x61, 0x62, 0x63, 0x58, 0x61, 0x62, 0x63, 0x59, 0x61, 0x62, 0x63]) 11 8 = ⟨3, 0⟩ ∧
      search (Memory.writeBytes [] 0 [0x61, 0x61, 0x61, 0x61, 0x61]) 5 3 = ⟨0, 0⟩ ∧
      search (Memory.writeBytes [] 0 [0x61, 0x61, 0x61, 0x61, 0x61]) 5 2 = ⟨3, 0⟩ := by decide +kernel

/-- Section 5.3: "AAAA" is encoded as `80 41 10 00`. -/
theorem test_encoder :
    after (run 3 { encoding [0x41, 0x41, 0x41, 0x41] 48 EncRegs.reset with status := .busy }) (fun t =>
      t.enc == closedEnc [0x80, 0x41, 0x10, 0x00] 4) = true := by decide +kernel

/-! ## A table word placed where the step fetches -/

theorem test_fetch_words :
    after (step (State.reset.withFetchWord 8 0xA0)) (fun t => t.dec == ⟨1, 0, 0xA0, 8⟩) = true ∧
      after (step (State.reset.withFetchWord 16 0xE000)) (fun t => t.err == .yaz0Malformed && t.errInfo == 3) = true ∧
      after (step (State.reset.withFetchWord 24 0x000100)) (fun t => t.err == .yaz0Malformed && t.errInfo == 3) = true ∧
      after (step (State.reset.withFetchWord 32 2)) (fun t => t.status == .busy && t.unit == .dec) = true ∧
      after (step (State.reset.withFetchWord 128 0x59617A30000000110000000000000000)) (fun t =>
        t.enc.phase == .body && Memory.read t.dst 7 == 0x11) = true := by decide

/-! ## CRC-32 of a boot block -/

/-- Section 6: the boot CRC of Z-ROM(6102). -/
theorem test_boot_crc_6102 : bootCrcOf (zRom tail6102) = 0x90BB6CB5 :=
  bootCrcOf_eq (k := 0x6F44934A) (by decide +kernel)

/-- Section 2: the boot CRC of an all-zero boot block. -/
theorem test_boot_crc_zero : bootCrcOf [] = 0xE8B8467D := bootCrcOf_eq (k := 0x1747B982) (by decide +kernel)

end Sys2Proof.Tests
end

