-- ==== Sys2Proof/Tests/Witnesses.lean ====
section
/-! SUPPORT. The hypotheses of every statement can be met: one theorem a statement, or one a clause, at a boundary value of
each range. Not listed: the statements without hypotheses (WorkedEncodings, FaultEntry, FrameLength, Crc32TableForm,
Finalisation, ResetState, ResetMeetsInvariants). -/

namespace Sys2Proof.Tests

open Sys2Proof.Machine

theorem wit_DecodeOfEncode : (Instr.ref2 1 0).wf = true ∧ (Instr.ref2 15 0xFFF).wf = true := by decide

theorem wit_EncodeOfDecode : decode (.token false) [0x10, 0x00, 0x55] = .ok (.ref2 1 0, [0x55]) := rfl

theorem wit_TokenKinds : (0x10 : Byte).extractLsb' 4 4 ≠ 0 ∧ (0x0F : Byte).extractLsb' 4 4 = 0 := by decide

theorem wit_DistanceAssembly : ∃ dist : Nat, dist = 0xFFF ∧ dist ≤ 0xFFF := ⟨0xFFF, rfl, by decide⟩

theorem wit_OneFormPerLength_lengths :
    (Instr.ref2 1 0).wf = true ∧ lenOfRef2 1 = 3 ∧ lenOfRef2 15 = 0x11 ∧ lenOfRef3 0 = 0x12 ∧ lenOfRef3 0xFF = 0x111 := by
  decide

theorem wit_OneFormPerLength_unique :
    ∃ len dist : Nat, 3 ≤ len ∧ len ≤ 0x111 ∧ dist ≤ 0xFFF ∧ (Instr.ref3 0xFFF 0xFF).wf = true ∧
      backRefFields (.ref3 0xFFF 0xFF) = some (len, dist) := ⟨0x111, 0xFFF, by decide⟩

theorem wit_StepRunsDecoded_token :
    ∃ (s : State) (i : Instr), s.Decoding ∧ fetchToken s = .ok i :=
  ⟨decoding [0x80] [] 1 ⟨0, 0, 0, 0⟩, .code 0x80, ⟨rfl, rfl, rfl, by decide⟩, rfl⟩

theorem wit_StepRunsDecoded_command :
    ∃ (s : State) (v : Word) (i : Instr) (rest : List HostAction), s.status ≠ .busy ∧
      s.host = .write .cmd v :: rest ∧ decodeCommand v = .ok i :=
  ⟨{ State.reset with host := [.write .cmd 3] }, 3, .enc, [], by decide, rfl, rfl⟩

theorem wit_StepRunsDecoded_header :
    ∃ s : State, s.host = [] ∧ s.status = .busy ∧ s.unit = .enc ∧ s.enc.phase = .header :=
  ⟨encoding [] 32 (closedEnc [] 0), rfl, rfl, rfl, rfl⟩

theorem wit_StepRunsDecoded_block :
    (∃ s : State, s.host = []) ∧ ∃ (s : State) (rest : List HostAction), s.host = .tick :: rest :=
  ⟨⟨State.reset, rfl⟩, { State.reset with host := [.tick] }, [], rfl⟩

theorem wit_StepRunsDecoded_poll :
    (∃ (s : State) (rest : List HostAction), s.host = .poll :: rest ∧ s.status = .busy) ∧
      (∃ (s : State) (rest : List HostAction), s.host = .poll :: rest ∧ s.status = .idle) ∧
      (∃ (s : State) (rest : List HostAction), s.host = .poll :: rest ∧ s.status = .done) ∧
      ∃ (s : State) (rest : List HostAction), s.host = .poll :: rest ∧ s.status = .fault :=
  ⟨⟨{ decoding [0x80] [] 1 ⟨0, 0, 0, 0⟩ with host := [.poll, .tick] }, [.tick], rfl, rfl⟩,
    ⟨{ State.reset with host := [.poll] }, [], rfl, rfl⟩,
    ⟨{ State.reset with host := [.poll], status := .done }, [], rfl, rfl⟩,
    { State.reset with host := [.poll], status := .fault }, [], rfl, rfl⟩

theorem wit_WaitsForCommand : State.reset.host = [] ∧ State.reset.status ≠ .busy := by decide

theorem wit_AcceptCrc : ∃ s : State, s.status ≠ .busy := ⟨State.reset, by decide⟩
theorem wit_AcceptDec : ∃ s : State, s.status ≠ .busy := ⟨{ State.reset with status := .fault }, by decide⟩
theorem wit_AcceptEnc : ∃ s : State, s.status ≠ .busy := ⟨{ State.reset with status := .done }, by decide⟩

theorem wit_IllegalCommandFaults :
    ∃ (s : State) (v : Word) (rest : List HostAction), s.status ≠ .busy ∧ s.host = .write .cmd v :: rest ∧
      v ≠ 1 ∧ v ≠ 2 ∧ v ≠ 3 :=
  ⟨{ State.reset with host := [.write .cmd 4] }, 4, [], by decide, rfl, by decide⟩

theorem wit_RegisterAccessWhileBusy_write :
    ∃ (s : State) (r : Reg) (v : Word) (rest : List HostAction), s.status = .busy ∧ s.host = .write r v :: rest :=
  ⟨{ decoding [] [] 1 ⟨0, 0, 0, 0⟩ with host := [.write .cmd 1] }, .cmd, 1, [], rfl, rfl⟩

theorem wit_RegisterAccessWhileBusy_read :
    (∃ (s : State) (rest : List HostAction), s.status = .busy ∧ s.host = .read .status :: rest) ∧
      ∃ (s : State) (r : Reg) (rest : List HostAction), s.status = .busy ∧ s.host = .read r :: rest :=
  ⟨⟨{ decoding [] [] 1 ⟨0, 0, 0, 0⟩ with host := [.read .status] }, [], rfl, rfl⟩,
    { decoding [] [] 1 ⟨0, 0, 0, 0⟩ with host := [.read .outLen] }, .outLen, [], rfl, rfl⟩

theorem wit_RegisterAccessWhileBusy_ready :
    (∃ (s : State) (r : Reg) (rest : List HostAction), s.status ≠ .busy ∧ s.host = .read r :: rest) ∧
      (∃ (s : State) (v : Word) (rest : List HostAction), s.status ≠ .busy ∧ s.host = .write .srcLen v :: rest) ∧
      ∃ (s : State) (v : Word) (rest : List HostAction), s.status ≠ .busy ∧ s.host = .write .cmd v :: rest :=
  ⟨⟨{ State.reset with host := [.read .crc2] }, .crc2, [], by decide, rfl⟩,
    ⟨{ State.reset with host := [.write .srcLen 0xFFFFFFFF] }, 0xFFFFFFFF, [], by decide, rfl⟩,
    { State.reset with host := [.write .cmd 7] }, 7, [], by decide, rfl⟩

theorem wit_ReadOnlyRegisters :
    ∃ (s : State) (v : Word) (rest : List HostAction), s.host = .write .status v :: rest :=
  ⟨{ State.reset with host := [.write .status 3] }, 3, [], rfl⟩

theorem wit_HostSpaceAccess_inUse :
    (∃ (s : State) (sp : Space) (a : Nat) (v : Byte) (rest : List HostAction), s.CommandUses sp ∧ a < 2 ^ 32 ∧
        s.host = .poke sp a v :: rest) ∧
      (∃ (s : State) (sp : Space) (a : Nat) (rest : List HostAction), s.CommandUses sp ∧ a < 2 ^ 32 ∧
        s.host = .peek sp a :: rest) ∧
      ∃ (s : State) (sp : Space) (bytes : List Byte) (rest : List HostAction), s.CommandUses sp ∧
        bytes.length ≤ 2 ^ 32 ∧ s.host = .bind sp bytes :: rest :=
  ⟨⟨{ decoding [] [] 1 ⟨0, 0, 0, 0⟩ with host := [.poke .dst 0xFFFFFFFF 1] }, .dst, 0xFFFFFFFF, 1, [],
      ⟨rfl, by decide⟩, by decide, rfl⟩,
    ⟨{ State.reset with status := .busy, unit := .crc, host := [.peek .rom 0] }, .rom, 0, [], ⟨rfl, by decide⟩, by decide,
      rfl⟩,
    { encoding [] 1 EncRegs.reset with host := [.bind .src [1]] }, .src, [1], [], ⟨rfl, by decide⟩, by decide, rfl⟩

theorem wit_HostSpaceAccess_beyond :
    (∃ (s : State) (sp : Space) (a : Nat) (rest : List HostAction), 2 ^ 32 ≤ a ∧ s.host = .peek sp a :: rest) ∧
      ∃ (s : State) (sp : Space) (bytes : List Byte) (rest : List HostAction), 2 ^ 32 < bytes.length ∧
        s.host = .bind sp bytes :: rest :=
  ⟨⟨{ State.reset with host := [.peek .rom (2 ^ 32)] }, .rom, 2 ^ 32, [], Nat.le_refl _, rfl⟩,
    { State.reset with host := [.bind .src (List.replicate (2 ^ 32 + 1) 0)] }, .src, List.replicate (2 ^ 32 + 1) 0, [],
    by rw [List.length_replicate]; exact Nat.lt_succ_self _, rfl⟩

theorem wit_HostSpaceAccess_ready :
    (∃ (s : State) (sp : Space) (a : Nat) (v : Byte) (rest : List HostAction), ¬ s.CommandUses sp ∧ a < 2 ^ 32 ∧
        s.host = .poke sp a v :: rest) ∧
      (∃ (s : State) (sp : Space) (a : Nat) (rest : List HostAction), ¬ s.CommandUses sp ∧ a < 2 ^ 32 ∧
        s.host = .peek sp a :: rest) ∧
      ∃ (s : State) (sp : Space) (bytes : List Byte) (rest : List HostAction), ¬ s.CommandUses sp ∧
        bytes.length ≤ 2 ^ 32 ∧ s.host = .bind sp bytes :: rest :=
  ⟨⟨{ State.reset with host := [.poke .src 0xFFFFFFFF 1] }, .src, 0xFFFFFFFF, 1, [], fun h => (nomatch h.1), by decide, rfl⟩,
    ⟨{ State.reset with host := [.peek .dst 0xFFFFFFFF] }, .dst, 0xFFFFFFFF, [], fun h => (nomatch h.1), by decide, rfl⟩,
    { State.reset with host := [.bind .rom []] }, .rom, [], [], fun h => (nomatch h.1), by decide, rfl⟩

/-- The space the running command does not use (R75). -/
theorem wit_HostSpaceAccess_busy :
    (∃ (s : State) (a : Nat) (v : Byte) (rest : List HostAction), s.status = .busy ∧ ¬ s.CommandUses .rom ∧ a < 2 ^ 32 ∧
        s.host = .poke .rom a v :: rest) ∧
      (∃ (s : State) (a : Nat) (rest : List HostAction), s.status = .busy ∧ ¬ s.CommandUses .src ∧ a < 2 ^ 32 ∧
        s.host = .peek .src a :: rest) ∧
      ∃ (s : State) (bytes : List Byte) (rest : List HostAction), s.status = .busy ∧ ¬ s.CommandUses .dst ∧
        bytes.length ≤ 2 ^ 32 ∧ s.host = .bind .dst bytes :: rest :=
  ⟨⟨{ decoding [] [] 1 ⟨0, 0, 0, 0⟩ with host := [.poke .rom 0 1] }, 0, 1, [], rfl, fun h => absurd (h.2.1 rfl) (by decide),
      by decide, rfl⟩,
    ⟨{ State.reset with status := .busy, unit := .crc, host := [.peek .src 0] }, 0, [], rfl,
      fun h => absurd (h.2.2 rfl) (by decide), by decide, rfl⟩,
    { State.reset with status := .busy, unit := .crc, host := [.bind .dst [1, 2]] }, [1, 2], [], rfl,
    fun h => absurd (h.2.2 rfl) (by decide), by decide, rfl⟩

theorem wit_CodeRuns : ∃ s : State, s.dec.srcPos < s.srcLen.toNat :=
  ⟨decoding [0x80] [] 1 ⟨0, 0, 0, 0⟩, by decide⟩

theorem wit_GroupFetchStep_there :
    ∃ s : State, s.Decoding ∧ s.dec.bitCount = 0 ∧ s.dec.srcPos < s.srcLen.toNat :=
  ⟨decoding [0x80] [] 1 ⟨0, 0, 0, 0⟩, ⟨rfl, rfl, rfl, by decide⟩, rfl, by decide⟩

theorem wit_GroupFetchStep_missing :
    ∃ s : State, s.Decoding ∧ s.dec.bitCount = 0 ∧ s.srcLen.toNat ≤ s.dec.srcPos :=
  ⟨decoding [0x80] [] 1 ⟨1, 0, 0, 0⟩, ⟨rfl, rfl, rfl, by decide⟩, rfl, by decide⟩

theorem wit_LitRuns : ∃ s : State, s.dec.srcPos < s.srcLen.toNat ∧ s.dec.dstPos < s.dstLen.toNat :=
  ⟨decoding [0x80, 0x41] [] 1 ⟨1, 0, 0x80, 8⟩, by decide⟩

theorem wit_LiteralStep_there :
    ∃ s : State, s.Decoding ∧ s.dec.bitCount ≠ 0 ∧ s.dec.cb.getLsbD 7 = true ∧ s.dec.dstPos < s.dstLen.toNat ∧
      s.dec.srcPos < s.srcLen.toNat :=
  ⟨decoding [0x80, 0x41] [] 1 ⟨1, 0, 0x80, 8⟩, ⟨rfl, rfl, rfl, by decide⟩, by decide⟩

theorem wit_LiteralStep_missing :
    ∃ s : State, s.Decoding ∧ s.dec.bitCount ≠ 0 ∧ s.dec.cb.getLsbD 7 = true ∧ s.dec.dstPos < s.dstLen.toNat ∧
      s.srcLen.toNat ≤ s.dec.srcPos :=
  ⟨decoding [0x80] [] 1 ⟨1, 0, 0x80, 8⟩, ⟨rfl, rfl, rfl, by decide⟩, by decide⟩

theorem wit_BackReferenceRuns :
    ∃ (i : Instr) (len dist size : Nat) (s : State), backRefFields i = some (len, dist) ∧ size = i.lengthBytes ∧
      s.dec.srcPos + size ≤ s.srcLen.toNat ∧ dist + 1 ≤ s.dec.dstPos ∧ s.dec.dstPos + len ≤ s.dstLen.toNat :=
  ⟨.ref2 14 0, 16, 0, 2, decoding [0x80, 0x41, 0xE0, 0x00] [0x41] 17 ⟨2, 1, 0x00, 7⟩, rfl, rfl, by decide⟩

theorem wit_BackReferenceFaults_exhausted :
    ∃ (i : Instr) (len dist : Nat) (s : State), backRefFields i = some (len, dist) ∧
      s.srcLen.toNat < s.dec.srcPos + i.lengthBytes :=
  ⟨.ref3 0 0, 18, 0, decoding [0x00, 0x00, 0x00] [] 1 ⟨1, 0, 0x00, 8⟩, rfl, by decide⟩

theorem wit_BackReferenceFaults_underflow :
    ∃ (i : Instr) (len dist : Nat) (s : State), backRefFields i = some (len, dist) ∧
      s.dec.srcPos + i.lengthBytes ≤ s.srcLen.toNat ∧ s.dec.dstPos < dist + 1 :=
  ⟨.ref2 1 1, 3, 1, decoding [0x80, 0x41, 0x10, 0x01] [0x41] 4 ⟨2, 1, 0x00, 7⟩, rfl, by decide⟩

theorem wit_BackReferenceFaults_overflow :
    ∃ (i : Instr) (len dist : Nat) (s : State), backRefFields i = some (len, dist) ∧
      s.dec.srcPos + i.lengthBytes ≤ s.srcLen.toNat ∧ dist + 1 ≤ s.dec.dstPos ∧ s.dstLen.toNat < s.dec.dstPos + len :=
  ⟨.ref2 14 0, 16, 0, decoding [0x80, 0x41, 0xE0, 0x00] [0x41] 16 ⟨2, 1, 0x00, 7⟩, rfl, by decide⟩

theorem wit_BackReferenceStep_ref2 :
    ∃ s : State, s.Decoding ∧ s.dec.bitCount ≠ 0 ∧ s.dec.cb.getLsbD 7 = false ∧ s.dec.srcPos + 2 ≤ s.srcLen.toNat ∧
      (Memory.read s.src s.dec.srcPos).extractLsb' 4 4 ≠ 0 :=
  ⟨decoding [0x80, 0x41, 0x10, 0x00] [0x41] 4 ⟨2, 1, 0x00, 7⟩, ⟨rfl, rfl, rfl, by decide⟩, by decide⟩

theorem wit_BackReferenceStep_ref3 :
    ∃ s : State, s.Decoding ∧ s.dec.bitCount ≠ 0 ∧ s.dec.cb.getLsbD 7 = false ∧ s.dec.srcPos + 3 ≤ s.srcLen.toNat ∧
      (Memory.read s.src s.dec.srcPos).extractLsb' 4 4 = 0 :=
  ⟨decoding [0x80, 0x41, 0x0F, 0xFF, 0xFF] [0x41] 4 ⟨2, 1, 0x00, 7⟩, ⟨rfl, rfl, rfl, by decide⟩, by decide⟩

theorem wit_BackReferenceStep_one_byte :
    ∃ s : State, s.Decoding ∧ s.dec.bitCount ≠ 0 ∧ s.dec.cb.getLsbD 7 = false ∧ s.srcLen.toNat < s.dec.srcPos + 2 :=
  ⟨decoding [0x00, 0x10] [] 3 ⟨1, 0, 0x00, 8⟩, ⟨rfl, rfl, rfl, by decide⟩, by decide⟩

theorem wit_BackReferenceStep_two_bytes :
    ∃ s : State, s.Decoding ∧ s.dec.bitCount ≠ 0 ∧ s.dec.cb.getLsbD 7 = false ∧ s.srcLen.toNat < s.dec.srcPos + 3 ∧
      (Memory.read s.src s.dec.srcPos).extractLsb' 4 4 = 0 :=
  ⟨decoding [0x00, 0x00, 0x00] [] 1 ⟨1, 0, 0x00, 8⟩, ⟨rfl, rfl, rfl, by decide⟩, by decide⟩

theorem wit_DecoderCompletes :
    ∃ s : State, s.host = [] ∧ s.status = .busy ∧ s.unit = .dec ∧ s.dec.dstPos = s.dstLen.toNat :=
  ⟨decoding [0x80, 0x41] [0x41] 1 ⟨2, 1, 0x00, 7⟩, rfl, rfl, rfl, by decide⟩

theorem wit_DecoderInvariant : ∃ s t : State, s.DecOk ∧ s.status = .busy ∧ s.unit = .dec ∧ step s = .next t :=
  ⟨decoding [0x80, 0x41, 0xE0, 0x00] [0x41] 17 ⟨2, 1, 0x00, 7⟩, _, fun _ _ => by decide, rfl, rfl, rfl⟩

/-- Other bytes and another `SRC_LEN` beyond the new `srcPos`, and other bytes of `DST` beyond `dstPos`. -/
theorem wit_DecoderOutputDependsOnInput_goesOn :
    ∃ s s' t t' : State, s.Decoding ∧ s'.Decoding ∧ s.dec = s'.dec ∧ AgreeOn s.dst s'.dst 0 s.dec.dstPos ∧
      step s = .next t ∧ step s' = .next t' ∧ t.status = .busy ∧ t'.status = .busy ∧
      AgreeOn s.src s'.src 0 t.dec.srcPos ∧ s.src ≠ s'.src ∧ s.srcLen ≠ s'.srcLen ∧ s.dst ≠ s'.dst :=
  ⟨decoding [0x80, 0x41, 0xE0] [] 17 ⟨1, 0, 0x80, 8⟩, decoding [0x80, 0x41, 0xF1, 0x02] [0x99] 9 ⟨1, 0, 0x80, 8⟩, _, _,
    ⟨rfl, rfl, rfl, by decide⟩, ⟨rfl, rfl, rfl, by decide⟩, rfl, fun _ _ h => absurd h (Nat.not_lt_zero _), rfl, rfl, rfl,
    rfl,
    fun x _ h => by
      have h2 : x < 2 := h
      obtain rfl | rfl : x = 0 ∨ x = 1 := by omega
      · rfl
      · rfl,
    by decide, by decide, by decide⟩

theorem wit_DecoderOutputDependsOnInput_runs :
    ∃ (u u' s s' t t' : State) (n : Nat), u.host = [] ∧ u.status ≠ .busy ∧ u'.host = [] ∧ u'.status ≠ .busy ∧
      exec .dec u = .next s ∧ exec .dec u' = .next s' ∧ run n s = .next t ∧ run n s' = .next t' ∧ t.status = .busy ∧
      t'.status = .busy ∧ AgreeOn u.src u'.src 0 t.dec.srcPos ∧ 0 < t.dec.dstPos ∧ u.src ≠ u'.src :=
  ⟨withInput [0x80, 0x41, 0xE0] 17, withInput [0x80, 0x41, 0xF1, 0x02] 9, _, _, _, _, 2, rfl, by decide, rfl, by decide, rfl,
    rfl, rfl, rfl, rfl, rfl,
    fun x _ h => by
      have h2 : x < 2 := h
      obtain rfl | rfl : x = 0 ∨ x = 1 := by omega
      · rfl
      · rfl,
    by decide, by decide⟩

theorem wit_DecoderOutputDependsOnInput :
    ∃ s s' t t' : State, s.Decoding ∧ s'.Decoding ∧ s.dec = s'.dec ∧ s.srcLen = s'.srcLen ∧ s.dstLen = s'.dstLen ∧
      AgreeOn s.src s'.src 0 s.srcLen.toNat ∧ AgreeOn s.dst s'.dst 0 s.dec.dstPos ∧ s.dst ≠ s'.dst ∧
      step s = .next t ∧ step s' = .next t' :=
  ⟨decoding [0x80, 0x41, 0xE0, 0x00] [0x41] 17 ⟨2, 1, 0x00, 7⟩,
    decoding [0x80, 0x41, 0xE0, 0x00] [0x41, 0x99] 17 ⟨2, 1, 0x00, 7⟩, _, _, ⟨rfl, rfl, rfl, by decide⟩,
    ⟨rfl, rfl, rfl, by decide⟩, rfl, rfl, rfl, fun _ _ _ => rfl,
    fun x _ h => by obtain rfl : x = 0 := Nat.lt_one_iff.mp h
                    rfl,
    by decide, rfl, rfl⟩

theorem wit_SearchFindsLongest_limit : compareLimit 5 3 < 3 ∧ 3 ≤ compareLimit 5 2 := by decide

theorem wit_SearchFindsLongest_match :
    ∃ (m : Memory) (srcSize pos : Nat) (q : Match), 3 ≤ compareLimit srcSize pos ∧
      0 < (search m srcSize pos).length ∧ MatchAt m srcSize pos q ∧ q.length = (search m srcSize pos).length ∧
      0 < q.length :=
  ⟨Memory.writeBytes [] 0 [0x61, 0x61, 0x61, 0x61, 0x61], 5, 2, ⟨3, 1⟩, by decide, by decide +kernel,
    ⟨by decide, by decide, by decide, by decide⟩, by decide +kernel, by decide⟩

theorem wit_SearchFindsLongest_none :
    ∃ (m : Memory) (srcSize pos : Nat), 3 ≤ compareLimit srcSize pos ∧ (search m srcSize pos).length = 0 :=
  ⟨[], 3, 0, by decide, by decide⟩

/-- "abc_bcdefg_abcdefg" (section 7, program 4): a deferral at 11; at 8 nothing to defer. -/
def lazyInput : Memory :=
  Memory.writeBytes [] 0
    [0x61, 0x62, 0x63, 0x5F, 0x62, 0x63, 0x64, 0x65, 0x66, 0x67, 0x5F, 0x61, 0x62, 0x63, 0x64, 0x65, 0x66, 0x67]

theorem wit_LazyRule_deferred : ∃ r : EncRegs, r.flag = true := ⟨{ EncRegs.reset with flag := true }, rfl⟩

theorem wit_LazyRule_gain :
    ∃ r : EncRegs, r.flag = false ∧ 3 ≤ (search lazyInput 18 r.srcPos).length ∧
      (search lazyInput 18 r.srcPos).length + 2 ≤ (search lazyInput 18 (r.srcPos + 1)).length :=
  ⟨{ EncRegs.reset with srcPos := 11 }, rfl, by decide +kernel, by decide +kernel⟩

theorem wit_LazyRule_plain :
    ∃ r : EncRegs, r.flag = false ∧ ((search lazyInput 18 r.srcPos).length < 3 ∨
      (search lazyInput 18 (r.srcPos + 1)).length < (search lazyInput 18 r.srcPos).length + 2) :=
  ⟨{ EncRegs.reset with srcPos := 8 }, rfl, by decide +kernel⟩

/-- The state of an encoder that has consumed "A" of "AAAA". -/
def oneToken : EncRegs := { EncRegs.reset with srcPos := 1, code := 0x80, cnt := 1, grp := [0x41] }

theorem wit_EncoderInvariant :
    ∃ s t : State, s.EncOk ∧ s.status = .busy ∧ s.unit = .enc ∧ step s = .next t :=
  ⟨encoding [0x41, 0x41, 0x41, 0x41] 48 oneToken, _,
    fun _ _ => ⟨by decide, by decide, by decide, by decide, fun h => (nomatch h), fun h => absurd rfl h⟩, rfl, rfl, rfl⟩

/-- A literal that joins the group; and the back-reference of 3 that does. -/
theorem wit_EmittedTokenIsRight :
    (∃ (s : State) (len : Nat) (r : EncRegs), s.host = [] ∧ s.status = .busy ∧ s.unit = .enc ∧ s.enc.phase = .tokens ∧
        s.EncOk ∧ s.enc.srcPos < s.srcLen.toNat ∧ findBest s.src s.srcLen.toNat s.enc = (len, r) ∧ len < 3) ∧
      ∃ (s : State) (len : Nat) (r : EncRegs), s.host = [] ∧ s.status = .busy ∧ s.unit = .enc ∧ s.enc.phase = .tokens ∧
        s.EncOk ∧ s.enc.srcPos < s.srcLen.toNat ∧ findBest s.src s.srcLen.toNat s.enc = (len, r) ∧ 3 ≤ len :=
  ⟨⟨encoding [0x41] 48 EncRegs.reset, _, _, rfl, rfl, rfl, rfl,
      fun _ _ => ⟨by decide, by decide, by decide, by decide, fun h => (nomatch h), fun h => absurd rfl h⟩, by decide, rfl,
      by decide +kernel⟩,
    encoding [0x41, 0x41, 0x41, 0x41] 48 oneToken, _, _, rfl, rfl, rfl, rfl,
    fun _ _ => ⟨by decide, by decide, by decide, by decide, fun h => (nomatch h), fun h => absurd rfl h⟩, by decide, rfl,
    by decide +kernel⟩

/-- The state of an encoder that has consumed seven of "ABCDEFGH". -/
def sevenTokens : EncRegs :=
  { EncRegs.reset with srcPos := 7, code := 0xFE, cnt := 7, grp := [0x41, 0x42, 0x43, 0x44, 0x45, 0x46, 0x47] }

/-- "ABCDEFGH". -/
def eightBytes : List Byte := [0x41, 0x42, 0x43, 0x44, 0x45, 0x46, 0x47, 0x48]

theorem wit_EmittedTokenIsRight_eighth :
    ∃ (s : State) (len : Nat) (r : EncRegs), s.host = [] ∧ s.status = .busy ∧ s.unit = .enc ∧ s.enc.phase = .tokens ∧
      s.EncOk ∧ s.enc.srcPos < s.srcLen.toNat ∧ findBest s.src s.srcLen.toNat s.enc = (len, r) ∧ s.enc.cnt + 1 = 8 :=
  ⟨encoding eightBytes 48 sevenTokens, _, _, rfl, rfl, rfl, rfl,
    fun _ _ => ⟨by decide, by decide, by decide, by decide, fun h => (nomatch h), fun h => absurd rfl h⟩, by decide, rfl,
    by decide⟩

theorem wit_GroupsAreClosed_token :
    (∃ s : State, s.host = [] ∧ s.status = .busy ∧ s.unit = .enc ∧ s.enc.phase = .tokens ∧
        s.enc.srcPos < s.srcLen.toNat ∧ s.enc.cnt = 7) ∧
      ∃ s : State, s.host = [] ∧ s.status = .busy ∧ s.unit = .enc ∧ s.enc.phase = .tokens ∧
        s.enc.srcPos < s.srcLen.toNat ∧ s.enc.cnt ≠ 7 :=
  ⟨⟨encoding eightBytes 48 sevenTokens, rfl, rfl, rfl, rfl, by decide, by decide⟩,
    encoding [0x41, 0x41, 0x41, 0x41] 48 oneToken, rfl, rfl, rfl, rfl, by decide, by decide⟩

theorem wit_GroupsAreClosed_end :
    (∃ s : State, s.host = [] ∧ s.status = .busy ∧ s.unit = .enc ∧ s.enc.phase = .tokens ∧
        s.srcLen.toNat ≤ s.enc.srcPos ∧ 0 < s.enc.cnt) ∧
      ∃ s : State, s.host = [] ∧ s.status = .busy ∧ s.unit = .enc ∧ s.enc.phase = .tokens ∧
        s.srcLen.toNat ≤ s.enc.srcPos ∧ s.enc.cnt = 0 :=
  ⟨⟨encoding [0x41] 48 oneToken, rfl, rfl, rfl, rfl, by decide, by decide⟩,
    encoding [] 48 EncRegs.reset, rfl, rfl, rfl, rfl, by decide, by decide⟩

theorem wit_HdrRuns : ∃ s : State, 16 ≤ s.dstLen.toNat := ⟨encoding [] 16 (closedEnc [] 0), by decide⟩

theorem wit_FrameIsWritten_capacity :
    ∃ s : State, s.host = [] ∧ s.status = .busy ∧ s.unit = .enc ∧ s.enc.phase = .header ∧
      s.dstLen.toNat < frameLen encTailBase s.enc.encLen := by
  refine ⟨encoding [0x41] 31 (closedEnc [0x80, 0x41] 1), rfl, rfl, rfl, rfl, ?_⟩
  rcases encTailBase_cases with h | h <;> rw [h] <;> decide

theorem wit_FrameIsWritten_fits :
    ∃ s : State, s.host = [] ∧ s.status = .busy ∧ s.unit = .enc ∧ s.enc.phase = .header ∧
      frameLen encTailBase s.enc.encLen ≤ s.dstLen.toNat := by
  refine ⟨encoding [0x41] 48 (closedEnc [0x80, 0x41] 1), rfl, rfl, rfl, rfl, ?_⟩
  rcases encTailBase_cases with h | h <;> rw [h] <;> decide

theorem wit_StreamSizeBound :
    ∃ (s s1 t : State) (n : Nat), s.host = [] ∧ s.status ≠ .busy ∧ exec .enc s = .next s1 ∧ run n s1 = .next t :=
  ⟨withInput [0x41, 0x42] 48, _, _, 2, rfl, by decide, rfl, rfl⟩

/-- An `ENC` of "A": the state in which the frame is placed. -/
def frameState : State :=
  { encoding [0x41] 48 { closedEnc [0x80, 0x41] 1 with phase := .body } with
    dst := Memory.writeBytes [] 0 (encode (.hdr 1)) }

theorem frameState_reached :
    ∃ s1, exec .enc (withInput [0x41] 48) = .next s1 ∧ run 4 s1 = .next (encBody encTailBase frameState) :=
  ⟨_, rfl, rfl⟩

theorem frame_done :
    (encBody encTailBase frameState).status = .done ∧ (encBody encTailBase frameState).dstPos = 18 ∧
      Memory.read (encBody encTailBase frameState).dst 16 = 0x80 ∧
      Memory.read (encBody encTailBase frameState).dst 17 = 0x41 := by
  rcases encTailBase_cases with h | h <;> rw [h] <;> decide +kernel

theorem wit_RoundTrip :
    ∃ (s s1 t u u1 : State) (n : Nat), s.host = [] ∧ s.status ≠ .busy ∧ exec .enc s = .next s1 ∧ run n s1 = .next t ∧
      t.status = .done ∧ u.host = [] ∧ u.status ≠ .busy ∧ u.dstLen = s.srcLen ∧ t.dstPos.toNat - 16 ≤ u.srcLen.toNat ∧
      (∀ j, j < t.dstPos.toNat - 16 → Memory.read u.src j = Memory.read t.dst (16 + j)) ∧ exec .dec u = .next u1 := by
  obtain ⟨s1, h1, h2⟩ := frameState_reached
  obtain ⟨h3, h4, h5, h6⟩ := frame_done
  refine ⟨_, s1, _, withInput [0x80, 0x41] 1, _, 4, rfl, by decide, h1, h2, h3, rfl, by decide, rfl, ?_, ?_, rfl⟩
  · rw [h4]; decide
  · intro j hj
    rw [h4] at hj
    have hj2 : j < 2 := hj
    obtain rfl | rfl : j = 0 ∨ j = 1 := by omega
    · rw [h5]; rfl
    · rw [h6]; rfl

theorem wit_DecodeFrameOfEncode :
    ∃ (s s1 t u : State) (n : Nat), s.host = [] ∧ s.status ≠ .busy ∧ exec .enc s = .next s1 ∧ run n s1 = .next t ∧
      t.status = .done ∧ u.status ≠ .busy ∧
      u.host = decodeFrameScript (Memory.readBytes t.dst 0 t.outLen.toNat) := by
  obtain ⟨s1, h1, h2⟩ := frameState_reached
  exact ⟨_, s1, _, { State.reset with host := _ }, 4, rfl, by decide, h1, h2, frame_done.1, by decide, rfl⟩

theorem wit_CarryCount :
    (∃ t : Acc, t.t6 = 0xFFFFFFFF) ∧ (∃ (t : Acc) (d : Word), 2 ^ 32 ≤ t.t6.toNat + d.toNat) ∧
      ∃ (t : Acc) (d : Word), ¬ 2 ^ 32 ≤ t.t6.toNat + d.toNat :=
  ⟨⟨Acc.seeded 0xFFFFFFFF, rfl⟩, ⟨Acc.seeded 0xFFFFFFFF, 1, by decide⟩, Acc.seeded 0xFFFFFFFE, 1, by decide⟩

theorem wit_RotatedWord :
    (∃ (d : Word) (k : Nat), k < 32 ∧ d &&& 0x1F ≠ 0) ∧ ∃ d : Word, d ≠ 0 ∧ d &&& 0x1F = 0 :=
  ⟨⟨0x8000001F, 31, by decide⟩, 0x20, by decide⟩

theorem wit_MixingUpdates :
    (∃ (d : Word) (t : Acc), d < t.t2) ∧ ∃ (d : Word) (t : Acc), ¬ d < t.t2 :=
  ⟨⟨4, Acc.seeded 5, by decide⟩, 5, Acc.seeded 5, by decide⟩

theorem wit_ChecksumWordStep :
    ∃ (s : State) (d : Word), s.host = [] ∧ s.status = .busy ∧ s.unit = .crc ∧ s.crcU.phase = .region ∧
      s.crcU.i < 0x101000 ∧ d = Memory.read32 s.rom s.crcU.i :=
  ⟨{ withRom (zRom tail6102) 0x101000 with
      status := .busy, unit := .crc, crcU := { CrcRegs.reset with phase := .region, cic := .v6105, i := 0x100FFC } },
    _, rfl, rfl, rfl, rfl, by decide, rfl⟩

theorem wit_ZeroRegion :
    ∃ (v : CicVersion) (rom : Memory) (w : Nat), v ≠ .v6105 ∧ w ≤ ckWords ∧
      ∀ a, ckOff ≤ a → a < ckOff + ckLen → Memory.read rom a = 0 :=
  ⟨.v6102, [], 0x40000, by decide, by decide, fun _ _ _ => rfl⟩

theorem cic_6102 : cicOfBootCrc (bootCrcOf (zRom tail6102)) = some .v6102 := by rw [test_boot_crc_6102]; rfl

theorem wit_CrcComputesChecksums :
    ∃ (s s1 : State) (v : CicVersion), s.host = [] ∧ s.status ≠ .busy ∧ 0x101000 ≤ s.romLen.toNat ∧
      cicOfBootCrc (bootCrcOf s.rom) = some v ∧ exec .crc s = .next s1 :=
  ⟨withRom (zRom tail6102) 0x101000, _, .v6102, rfl, by decide, by decide, cic_6102, rfl⟩

theorem wit_CrcIdentificationFaults_short :
    ∃ s s1 : State, s.host = [] ∧ s.status ≠ .busy ∧ exec .crc s = .next s1 ∧ s.romLen.toNat < 0x1000 :=
  ⟨withRom (zRom tail6102) 0xFFF, _, rfl, by decide, rfl, by decide⟩

theorem wit_CrcIdentificationFaults_unknown :
    ∃ s s1 : State, s.host = [] ∧ s.status ≠ .busy ∧ exec .crc s = .next s1 ∧ 0x1000 ≤ s.romLen.toNat ∧
      cicOfBootCrc (bootCrcOf s.rom) = none :=
  ⟨withRom [] 0x1000, _, rfl, by decide, rfl, by decide, by
    rw [show (withRom [] 0x1000).rom = [] from rfl, test_boot_crc_zero]; rfl⟩

theorem wit_CrcIdentificationFaults_zero :
    ∃ s s1 : State, s.host = [] ∧ s.status ≠ .busy ∧ exec .crc s = .next s1 ∧
      ∀ a, 0x40 ≤ a → a < 0x1000 → Memory.read s.rom a = 0 :=
  ⟨withRom [] 0x1000, _, rfl, by decide, rfl, fun _ _ _ => rfl⟩

theorem wit_CrcRegionFault :
    ∃ (s s1 : State) (v : CicVersion), s.host = [] ∧ s.status ≠ .busy ∧ exec .crc s = .next s1 ∧
      0x1000 ≤ s.romLen.toNat ∧ s.romLen.toNat < 0x101000 ∧ cicOfBootCrc (bootCrcOf s.rom) = some v :=
  ⟨withRom (zRom tail6102) 0x100FFF, _, .v6102, rfl, by decide, rfl, by decide, by decide, cic_6102⟩

/-- A CRC unit about to check the boot block's bounds. -/
def crcStarted (romLen : Word) : State := { withRom (zRom tail6102) romLen with status := .busy, unit := .crc }

theorem wit_CrcInvariant : ∃ s t : State, s.CrcOk ∧ s.status = .busy ∧ s.unit = .crc ∧ step s = .next t :=
  ⟨crcStarted 0x101000, _, fun _ _ => ⟨rfl, rfl⟩, rfl, rfl, rfl⟩

theorem wit_CrcDependsOnRomOnly :
    ∃ (s s1 u u1 : State) (v : CicVersion), s.host = [] ∧ s.status ≠ .busy ∧ u.host = [] ∧ u.status ≠ .busy ∧
      0x101000 ≤ s.romLen.toNat ∧ 0x101000 ≤ u.romLen.toNat ∧ cicOfBootCrc (bootCrcOf s.rom) = some v ∧
      AgreeOn s.rom u.rom 0x40 0x101000 ∧ s.rom ≠ u.rom ∧ exec .crc s = .next s1 ∧ exec .crc u = .next u1 :=
  ⟨withRom (zRom tail6102) 0x101000, _, withRom (Memory.write (zRom tail6102) 0x3F 7) 0x2000000, _, .v6102, rfl, by decide,
    rfl, by decide, by decide, by decide, cic_6102,
    fun _ hx _ => (read_write_ne (zRom tail6102) 7 (by omega)).symm, by decide, rfl, rfl⟩

theorem wit_CrcIdempotent :
    ∃ (s s1 : State) (v : CicVersion), s.host = [] ∧ s.status ≠ .busy ∧ 0x101000 ≤ s.romLen.toNat ∧
      cicOfBootCrc (bootCrcOf s.rom) = some v ∧ exec .crc s = .next s1 := wit_CrcComputesChecksums

theorem wit_EveryCommandEnds :
    (∃ s s1 : State, s.host = [] ∧ s.status ≠ .busy ∧ exec .crc s = .next s1) ∧
      (∃ s s1 : State, s.host = [] ∧ s.status ≠ .busy ∧ exec .dec s = .next s1) ∧
      ∃ s s1 : State, s.host = [] ∧ s.status ≠ .busy ∧ exec .enc s = .next s1 :=
  ⟨⟨State.reset, _, rfl, by decide, rfl⟩, ⟨State.reset, _, rfl, by decide, rfl⟩, State.reset, _, rfl, by decide, rfl⟩

theorem wit_StatusTransitions_idle :
    ∃ s t : State, step s = .next t ∧ t.status ≠ s.status ∧ t.status = .idle :=
  ⟨{ State.reset with host := [.reset], status := .done }, _, rfl, by decide, rfl⟩

theorem wit_StatusTransitions_busy :
    ∃ s t : State, step s = .next t ∧ t.status ≠ s.status ∧ t.status = .busy :=
  ⟨{ State.reset with host := [.write .cmd 1] }, _, rfl, by decide, rfl⟩

theorem wit_StatusTransitions_done :
    ∃ s t : State, step s = .next t ∧ t.status ≠ s.status ∧ t.status = .done :=
  ⟨decoding [] [] 0 ⟨0, 0, 0, 0⟩, _, rfl, by decide, rfl⟩

theorem wit_StatusTransitions_fault :
    ∃ s t : State, step s = .next t ∧ t.status ≠ s.status ∧ t.status = .fault :=
  ⟨{ State.reset with host := [.write .cmd 0] }, _, rfl, by decide, rfl⟩

theorem wit_BlockFootprint :
    (∃ s t : State, s.BlockMoves ∧ s.host = [] ∧ step s = .next t ∧ t ≠ s) ∧
      ∃ s t : State, s.BlockMoves ∧ s.host = [.poll] ∧ step s = .next t ∧ t.dst ≠ s.dst :=
  ⟨⟨decoding [0x80, 0x41] [] 1 ⟨1, 0, 0x80, 8⟩, _, .inl rfl, rfl, rfl, by decide⟩,
    { decoding [0x80, 0x41] [] 1 ⟨1, 0, 0x80, 8⟩ with host := [.poll] }, _, .inr (.inr ⟨[], rfl⟩), rfl, rfl, by decide⟩

theorem wit_FaultLeavesInputs :
    (∃ s t : State, s.BlockMoves ∧ s.status = .busy ∧ step s = .next t ∧ t.status = .fault) ∧
      ∃ s t : State, s.BlockMoves ∧ s.host = [.tick] ∧ s.status = .busy ∧ step s = .next t ∧ t.status = .fault :=
  ⟨⟨crcStarted 0xFFF, _, .inl rfl, rfl, rfl, by decide⟩,
    { crcStarted 0xFFF with host := [.tick] }, _, .inr (.inl ⟨[], rfl⟩), rfl, rfl, rfl, by decide⟩

theorem wit_ResetEventEffect : ∃ (s : State) (rest : List HostAction), s.host = .reset :: rest :=
  ⟨{ crcStarted 0x101000 with host := [.reset] }, [], rfl⟩

theorem wit_SpacesInvariant : ∃ s t : State, s.SpacesOk ∧ s.src ≠ [] ∧ step s = .next t :=
  ⟨decoding [0x80, 0x41] [] 1 ⟨1, 0, 0x80, 8⟩, _, ⟨rfl, rfl, rfl⟩, by decide, rfl⟩

theorem wit_ReportInvariant : ∃ s t : State, s.ReportOk ∧ s.status = .busy ∧ step s = .next t ∧ t.status = .done :=
  ⟨decoding [] [] 0 ⟨0, 0, 0, 0⟩, _,
    ⟨by decide, rfl, fun _ => rfl, fun _ => ⟨rfl, rfl⟩, fun _ => ⟨rfl, rfl⟩⟩, rfl, rfl, rfl⟩

theorem wit_IdentityInvariant : ∃ s t : State, s.CrcOk ∧ s.IdentityOk ∧ s.cic ≠ 0 ∧ step s = .next t :=
  ⟨{ State.reset with status := .done, cic := 6102, bootCrc := 0x90BB6CB5 }, _, fun h => (nomatch h),
    fun _ => ⟨.v6102, rfl, rfl⟩, by decide, rfl⟩

end Sys2Proof.Tests
end

section
/-! SUPPORT. What each kind of move does to the report registers of 10_state (`STATUS`, `ERR`, `ERR_INFO`, `OUT_LEN`, the two
positions, the two checksums) and to the identity registers `CIC` and `BOOT_CRC`, once for every move. -/

namespace Sys2Proof.Machine

/-! ## Moves of the running unit -/

/-- The values of the registers `ReportOk` speaks of. -/
structure Report where
  status : Status
  err : ErrKind
  errInfo : BitVec 3
  outLen : Word
  srcPos : Word
  dstPos : Word
  crc1 : Word
  crc2 : Word

def State.report (s : State) : Report :=
  ⟨s.status, s.err, s.errInfo, s.outLen, s.srcPos, s.dstPos, s.crc1, s.crc2⟩

theorem report_eq_iff (s t : State) :
    t.report = s.report ↔
      t.status = s.status ∧ t.err = s.err ∧ t.errInfo = s.errInfo ∧ t.outLen = s.outLen ∧ t.srcPos = s.srcPos ∧
        t.dstPos = s.dstPos ∧ t.crc1 = s.crc1 ∧ t.crc2 = s.crc2 := by
  simp [State.report]

theorem status_of_report {s t : State} (e : t.report = s.report) : t.status = s.status :=
  congrArg Report.status e

/-- What a move of the running unit does to the report: the operation goes on and reports nothing, ends `DONE`
(43_host_commands R255), or faults (60_exceptions R292). -/
inductive UnitMove (s t : State) : Prop
  | goesOn (report : t.report = s.report)
  | completes (status : t.status = .done) (err : t.err = s.err) (errInfo : t.errInfo = s.errInfo)
  | faults {c : FaultCause} {p q : Nat} (fault : Faulted c p q s t)

/-- A move of the decoder or the encoder, which also leaves the identity registers and the choice of unit. -/
structure CodecMove (s t : State) : Prop where
  move : UnitMove s t
  cic : t.cic = s.cic
  bootCrc : t.bootCrc = s.bootCrc
  unit : t.unit = s.unit

theorem raise_faulted (c : FaultCause) (p q : Nat) (s : State) : Faulted c p q s (raise c p q s) where
  status := rfl
  err := rfl
  errInfo := rfl
  outLen := rfl
  srcPos := rfl
  dstPos := rfl
  words := ⟨rfl, rfl⟩
  identity := ⟨rfl, rfl⟩
  lengths := ⟨rfl, rfl, rfl⟩
  inputs := ⟨rfl, rfl⟩
  beyond := fun _ _ => rfl

theorem crcTurn_move (s : State) : UnitMove s (crcTurn s) := by
  unfold crcTurn
  cases s.crcU.phase with
  | bootBounds =>
    simp only [crcBootBounds]
    split
    · exact .faults (raise_faulted _ _ _ _)
    · exact .goesOn rfl
  | bootCrc =>
    simp only [crcBootByte]
    split <;> exact .goesOn rfl
  | identify =>
    simp only [crcIdentify]
    split
    · exact .faults (raise_faulted _ _ _ _)
    · exact .goesOn rfl
  | regionBounds =>
    simp only [crcRegionBounds]
    split
    · exact .faults (raise_faulted _ _ _ _)
    · exact .goesOn rfl
  | region =>
    simp only [crcWord]
    split <;> exact .goesOn rfl
  | finalise => exact .goesOn rfl
  | writeBack => exact .completes rfl rfl rfl

/-- A codec that goes on changes `DST` and its working registers only. -/
theorem codecMove_goesOn (s : State) (d : Memory) (r : DecRegs) (e : EncRegs) :
    CodecMove s { s with dst := d, dec := r, enc := e } :=
  ⟨.goesOn rfl, rfl, rfl, rfl⟩

theorem codecMove_complete (n p q : Nat) (s : State) (d : Memory) :
    CodecMove s (complete n p q { s with dst := d }) :=
  ⟨.completes rfl rfl rfl, rfl, rfl, rfl⟩

theorem codecMove_decRaise (c : FaultCause) (s : State) : CodecMove s (decRaise c s) :=
  ⟨.faults (decRaise_faulted c s), rfl, rfl, rfl⟩

theorem codecMove_encRaise (c : FaultCause) (s : State) : CodecMove s (encRaise c s) :=
  ⟨.faults (encRaise_faulted c s), rfl, rfl, rfl⟩

theorem codecMove_backReference (size dist len : Nat) (s : State) :
    CodecMove s (backReference size dist len s) := by
  rcases backReference_cases size dist len s with ⟨_, e⟩ | ⟨_, _, e⟩ | ⟨_, _, _, e⟩ | ⟨_, _, _, e⟩ <;> rw [e]
  · exact codecMove_decRaise _ s
  · exact codecMove_decRaise _ s
  · exact codecMove_decRaise _ s
  · exact codecMove_goesOn s _ _ s.enc

/-- An instruction of a frame, that is any but the three commands, is a codec's move. -/
theorem codecMove_exec {s t : State} {i : Instr} (hi : i.context ≠ .command) (h : exec i s = .next t) :
    CodecMove s t := by
  cases i with
  | code k =>
    simp only [exec, execCode] at h
    split at h <;> cases h
    · exact codecMove_decRaise _ s
    · exact codecMove_goesOn s s.dst _ s.enc
  | lit v =>
    simp only [exec, execLit] at h
    split at h
    · cases h
      exact codecMove_decRaise _ s
    · split at h <;> cases h
      · exact codecMove_decRaise _ s
      · exact codecMove_goesOn s _ _ s.enc
  | ref2 n d => cases h; exact codecMove_backReference _ _ _ s
  | ref3 d m => cases h; exact codecMove_backReference _ _ _ s
  | hdr size =>
    simp only [exec, execHdr] at h
    split at h <;> cases h
    · exact codecMove_encRaise _ s
    · exact codecMove_goesOn s _ s.dec _
  | crc => exact absurd rfl hi
  | dec => exact absurd rfl hi
  | enc => exact absurd rfl hi

/-- What the decoder fetches is never a command. -/
theorem fetchToken_context_ne_command {s : State} {i : Instr} (h : fetchToken s = .ok i) : i.context ≠ .command := by
  rcases fetchToken_ok h with ⟨_, _, rfl⟩ | ⟨_, _, rfl⟩ | ⟨_, _, _, _, rfl, _⟩ | ⟨_, _, _, _, rfl⟩ <;> exact nofun

theorem hdr_context_ne_command (size : Word) : (Instr.hdr size).context ≠ .command := nofun

theorem codecMove_decComplete (s : State) : CodecMove s (decComplete s) := codecMove_complete _ _ _ s s.dst

theorem codecMove_encMainLoop (s : State) : CodecMove s (encMainLoop s) := by
  unfold encMainLoop
  split <;> exact codecMove_goesOn s s.dst s.dec _

theorem codecMove_encBody (base : Nat) (s : State) : CodecMove s (encBody base s) := by
  unfold encBody
  split
  · exact codecMove_encRaise _ s
  · exact codecMove_complete _ _ _ s _

theorem codecMove_decTurn {s t : State} (h : (decTurn s).outcome = .next t) : CodecMove s t := by
  rcases decTurn_cases s with ⟨_, e⟩ | ⟨_, i, hf, e⟩ | ⟨_, _, _, e⟩ <;> simp only [e] at h
  · cases h; exact codecMove_decComplete s
  · exact codecMove_exec (fetchToken_context_ne_command hf) h
  · cases h; exact codecMove_decRaise _ s

theorem codecMove_encTurn {s t : State} (h : (encTurn s).outcome = .next t) : CodecMove s t := by
  unfold encTurn at h
  split at h
  · cases h; exact codecMove_encMainLoop s
  · exact codecMove_exec (hdr_context_ne_command _) h
  · cases h; exact codecMove_encBody _ s

/-- The block's move is one of its running unit, and there is none while no operation runs (70_reset R323). -/
theorem blockTurn_cases {s t : State} (h : (blockTurn s).outcome = .next t) :
    (s.status = .busy ∧ UnitMove s t) ∨ (s.status ≠ .busy ∧ t = s) := by
  unfold blockTurn at h
  cases hst : s.status with
  | busy =>
    refine .inl ⟨rfl, ?_⟩
    rw [hst] at h
    cases hu : s.unit with
    | crc => rw [hu] at h; cases h; exact crcTurn_move s
    | dec => rw [hu] at h; exact (codecMove_decTurn h).move
    | enc => rw [hu] at h; exact (codecMove_encTurn h).move
  | idle => rw [hst] at h; cases h; exact .inr ⟨nofun, rfl⟩
  | done => rw [hst] at h; cases h; exact .inr ⟨nofun, rfl⟩
  | fault => rw [hst] at h; cases h; exact .inr ⟨nofun, rfl⟩

/-! ## Moves of the host -/

/-- What acceptance of a command leaves: a cleared report, no identity yet, and a CRC unit at its first phase. -/
structure Accepted (s t : State) : Prop where
  report : t.report = (accept t.unit s).report
  cic : t.cic = 0
  crcStart : t.unit = .crc → t.crcU.phase = .bootBounds

theorem command_accepted {s t : State} {i : Instr} (hb : s.status ≠ .busy) (hi : i = .crc ∨ i = .dec ∨ i = .enc)
    (h : exec i s = .next t) : Accepted s t := by
  rcases command_cases s with ⟨hb', _⟩ | ⟨_, hcrc, hdec, henc⟩
  · exact absurd hb' hb
  · rcases hi with rfl | rfl | rfl
    · rw [hcrc] at h; cases h
      exact ⟨rfl, rfl, fun _ => rfl⟩
    · rw [hdec] at h; cases h
      exact ⟨rfl, rfl, nofun⟩
    · rw [henc] at h; cases h
      exact ⟨rfl, rfl, nofun⟩

theorem illegalCommand_faulted (s : State) :
    Faulted .illegalCommand 0 0 (clearResults s) (illegalCommand s) := raise_faulted _ _ _ _

/-- Replacing a space changes the spaces only. -/
theorem withSpace_eq (s : State) (sp : Space) (m : Memory) :
    s.withSpace sp m =
      { s with
        src := (s.withSpace sp m).src, dst := (s.withSpace sp m).dst, rom := (s.withSpace sp m).rom } := by
  cases sp <;> rfl

/-- The step takes the host's action when it is neither `tick` nor `poll`. -/
theorem step_hostAction {s : State} {a : HostAction} {rest : List HostAction} (hh : s.host = a :: rest)
    (ht : a ≠ .tick) (hp : a ≠ .poll) : step s = (hostTurn a { s with host := rest }).outcome := by
  rw [step_eq, turn, hh]
  cases a with
  | tick => exact absurd rfl ht
  | poll => exact absurd rfl hp
  | _ => rfl

end Sys2Proof.Machine
end

section
/-! What the report registers say in every state (10_state R25, R26, R30 to R32, R35, R36). -/

namespace Sys2Proof.Machine

theorem FaultCause.kind_ne_none (c : FaultCause) : c.kind ≠ .none := by cases c <;> exact nofun

theorem FaultCause.info_of_kind (c : FaultCause) : c.kind.infoOk c.info := by
  cases c <;> simp [FaultCause.kind, FaultCause.info, ErrKind.infoOk]

theorem State.ReportOk.of_report {s t : State} (h : s.ReportOk) (e : t.report = s.report) : t.ReportOk := by
  obtain ⟨hstatus, herr, hinfo, hout, hsrc, hdst, hcrc1, hcrc2⟩ := (report_eq_iff s t).mp e
  exact
    { err_iff_fault := by rw [herr, hstatus]; exact h.err_iff_fault
      info_of_kind := by rw [herr, hinfo]; exact h.info_of_kind
      outLen_unless_done := by rw [hstatus, hout]; exact h.outLen_unless_done
      words_unless_done := by rw [hstatus, hcrc1, hcrc2]; exact h.words_unless_done
      positions_while_unended := by rw [State.ended, hstatus, hsrc, hdst]; exact h.positions_while_unended }

theorem Faulted.reportOk {c : FaultCause} {p q : Nat} {s t : State} (f : Faulted c p q s t) : t.ReportOk where
  err_iff_fault := by rw [f.err, f.status]; exact iff_of_true c.kind_ne_none rfl
  info_of_kind := by rw [f.err, f.errInfo]; exact c.info_of_kind
  outLen_unless_done := fun _ => f.outLen
  words_unless_done := fun _ => f.words
  positions_while_unended := fun h => absurd (.inr f.status) h

theorem State.ReportOk.err_of_busy {s : State} (h : s.ReportOk) (hb : s.status = .busy) :
    s.err = .none ∧ s.errInfo = 0 := by
  have herr : s.err = .none := by
    by_contra hne
    have hf := h.err_iff_fault.mp hne
    rw [hb] at hf
    cases hf
  have hinfo := h.info_of_kind
  rw [herr] at hinfo
  exact ⟨herr, hinfo⟩

/-- A unit's move keeps the report consistent: a fault sets all of it, and completion finds `ERR` still clear, since the
operation was running. -/
theorem UnitMove.reportOk {s t : State} (m : UnitMove s t) (hb : s.status = .busy) (h : s.ReportOk) :
    t.ReportOk := by
  cases m with
  | goesOn e => exact h.of_report e
  | faults f => exact f.reportOk
  | completes hstatus herr hinfo =>
    obtain ⟨hnone, hzero⟩ := h.err_of_busy hb
    rw [hnone] at herr
    rw [hzero] at hinfo
    exact
      { err_iff_fault := by simp [herr, hstatus]
        info_of_kind := by rw [herr]; exact hinfo
        outLen_unless_done := fun hd => absurd hstatus hd
        words_unless_done := fun hd => absurd hstatus hd
        positions_while_unended := fun hu => absurd (.inl hstatus) hu }

theorem accept_reportOk (u : UnitId) (s : State) : (accept u s).ReportOk where
  err_iff_fault := by simp
  info_of_kind := rfl
  outLen_unless_done := fun _ => rfl
  words_unless_done := fun _ => ⟨rfl, rfl⟩
  positions_while_unended := fun _ => ⟨rfl, rfl⟩

theorem resetEvent_reportOk (s : State) : (resetEvent s).ReportOk where
  err_iff_fault := by simp [resetEvent]
  info_of_kind := rfl
  outLen_unless_done := fun _ => rfl
  words_unless_done := fun _ => ⟨rfl, rfl⟩
  positions_while_unended := fun _ => ⟨rfl, rfl⟩

theorem reportOk_withSpace {s : State} (sp : Space) (m : Memory) (h : s.ReportOk) : (s.withSpace sp m).ReportOk := by
  rw [withSpace_eq]
  exact h.of_report rfl

theorem reportOk_kept : Kept State.ReportOk where
  hostSide := fun _ _ _ _ h => h.of_report rfl
  cmd := fun _ _ h => h.of_report rfl
  lengths := fun _ _ _ h => ⟨h.of_report rfl, h.of_report rfl, h.of_report rfl⟩
  command := fun s _ _ hb hi he _ => (accept_reportOk _ s).of_report (command_accepted hb hi he).report
  illegal := fun s _ _ => (illegalCommand_faulted s).reportOk
  poke := fun _ sp _ _ _ _ => reportOk_withSpace sp _
  bind := fun _ sp _ _ _ => reportOk_withSpace sp _
  reset := fun s _ => resetEvent_reportOk s
  crcMove := fun s hb _ => (crcTurn_move s).reportOk hb
  decDone := fun s hb _ _ => (codecMove_decComplete s).move.reportOk hb
  decShort := fun s hb _ _ => (codecMove_decRaise _ s).move.reportOk hb
  decToken := fun _ _ _ hb _ _ hf he => (codecMove_exec (fetchToken_context_ne_command hf) he).move.reportOk hb
  encTokens := fun s hb _ _ => (codecMove_encMainLoop s).move.reportOk hb
  encHeader := fun _ _ hb _ _ he => (codecMove_exec (hdr_context_ne_command _) he).move.reportOk hb
  encFrame := fun s hb _ _ => (codecMove_encBody _ s).move.reportOk hb

/-- Settles O58: every kind of move keeps what the report registers say. -/
theorem reportInvariant : Obligations.ReportInvariant := fun _ _ hs h => reportOk_kept.step hs h

end Sys2Proof.Machine
end

section
/-! What `CIC` and `BOOT_CRC` say in every state (10_state R33, R34, 40_cic_checksum R134). `IdentityOk` alone is not kept by
the CRC unit; what it needs besides of the unit's own invariant is small, and is kept by itself. -/

namespace Sys2Proof.Machine

/-- `IdentityOk` with the part of `CrcOk` it rests on: `CIC` is 0 until the boot CRC is reported, and what the CRC unit looks
up in the table is the boot CRC it has reported. -/
structure State.IdentityTracked (s : State) : Prop where
  reported : s.IdentityOk
  unreported : s.status = .busy → s.unit = .crc →
    s.crcU.phase = .bootBounds ∨ s.crcU.phase = .bootCrc → s.cic = 0
  lookedUp : s.status = .busy → s.unit = .crc → s.crcU.phase = .identify → s.bootCrc = s.crcU.bootCrc

theorem State.IdentityOk.tracked {s : State} (h : s.IdentityOk) (hc : s.CrcOk) : s.IdentityTracked where
  reported := h
  unreported := fun hb hu hp => by
    have hphase := hc hb hu
    unfold State.CrcPhaseOk at hphase
    rcases hp with hp | hp <;> rw [hp] at hphase <;> exact hphase.1
  lookedUp := fun hb hu hp => by
    have hphase := hc hb hu
    unfold State.CrcPhaseOk at hphase
    rw [hp] at hphase
    obtain ⟨_, _, hreg, hunit⟩ := hphase
    exact hreg.trans hunit.symm

/-- No version reported and none about to be looked up. -/
theorem identityTracked_of_cic_zero {t : State} (hcic : t.cic = 0)
    (hphase : t.status = .busy → t.unit = .crc → t.crcU.phase ≠ .identify) : t.IdentityTracked where
  reported := fun hne => absurd hcic hne
  unreported := fun _ _ _ => hcic
  lookedUp := fun hb hu hp => absurd hp (hphase hb hu)

/-- The identity registers are kept, and the CRC unit is not (any more) before its table lookup. -/
theorem State.IdentityOk.tracked_of_keeps {s t : State} (h : s.IdentityOk) (hcic : t.cic = s.cic)
    (hboot : t.bootCrc = s.bootCrc)
    (hphase : t.status = .busy → t.unit = .crc →
      t.crcU.phase ≠ .bootBounds ∧ t.crcU.phase ≠ .bootCrc ∧ t.crcU.phase ≠ .identify) : t.IdentityTracked where
  reported := by rw [State.IdentityOk, hcic, hboot]; exact h
  unreported := fun hb hu hp => by
    obtain ⟨h1, h2, _⟩ := hphase hb hu
    exact hp.elim (absurd · h1) (absurd · h2)
  lookedUp := fun hb hu hp => by
    obtain ⟨_, _, h3⟩ := hphase hb hu
    exact absurd hp h3

theorem Faulted.identityTracked {c : FaultCause} {p q : Nat} {s t : State} (f : Faulted c p q s t)
    (h : s.IdentityOk) : t.IdentityTracked :=
  h.tracked_of_keeps f.identity.1 f.identity.2 fun hb => by rw [f.status] at hb; cases hb

theorem CodecMove.identityTracked {s t : State} (m : CodecMove s t) (hu : s.unit ≠ .crc) (h : s.IdentityTracked) :
    t.IdentityTracked :=
  h.reported.tracked_of_keeps m.cic m.bootCrc fun _ hu' => absurd (m.unit.symm.trans hu') hu

theorem crcBootByte_identityTracked {s : State} (hcic : s.cic = 0) (hp : s.crcU.phase = .bootCrc) :
    (crcBootByte s).IdentityTracked := by
  unfold crcBootByte
  split
  · exact identityTracked_of_cic_zero hcic fun _ _ hp' => by
      have hp'' : s.crcU.phase = .identify := hp'
      rw [hp] at hp''
      cases hp''
  · exact ⟨fun hne => absurd hcic hne, fun _ _ _ => hcic, fun _ _ _ => rfl⟩

/-- The one move that reports a version: it is the table's for the boot CRC in `BOOT_CRC`. -/
theorem crcIdentify_identityTracked {s : State} (h : s.IdentityOk) (hboot : s.bootCrc = s.crcU.bootCrc) :
    (crcIdentify s).IdentityTracked := by
  unfold crcIdentify
  split
  · exact (raise_faulted _ _ _ s).identityTracked h
  · next v hv =>
    rw [← hboot] at hv
    exact ⟨fun _ => ⟨v, hv, rfl⟩, fun _ _ hp => hp.elim nofun nofun, fun _ _ => nofun⟩

theorem crcTurn_identityTracked {s : State} (hb : s.status = .busy) (hu : s.unit = .crc) (h : s.IdentityTracked) :
    (crcTurn s).IdentityTracked := by
  unfold crcTurn
  cases hp : s.crcU.phase with
  | bootBounds =>
    simp only [crcBootBounds]
    split
    · exact (raise_faulted _ _ _ s).identityTracked h.reported
    · exact identityTracked_of_cic_zero (h.unreported hb hu (.inl hp)) fun _ _ => nofun
  | bootCrc => exact crcBootByte_identityTracked (h.unreported hb hu (.inr hp)) hp
  | identify => exact crcIdentify_identityTracked h.reported (h.lookedUp hb hu hp)
  | regionBounds =>
    simp only [crcRegionBounds]
    split
    · exact (raise_faulted _ _ _ s).identityTracked h.reported
    · exact h.reported.tracked_of_keeps rfl rfl fun _ _ => ⟨nofun, nofun, nofun⟩
  | region =>
    simp only [crcWord]
    split
    · exact h.reported.tracked_of_keeps rfl rfl fun _ _ => by simp [hp]
    · exact h.reported.tracked_of_keeps rfl rfl fun _ _ => ⟨nofun, nofun, nofun⟩
  | finalise => exact h.reported.tracked_of_keeps rfl rfl fun _ _ => ⟨nofun, nofun, nofun⟩
  | writeBack => exact h.reported.tracked_of_keeps rfl rfl nofun

theorem identityTracked_withSpace {s : State} (sp : Space) (m : Memory) (h : s.IdentityTracked) :
    (s.withSpace sp m).IdentityTracked := by
  rw [withSpace_eq]
  exact ⟨h.reported, h.unreported, h.lookedUp⟩

theorem identityTracked_kept : Kept State.IdentityTracked where
  hostSide := fun _ _ _ _ h => ⟨h.reported, h.unreported, h.lookedUp⟩
  cmd := fun _ _ h => ⟨h.reported, h.unreported, h.lookedUp⟩
  lengths := fun _ _ _ h =>
    ⟨⟨h.reported, h.unreported, h.lookedUp⟩, ⟨h.reported, h.unreported, h.lookedUp⟩,
      ⟨h.reported, h.unreported, h.lookedUp⟩⟩
  command := fun _ _ _ hb hi he _ => by
    have ha := command_accepted hb hi he
    exact identityTracked_of_cic_zero ha.cic fun _ hu => by rw [ha.crcStart hu]; exact nofun
  illegal := fun _ _ _ => identityTracked_of_cic_zero rfl nofun
  poke := fun _ sp _ _ _ _ => identityTracked_withSpace sp _
  bind := fun _ sp _ _ _ => identityTracked_withSpace sp _
  reset := fun _ _ => identityTracked_of_cic_zero rfl nofun
  crcMove := fun _ hb hu => crcTurn_identityTracked hb hu
  decDone := fun s _ hu _ => (codecMove_decComplete s).identityTracked (by rw [hu]; exact nofun)
  decShort := fun s _ hu _ => (codecMove_decRaise _ s).identityTracked (by rw [hu]; exact nofun)
  decToken := fun _ _ _ _ hu _ hf he =>
    (codecMove_exec (fetchToken_context_ne_command hf) he).identityTracked (by rw [hu]; exact nofun)
  encTokens := fun s _ hu _ => (codecMove_encMainLoop s).identityTracked (by rw [hu]; exact nofun)
  encHeader := fun _ _ _ hu _ he => (codecMove_exec (hdr_context_ne_command _) he).identityTracked (by rw [hu]; exact nofun)
  encFrame := fun s _ hu _ => (codecMove_encBody _ s).identityTracked (by rw [hu]; exact nofun)

/-- Settles O59: the CRC unit's invariant gives the strengthened `IdentityTracked`, which every kind of move keeps. -/
theorem identityInvariant : Obligations.IdentityInvariant := fun _ _ hc hs h =>
  (identityTracked_kept.step (hs.tracked hc) h).reported

end Sys2Proof.Machine
end

section
/-! What changes `STATUS` (10_state R24). -/

namespace Sys2Proof.Machine

/-- What a host action does to `STATUS`: a reset, a legal and an illegal command are all that can change it. -/
inductive HostStatusMove (a : HostAction) (before after : Status) : Prop
  | keeps (status : after = before)
  | resets (action : a = .reset) (status : after = .idle)
  | issues {v : Word} (action : a = .write .cmd v) (legal : v = 1 ∨ v = 2 ∨ v = 3) (status : after = .busy)
  | refuses {v : Word} (action : a = .write .cmd v) (illegal : v ≠ 1 ∧ v ≠ 2 ∧ v ≠ 3) (status : after = .fault)

theorem issueCommand_status {s t : State} {v : Word} (h : (issueCommand v s).outcome = .next t) :
    HostStatusMove (.write .cmd v) s.status t.status := by
  unfold issueCommand at h
  split at h
  · cases h; exact .keeps rfl
  · next hb =>
    cases hd : decodeCommand v with
    | ok i =>
      rw [hd] at h
      have hv := decodeCommand_ok hd
      have hi : i = .crc ∨ i = .dec ∨ i = .enc := hv.imp And.right (Or.imp And.right And.right)
      have ha : Accepted { s with cmd := v } t := command_accepted hb hi h
      exact .issues rfl (hv.imp And.left (Or.imp And.left And.left)) (status_of_report ha.report)
    | error e =>
      rw [hd] at h
      cases h
      exact .refuses rfl (decodeCommand_error hd) rfl

theorem hostTurn_status {s t : State} {a : HostAction} (h : (hostTurn a s).outcome = .next t) :
    HostStatusMove a s.status t.status := by
  cases a with
  | tick => cases h; exact .keeps rfl
  | poll => cases h; exact .keeps rfl
  | reset => cases h; exact .resets rfl rfl
  | read r => cases h; rw [readReg_eq]; exact .keeps rfl
  | write r v =>
    cases r with
    | cmd => exact issueCommand_status h
    | _ => cases h; rcases writeReg_cases s _ v with e | ⟨_, e | e | e⟩ <;> rw [e] <;> exact .keeps rfl
  | poke sp a v => obtain ⟨_, _, rfl⟩ := spaceAccess_next h; exact .keeps (withSpace_status s sp _)
  | peek sp a => obtain ⟨_, _, rfl⟩ := spaceAccess_next h; exact .keeps rfl
  | bind sp bytes => obtain ⟨_, _, rfl⟩ := spaceAccess_next h; exact .keeps (withSpace_status s sp _)

/-- What the block's move does to `STATUS`. -/
theorem blockTurn_status {s t : State} (h : (blockTurn s).outcome = .next t) :
    t.status = s.status ∨ (s.status = .busy ∧ t.ended) := by
  rcases blockTurn_cases h with ⟨hb, e | hd | f⟩ | ⟨_, rfl⟩
  · exact .inl (status_of_report e)
  · exact .inr ⟨hb, .inl hd⟩
  · exact .inr ⟨hb, .inr f.status⟩
  · exact .inl rfl

theorem pollTurn_status {s t : State} {rest : List HostAction} (h : (pollTurn rest s).outcome = .next t) :
    t.status = s.status ∨ (s.status = .busy ∧ t.ended) := by
  unfold pollTurn at h
  split at h
  · have hmove := blockTurn_status h
    exact hmove
  · cases h; exact .inl rfl
  · cases h; exact .inl rfl
  · cases h; exact .inl rfl

/-- What a step does to `STATUS`: the host's action does it, or the running operation ends. -/
theorem step_status {s t : State} (h : step s = .next t) :
    t.status = s.status ∨ (s.status = .busy ∧ t.ended) ∨
      ∃ a rest, s.host = a :: rest ∧ HostStatusMove a s.status t.status := by
  cases hh : s.host with
  | nil =>
    rw [step_eq, turn, hh] at h
    exact (blockTurn_status h).imp_right .inl
  | cons a rest =>
    by_cases ht : a = .tick
    · subst ht
      rw [step_eq, turn, hh] at h
      have hmove := blockTurn_status h
      exact hmove.imp_right .inl
    · by_cases hp : a = .poll
      · subst hp
        rw [step_eq, turn, hh] at h
        exact (pollTurn_status h).imp_right .inl
      · rw [step_hostAction hh ht hp] at h
        have hmove := hostTurn_status h
        exact .inr (.inr ⟨a, rest, rfl, hmove⟩)

/-- Settles O52, case by case on who changed `STATUS`. -/
theorem statusTransitions : Obligations.StatusTransitions := by
  intro s t h hne
  rcases step_status h with e | ⟨hb, e | e⟩ | ⟨a, rest, hh, e | ⟨rfl, e⟩ | ⟨rfl, hv, e⟩ | ⟨rfl, hv, e⟩⟩
  · exact absurd e hne
  · simp [e, hb]
  · simp [e, hb]
  · exact absurd e hne
  · simp [e, hh]
  · simpa [e, hh] using hv
  · rw [e, hh]
    exact ⟨nofun, nofun, nofun, fun _ => .inr ⟨_, rest, rfl, hv⟩⟩

end Sys2Proof.Machine
end

section
/-! The host's register accesses (10_state R22 to R37). -/

namespace Sys2Proof.Machine

variable {s : State} {rest : List HostAction} {v : Word} {r : Reg}

theorem step_read (hh : s.host = .read r :: rest) : step s = .next (State.readReg { s with host := rest } r) :=
  step_hostAction hh nofun nofun

theorem step_write (hh : s.host = .write r v :: rest) (hr : r ≠ .cmd) :
    step s = .next (State.writeReg { s with host := rest } r v) := by
  rw [step_hostAction hh nofun nofun]
  cases r with
  | cmd => exact absurd rfl hr
  | _ => rfl

theorem step_writeCmd (hh : s.host = .write .cmd v :: rest) :
    step s = (issueCommand v { s with host := rest }).outcome := step_hostAction hh nofun nofun

theorem readReg_of_not_free (h : ¬ (s.status = .busy ∧ r ≠ .status)) :
    s.readReg r = { s with readData := s.regValue r } := if_neg h

theorem writeReg_of_busy (hb : s.status = .busy) : s.writeReg r v = s := if_pos hb

/-- The registers the host may only read (10_state R22). -/
def readOnlyRegs : List Reg :=
  [.status, .err, .errInfo, .outLen, .srcPos, .dstPos, .cic, .bootCrc, .crc1, .crc2]

theorem ne_cmd_of_readOnly (hr : r ∈ readOnlyRegs) : r ≠ .cmd := by
  rintro rfl
  exact absurd hr (by decide)

theorem writeReg_of_readOnly (hr : r ∈ readOnlyRegs) : s.writeReg r v = s := by
  unfold State.writeReg
  split
  · rfl
  · cases r with
    | srcLen => exact absurd hr (by decide)
    | dstLen => exact absurd hr (by decide)
    | romLen => exact absurd hr (by decide)
    | _ => rfl

theorem writeReg_srcLen (hb : s.status ≠ .busy) : s.writeReg .srcLen v = { s with srcLen := v } := if_neg hb
theorem writeReg_dstLen (hb : s.status ≠ .busy) : s.writeReg .dstLen v = { s with dstLen := v } := if_neg hb
theorem writeReg_romLen (hb : s.status ≠ .busy) : s.writeReg .romLen v = { s with romLen := v } := if_neg hb

/-- A command issued while not busy leaves its word in `CMD` (log 19). -/
theorem issueCommand_keeps_word (hb : s.status ≠ .busy) :
    ∃ t, (issueCommand v s).outcome = .next t ∧ t.host = s.host ∧ t.cmd = v := by
  unfold issueCommand
  rw [if_neg hb]
  cases hd : decodeCommand v with
  | error e => exact ⟨_, rfl, rfl, rfl⟩
  | ok i =>
    rcases command_cases { s with cmd := v } with ⟨hb', _⟩ | ⟨_, hcrc, hdec, henc⟩
    · exact absurd hb' hb
    · rcases decodeCommand_ok hd with ⟨_, rfl⟩ | ⟨_, rfl⟩ | ⟨_, rfl⟩
      · exact ⟨_, hcrc, rfl, rfl⟩
      · exact ⟨_, hdec, rfl, rfl⟩
      · exact ⟨_, henc, rfl, rfl⟩

theorem step_write_of_busy (hb : s.status = .busy) (hh : s.host = .write r v :: rest) :
    step s = .next { s with host := rest } := by
  by_cases hr : r = .cmd
  · subst hr
    rw [step_writeCmd hh, issueCommand, if_pos hb]
    rfl
  · rw [step_write hh hr, writeReg_of_busy (s := { s with host := rest }) hb]

theorem step_write_of_readOnly (hr : r ∈ readOnlyRegs) (hh : s.host = .write r v :: rest) :
    step s = .next { s with host := rest } := by
  rw [step_write hh (ne_cmd_of_readOnly hr), writeReg_of_readOnly hr]

theorem step_read_of_not_busy (hb : s.status ≠ .busy) (hh : s.host = .read r :: rest) :
    step s = .next { s with host := rest, readData := s.regValue r } := by
  rw [step_read hh, readReg_of_not_free (s := { s with host := rest }) fun h => hb h.1]
  cases r <;> rfl

theorem step_readStatus_of_busy (hb : s.status = .busy) (hh : s.host = .read .status :: rest) :
    step s = .next { s with host := rest, readData := 1 } := by
  have hval : State.regValue { s with host := rest } .status = 1 := by
    rw [State.regValue, hb]
    rfl
  rw [step_read hh, readReg_of_not_free fun h => h.2 rfl, hval]

end Sys2Proof.Machine

namespace Sys2Proof.Machine

/-- Settles O14: writes and reads while busy, then each register's value and what takes a write while not. -/
theorem registerAccessWhileBusy : Obligations.RegisterAccessWhileBusy := by
  refine ⟨fun s r v rest hb hh => step_write_of_busy hb hh, fun s rest hb hh => step_readStatus_of_busy hb hh,
    fun s r rest _ hh => ?_, fun s r rest hb hh => ⟨step_read_of_not_busy hb hh, ?_⟩, fun s v rest hb => ?_⟩
  · exact ⟨_, step_read hh, readReg_eq _ r⟩
  · cases r with
    | errInfo => exact (BitVec.ofNat_toNat 32 s.errInfo).symm
    | _ => rfl
  · refine ⟨fun hh => ?_, fun hh => ?_, fun hh => ?_, fun hh => ?_⟩
    · rw [step_write hh nofun, writeReg_srcLen (s := { s with host := rest }) hb]
    · rw [step_write hh nofun, writeReg_dstLen (s := { s with host := rest }) hb]
    · rw [step_write hh nofun, writeReg_romLen (s := { s with host := rest }) hb]
    · rw [step_writeCmd hh]
      exact issueCommand_keeps_word hb

/-- Settles O15: none of the ten registers takes a write, and `CMD` has no value to read. -/
theorem readOnlyRegisters : Obligations.ReadOnlyRegisters :=
  fun _ _ _ _ hr => ⟨step_write_of_readOnly hr, rfl⟩

end Sys2Proof.Machine
end

section
/-! SUPPORT. What each kind of move does to the spaces (20_memory R60 to R63, R80), once for every move: which bytes it may
write, and that it keeps the canonical form (log 1). -/

namespace Sys2Proof.Machine

/-! ## Writes within a range -/

/-- `m'` is `m` but for bytes of `[a, b)`, and in canonical form where `m` was. -/
structure WrittenWithin (a b : Nat) (m m' : Memory) : Prop where
  outside : ∀ x, x < a ∨ b ≤ x → Memory.read m' x = Memory.read m x
  wf : b ≤ 2 ^ 32 → Memory.wf m = true → Memory.wf m' = true

theorem WrittenWithin.refl (a b : Nat) (m : Memory) : WrittenWithin a b m m := ⟨fun _ _ => rfl, fun _ h => h⟩

theorem WrittenWithin.trans {a b : Nat} {m m' m'' : Memory} (h : WrittenWithin a b m m')
    (h' : WrittenWithin a b m' m'') : WrittenWithin a b m m'' where
  outside := fun x hx => (h'.outside x hx).trans (h.outside x hx)
  wf := fun hb hm => h'.wf hb (h.wf hb hm)

theorem writtenWithin_write {a b p : Nat} (m : Memory) (v : Byte) (ha : a ≤ p) (hb : p < b) :
    WrittenWithin a b m (Memory.write m p v) where
  outside := fun x hx => read_write_ne m v (by omega)
  wf := fun hlen => wf_write v (by omega)

theorem writtenWithin_writeBytes {a b p : Nat} (m : Memory) (vs : List Byte) (ha : a ≤ p) (hb : p + vs.length ≤ b) :
    WrittenWithin a b m (Memory.writeBytes m p vs) where
  outside := fun x hx => read_writeBytes_outside m vs (by omega)
  wf := fun hlen => wf_writeBytes vs (by omega)

theorem writtenWithin_havoc (m : Memory) (draw p n : Nat) :
    WrittenWithin p (p + n) m (Memory.havoc m draw p n) :=
  writtenWithin_writeBytes m _ (Nat.le_refl p) (by simp)

theorem writtenWithin_havoc_zero (m : Memory) (draw n : Nat) : WrittenWithin 0 n m (Memory.havoc m draw 0 n) := by
  simpa using writtenWithin_havoc m draw 0 n

theorem writtenWithin_copyForward {a b q n : Nat} (m : Memory) (p : Nat) (ha : a ≤ q) (hb : q + n ≤ b) :
    WrittenWithin a b m (copyForward m p q n) where
  outside := fun x hx => read_copyForward_outside n m p q x (by omega)
  wf := fun hlen => wf_copyForward n (by omega)

/-- The two checksum words lie in `ROM[0x10..0x18)` (40_cic_checksum R149). -/
theorem writtenWithin_writeCrcWords (rom : Memory) (w1 w2 : Word) :
    WrittenWithin 0x10 0x18 rom (writeCrcWords rom w1 w2) :=
  .trans (writtenWithin_writeBytes rom (be32Bytes w1) (by decide) (by rw [be32Bytes_length]; decide))
    (writtenWithin_writeBytes _ (be32Bytes w2) (by decide) (by rw [be32Bytes_length]; decide))

/-! ## Moves of a codec -/

/-- What a move of the decoder or the encoder may touch of the spaces and the lengths: `DST` below `DST_LEN`. -/
structure CodecFootprint (s t : State) : Prop where
  src : t.src = s.src
  rom : t.rom = s.rom
  srcLen : t.srcLen = s.srcLen
  dstLen : t.dstLen = s.dstLen
  romLen : t.romLen = s.romLen
  dst : WrittenWithin 0 s.dstLen.toNat s.dst t.dst

theorem codecFootprint_goesOn {s : State} {d : Memory} (r : DecRegs) (e : EncRegs)
    (h : WrittenWithin 0 s.dstLen.toNat s.dst d) : CodecFootprint s { s with dst := d, dec := r, enc := e } :=
  ⟨rfl, rfl, rfl, rfl, rfl, h⟩

theorem codecFootprint_complete {s : State} {d : Memory} (n p q : Nat)
    (h : WrittenWithin 0 s.dstLen.toNat s.dst d) : CodecFootprint s (complete n p q { s with dst := d }) :=
  ⟨rfl, rfl, rfl, rfl, rfl, h⟩

theorem codecFootprint_decRaise (c : FaultCause) (s : State) : CodecFootprint s (decRaise c s) :=
  ⟨rfl, rfl, rfl, rfl, rfl, writtenWithin_havoc_zero _ _ _⟩

theorem codecFootprint_encRaise (c : FaultCause) (s : State) : CodecFootprint s (encRaise c s) :=
  ⟨rfl, rfl, rfl, rfl, rfl, writtenWithin_havoc_zero _ _ _⟩

theorem codecFootprint_backReference (size dist len : Nat) (s : State) :
    CodecFootprint s (backReference size dist len s) := by
  rcases backReference_cases size dist len s with ⟨_, e⟩ | ⟨_, _, e⟩ | ⟨_, _, _, e⟩ | ⟨_, _, hfits, e⟩ <;> rw [e]
  · exact codecFootprint_decRaise _ s
  · exact codecFootprint_decRaise _ s
  · exact codecFootprint_decRaise _ s
  · exact codecFootprint_goesOn _ s.enc (writtenWithin_copyForward _ _ (Nat.zero_le _) hfits)

/-- An instruction of a frame, that is any but the three commands, writes `DST` only, below `DST_LEN`. -/
theorem codecFootprint_exec {s t : State} {i : Instr} (hi : i.context ≠ .command) (h : exec i s = .next t) :
    CodecFootprint s t := by
  cases i with
  | code k =>
    simp only [exec, execCode] at h
    split at h <;> cases h
    · exact codecFootprint_decRaise _ s
    · exact codecFootprint_goesOn _ s.enc (.refl _ _ _)
  | lit v =>
    simp only [exec, execLit] at h
    split at h
    · cases h
      exact codecFootprint_decRaise _ s
    · split at h <;> cases h
      · exact codecFootprint_decRaise _ s
      · exact codecFootprint_goesOn _ s.enc (writtenWithin_write _ _ (Nat.zero_le _) (by omega))
  | ref2 n d => cases h; exact codecFootprint_backReference _ _ _ s
  | ref3 d m => cases h; exact codecFootprint_backReference _ _ _ s
  | hdr size =>
    simp only [exec, execHdr] at h
    split at h <;> cases h
    · exact codecFootprint_encRaise _ s
    · next hfits =>
      exact codecFootprint_goesOn s.dec _ (writtenWithin_writeBytes _ _ (Nat.zero_le _) (Nat.le_of_not_lt hfits))
  | crc => exact absurd rfl hi
  | dec => exact absurd rfl hi
  | enc => exact absurd rfl hi

theorem codecFootprint_decComplete (s : State) : CodecFootprint s (decComplete s) :=
  codecFootprint_complete _ _ _ (.refl _ _ _)

theorem codecFootprint_decTurn {s t : State} (h : (decTurn s).outcome = .next t) : CodecFootprint s t := by
  rcases decTurn_cases s with ⟨_, e⟩ | ⟨_, i, hf, e⟩ | ⟨_, _, _, e⟩ <;> simp only [e] at h
  · cases h; exact codecFootprint_decComplete s
  · exact codecFootprint_exec (fetchToken_context_ne_command hf) h
  · cases h; exact codecFootprint_decRaise _ s

theorem codecFootprint_encMainLoop (s : State) : CodecFootprint s (encMainLoop s) := by
  unfold encMainLoop
  split <;> exact codecFootprint_goesOn s.dec _ (.refl _ _ _)

/-- Header, stream and padding fill the frame exactly (42_yaz0_encoder R232, R233). -/
theorem hdrLen_add_body_length (base : Nat) (stream : List Byte) :
    hdrLen + (stream ++ padding base stream.length).length = frameLen base stream.length := by
  simp only [List.length_append, padding, List.length_replicate, frameLen, hdrLen]
  omega

theorem codecFootprint_encBody (base : Nat) (s : State) : CodecFootprint s (encBody base s) := by
  unfold encBody
  split
  · exact codecFootprint_encRaise _ s
  · next hfits =>
    have hlen := hdrLen_add_body_length base s.enc.stream
    rw [EncRegs.encLen] at hfits
    exact codecFootprint_complete _ _ _ (writtenWithin_writeBytes _ _ (Nat.zero_le _) (by rw [EncRegs.encLen]; omega))

theorem codecFootprint_encTurn {s t : State} (h : (encTurn s).outcome = .next t) : CodecFootprint s t := by
  unfold encTurn at h
  split at h
  · cases h; exact codecFootprint_encMainLoop s
  · exact codecFootprint_exec (hdr_context_ne_command _) h
  · cases h; exact codecFootprint_encBody _ s

/-! ## Moves of the CRC unit -/

/-- What a move of the CRC unit may touch of the spaces and the lengths: the two words of `ROM`, as it ends `DONE`. -/
structure CrcFootprint (s t : State) : Prop where
  src : t.src = s.src
  dst : t.dst = s.dst
  srcLen : t.srcLen = s.srcLen
  dstLen : t.dstLen = s.dstLen
  romLen : t.romLen = s.romLen
  rom : WrittenWithin 0x10 0x18 s.rom t.rom
  rom_unless_done : t.status ≠ .done → t.rom = s.rom

theorem crcFootprint_raise (c : FaultCause) (p q : Nat) (s : State) : CrcFootprint s (raise c p q s) :=
  ⟨rfl, rfl, rfl, rfl, rfl, .refl _ _ _, fun _ => rfl⟩

/-- Before it writes back, the CRC unit changes its own registers, `CIC` and `BOOT_CRC`. -/
theorem crcFootprint_goesOn (s : State) (w w' : Word) (r : CrcRegs) :
    CrcFootprint s { s with cic := w, bootCrc := w', crcU := r } :=
  ⟨rfl, rfl, rfl, rfl, rfl, .refl _ _ _, fun _ => rfl⟩

theorem crcFootprint_writeBack (s : State) : CrcFootprint s (crcWriteBack s) :=
  ⟨rfl, rfl, rfl, rfl, rfl, writtenWithin_writeCrcWords _ _ _, fun h => absurd rfl h⟩

theorem crcFootprint_crcTurn (s : State) : CrcFootprint s (crcTurn s) := by
  unfold crcTurn
  cases s.crcU.phase with
  | bootBounds =>
    simp only [crcBootBounds]
    split
    · exact crcFootprint_raise _ _ _ s
    · exact crcFootprint_goesOn s s.cic s.bootCrc _
  | bootCrc =>
    simp only [crcBootByte]
    split
    · exact crcFootprint_goesOn s s.cic s.bootCrc _
    · exact crcFootprint_goesOn s s.cic _ _
  | identify =>
    simp only [crcIdentify]
    split
    · exact crcFootprint_raise _ _ _ s
    · exact crcFootprint_goesOn s _ s.bootCrc _
  | regionBounds =>
    simp only [crcRegionBounds]
    split
    · exact crcFootprint_raise _ _ _ s
    · exact crcFootprint_goesOn s s.cic s.bootCrc _
  | region =>
    simp only [crcWord]
    split <;> exact crcFootprint_goesOn s s.cic s.bootCrc _
  | finalise => exact crcFootprint_goesOn s s.cic s.bootCrc _
  | writeBack => exact crcFootprint_writeBack s

end Sys2Proof.Machine
end

section
/-! The canonical form of the spaces (log 1). -/

namespace Sys2Proof.Machine

theorem CodecFootprint.spacesOk {s t : State} (f : CodecFootprint s t) (h : s.SpacesOk) : t.SpacesOk := by
  obtain ⟨hsrc, hdst, hrom⟩ := h
  refine ⟨?_, f.dst.wf (Nat.le_of_lt s.dstLen.isLt) hdst, ?_⟩
  · rw [f.src]; exact hsrc
  · rw [f.rom]; exact hrom

theorem CrcFootprint.spacesOk {s t : State} (f : CrcFootprint s t) (h : s.SpacesOk) : t.SpacesOk := by
  obtain ⟨hsrc, hdst, hrom⟩ := h
  refine ⟨?_, ?_, f.rom.wf (by decide) hrom⟩
  · rw [f.src]; exact hsrc
  · rw [f.dst]; exact hdst

theorem State.SpacesOk.space {s : State} (h : s.SpacesOk) (sp : Space) : Memory.wf (s.space sp) = true := by
  obtain ⟨hsrc, hdst, hrom⟩ := h
  cases sp with
  | src => exact hsrc
  | dst => exact hdst
  | rom => exact hrom

theorem State.SpacesOk.withSpace {s : State} (h : s.SpacesOk) (sp : Space) {m : Memory} (hm : Memory.wf m = true) :
    (s.withSpace sp m).SpacesOk := by
  obtain ⟨hsrc, hdst, hrom⟩ := h
  cases sp with
  | src => exact ⟨hm, hdst, hrom⟩
  | dst => exact ⟨hsrc, hm, hrom⟩
  | rom => exact ⟨hsrc, hdst, hm⟩

/-- Acceptance of a command, or its being ignored, leaves the spaces. -/
theorem command_spaces {s t : State} {i : Instr} (hi : i = .crc ∨ i = .dec ∨ i = .enc) (h : exec i s = .next t) :
    t.src = s.src ∧ t.dst = s.dst ∧ t.rom = s.rom := by
  rcases command_cases s with ⟨_, hcrc, hdec, henc⟩ | ⟨_, hcrc, hdec, henc⟩ <;> rcases hi with rfl | rfl | rfl <;>
    simp only [hcrc, hdec, henc] at h <;> cases h <;> exact ⟨rfl, rfl, rfl⟩

theorem resetEvent_spacesOk {s : State} (h : s.SpacesOk) : (resetEvent s).SpacesOk := by
  have habandon : (abandonOutput s).SpacesOk := by
    obtain ⟨hsrc, hdst, hrom⟩ := h
    rcases abandonOutput_cases s with ⟨_, _, e⟩ | ⟨_, _, e⟩ | ⟨_, e⟩ <;> rw [e]
    · exact ⟨hsrc, hdst, wf_havoc (by decide) hrom⟩
    · exact ⟨hsrc, wf_havoc (by have := s.dstLen.isLt; omega) hdst, hrom⟩
    · exact ⟨hsrc, hdst, hrom⟩
  exact habandon

theorem spacesOk_kept : Kept State.SpacesOk where
  hostSide := fun _ _ _ _ h => h
  cmd := fun _ _ h => h
  lengths := fun _ _ _ h => ⟨h, h, h⟩
  command := fun _ _ _ _ hi he h => by
    obtain ⟨hsrc, hdst, hrom⟩ := command_spaces hi he
    rw [State.SpacesOk, hsrc, hdst, hrom]
    exact h
  illegal := fun _ _ h => h
  poke := fun _ sp _ v ha _ h => h.withSpace sp (wf_write v ha (h.space sp))
  bind := fun _ sp bytes hlen _ h => h.withSpace sp (wf_writeBytes bytes (by omega) rfl)
  reset := fun _ h => resetEvent_spacesOk h
  crcMove := fun s _ _ => (crcFootprint_crcTurn s).spacesOk
  decDone := fun s _ _ _ => (codecFootprint_decComplete s).spacesOk
  decShort := fun s _ _ _ => (codecFootprint_decRaise _ s).spacesOk
  decToken := fun _ _ _ _ _ _ hf he => (codecFootprint_exec (fetchToken_context_ne_command hf) he).spacesOk
  encTokens := fun s _ _ _ => (codecFootprint_encMainLoop s).spacesOk
  encHeader := fun _ _ _ _ _ he => (codecFootprint_exec (hdr_context_ne_command _) he).spacesOk
  encFrame := fun s _ _ _ => (codecFootprint_encBody _ s).spacesOk

/-- Settles O57: every kind of move keeps the canonical form, since each writes within the 32-bit offsets. -/
theorem spacesInvariant : Obligations.SpacesInvariant := fun _ _ hs h => spacesOk_kept.step hs h

end Sys2Proof.Machine
end

section
/-! What the block may touch when it moves (20_memory R80). -/

namespace Sys2Proof.Machine

/-- When the block moves, it moves from the state itself but for the host's side, which no unit looks at (log 3). -/
theorem step_of_blockMoves {s t : State} (hm : s.BlockMoves) (h : step s = .next t) :
    ∃ host readData, (blockTurn { s with host := host, readData := readData }).outcome = .next t := by
  rw [step_eq] at h
  rcases hm with hh | ⟨rest, hh⟩ | ⟨rest, hh⟩ <;> rw [turn, hh] at h
  · exact ⟨s.host, s.readData, h⟩
  · exact ⟨rest, s.readData, h⟩
  · simp only [pollTurn] at h
    cases hst : s.status with
    | busy => rw [hst] at h; exact ⟨s.host, _, h⟩
    | idle => rw [hst] at h; exact ⟨rest, s.regValue .status, by simpa [blockTurn, hst] using h⟩
    | done => rw [hst] at h; exact ⟨rest, s.regValue .status, by simpa [blockTurn, hst] using h⟩
    | fault => rw [hst] at h; exact ⟨rest, s.regValue .status, by simpa [blockTurn, hst] using h⟩

/-- What the block's move may touch: that of its running unit, and nothing while no operation runs. -/
theorem blockTurn_footprint {s t : State} (h : (blockTurn s).outcome = .next t) :
    (s.status = .busy ∧ s.unit = .crc ∧ CrcFootprint s t) ∨
    (s.status = .busy ∧ s.unit ≠ .crc ∧ CodecFootprint s t) ∨ (s.status ≠ .busy ∧ t = s) := by
  unfold blockTurn at h
  cases hst : s.status with
  | busy =>
    rw [hst] at h
    cases hu : s.unit with
    | crc => rw [hu] at h; cases h; exact .inl ⟨rfl, rfl, crcFootprint_crcTurn s⟩
    | dec => rw [hu] at h; exact .inr (.inl ⟨rfl, nofun, codecFootprint_decTurn h⟩)
    | enc => rw [hu] at h; exact .inr (.inl ⟨rfl, nofun, codecFootprint_encTurn h⟩)
  | idle => rw [hst] at h; cases h; exact .inr (.inr ⟨nofun, rfl⟩)
  | done => rw [hst] at h; cases h; exact .inr (.inr ⟨nofun, rfl⟩)
  | fault => rw [hst] at h; cases h; exact .inr (.inr ⟨nofun, rfl⟩)

/-- Settles O53, unit by unit. -/
theorem blockFootprint : Obligations.BlockFootprint := by
  intro s t hm h
  obtain ⟨host, readData, hmove⟩ := step_of_blockMoves hm h
  rcases blockTurn_footprint hmove with ⟨hb, hu, f⟩ | ⟨hb, hu, f⟩ | ⟨hb, rfl⟩
  · exact ⟨f.src, f.srcLen, f.dstLen, f.romLen, fun _ _ => by rw [f.dst], f.rom.outside, fun _ => f.dst,
      fun hnot => f.rom_unless_done (hnot.resolve_left (absurd hb) |>.resolve_left (absurd hu))⟩
  · exact ⟨f.src, f.srcLen, f.dstLen, f.romLen, fun a ha => f.dst.outside a (.inr ha), fun _ _ => by rw [f.rom],
      fun hnot => (hnot.elim (absurd hb) (absurd · hu)), fun _ => f.rom⟩
  · exact ⟨rfl, rfl, rfl, rfl, fun _ _ => rfl, fun _ _ => rfl, fun _ => rfl, fun _ => rfl⟩

end Sys2Proof.Machine
end

section
/-! The host's accesses to the spaces (20_memory R60, R75). -/

namespace Sys2Proof.Machine

variable {s t : State} {sp : Space} {last a : Nat} {v : Byte} {bytes : List Byte} {rest : List HostAction}

theorem spaceAccess_beyond (h : 2 ^ 32 < last) : spaceAccess sp last s t = .stop .noSuchOffset := if_pos h

theorem spaceAccess_inUse (h : last ≤ 2 ^ 32) (hu : s.CommandUses sp) :
    spaceAccess sp last s t = .refuse .hostSpaceWhileBusy := by
  rw [spaceAccess, if_neg (Nat.not_lt.mpr h), if_pos ((spaceInUse_iff s sp).mpr hu)]

theorem spaceAccess_free (h : last ≤ 2 ^ 32) (hu : ¬ s.CommandUses sp) : spaceAccess sp last s t = .settle t := by
  rw [spaceAccess, if_neg (Nat.not_lt.mpr h), if_neg (mt (spaceInUse_iff s sp).mp hu)]

/-- What the host has still to do is no part of a space. -/
theorem space_withHost (s : State) (rest : List HostAction) (sp : Space) :
    State.space { s with host := rest } sp = s.space sp := by cases sp <;> rfl

theorem step_poke (hh : s.host = .poke sp a v :: rest) :
    step s = (spaceAccess sp (a + 1) { s with host := rest }
      (State.withSpace { s with host := rest } sp (Memory.write (s.space sp) a v))).outcome := by
  rw [step_hostAction hh nofun nofun, hostTurn, space_withHost]

theorem step_peek (hh : s.host = .peek sp a :: rest) :
    step s = (spaceAccess sp (a + 1) { s with host := rest }
      { s with host := rest, readData := (Memory.read (s.space sp) a).setWidth 32 }).outcome := by
  rw [step_hostAction hh nofun nofun, hostTurn, space_withHost]

theorem step_bind (hh : s.host = .bind sp bytes :: rest) :
    step s = (spaceAccess sp bytes.length { s with host := rest }
      (State.withSpace { s with host := rest } sp (Memory.writeBytes [] 0 bytes))).outcome :=
  step_hostAction hh nofun nofun

theorem step_of_beyond (ha : 2 ^ 32 ≤ a) (hh : s.host = .poke sp a v :: rest ∨ s.host = .peek sp a :: rest) :
    step s = .fault .noSuchOffset := by
  have hlast : 2 ^ 32 < a + 1 := Nat.lt_succ_of_le ha
  rcases hh with hh | hh
  · rw [step_poke hh, spaceAccess_beyond hlast]; rfl
  · rw [step_peek hh, spaceAccess_beyond hlast]; rfl

theorem step_of_inUse (hu : s.CommandUses sp) (ha : a < 2 ^ 32)
    (hh : s.host = .poke sp a v :: rest ∨ s.host = .peek sp a :: rest) : step s = .refused .hostSpaceWhileBusy := by
  rcases hh with hh | hh
  · rw [step_poke hh, spaceAccess_inUse (s := { s with host := rest }) ha hu]; rfl
  · rw [step_peek hh, spaceAccess_inUse (s := { s with host := rest }) ha hu]; rfl

theorem step_poke_of_free (hu : ¬ s.CommandUses sp) (ha : a < 2 ^ 32) (hh : s.host = .poke sp a v :: rest) :
    step s = .next (State.withSpace { s with host := rest } sp (Memory.write (s.space sp) a v)) := by
  rw [step_poke hh, spaceAccess_free (s := { s with host := rest }) ha hu]; rfl

theorem step_peek_of_free (hu : ¬ s.CommandUses sp) (ha : a < 2 ^ 32) (hh : s.host = .peek sp a :: rest) :
    step s = .next { s with host := rest, readData := (Memory.read (s.space sp) a).setWidth 32 } := by
  rw [step_peek hh, spaceAccess_free (s := { s with host := rest }) ha hu]; rfl

theorem step_bind_of_free (hu : ¬ s.CommandUses sp) (hlen : bytes.length ≤ 2 ^ 32)
    (hh : s.host = .bind sp bytes :: rest) :
    step s = .next (State.withSpace { s with host := rest } sp (Memory.writeBytes [] 0 bytes)) := by
  rw [step_bind hh, spaceAccess_free (s := { s with host := rest }) hlen hu]; rfl

/-- The other bytes of the space and the other spaces are as they were after a byte is written. -/
theorem read_withSpace_write_ne (s : State) (v : Byte) {sp sp' : Space} {a b : Nat} (h : sp' ≠ sp ∨ b ≠ a) :
    Memory.read ((s.withSpace sp (Memory.write (s.space sp) a v)).space sp') b = Memory.read (s.space sp') b := by
  by_cases hsp : sp' = sp
  · subst hsp
    rw [withSpace_space, read_write_ne _ _ (h.resolve_left (absurd rfl))]
  · rw [withSpace_space_ne _ _ _ hsp]

end Sys2Proof.Machine

namespace Sys2Proof.Machine

/-- Settles O16, action by action: stopped, refused or done. -/
theorem hostSpaceAccess : Obligations.HostSpaceAccess := by
  intro s sp a v bytes rest
  refine ⟨fun hu => ⟨fun ha hh => step_of_inUse hu ha hh, fun hlen hh => ?_⟩, fun ha hh => step_of_beyond ha hh,
    fun hlen hh => ?_, fun hu => ⟨fun ha hh => ?_, fun ha hh => step_peek_of_free hu ha hh, fun hlen hh => ?_⟩⟩
  · rw [step_bind hh, spaceAccess_inUse (s := { s with host := rest }) hlen hu]; rfl
  · rw [step_bind hh, spaceAccess_beyond hlen]; rfl
  · refine ⟨_, step_poke_of_free hu ha hh, ?_, fun sp' b hne => ?_, withSpace_eq _ _ _⟩
    · rw [withSpace_space, read_write_same]
    · rw [← space_withHost s rest sp, read_withSpace_write_ne _ _ hne, space_withHost]
  · refine ⟨_, step_bind_of_free hu hlen hh, fun k hk => ?_, fun sp' hne => ?_, withSpace_eq _ _ _⟩
    · rw [withSpace_space, ← read_writeBytes_inside [] bytes hk, Nat.zero_add]
    · rw [withSpace_space_ne _ _ _ hne, space_withHost]

end Sys2Proof.Machine
end

section
/-! SUPPORT. A whole `CRC` operation with nothing in its way (40_cic_checksum R130 to R151): the CRC unit's phases one by one,
the run from acceptance to `DONE`, and what of `ROM` its results depend on (R69). -/

namespace Sys2Proof.Machine

/-! ## One move of the unit -/

/-- How many moves the unit still makes before it writes back: one for each byte and each word, and one for each of the single
acts between them. -/
def CrcRegs.movesLeft (r : CrcRegs) : Nat :=
  match r.phase with
  | .bootBounds => bootLen + ckWords + 6
  | .bootCrc => bootOff + bootLen - r.a + ckWords + 5
  | .identify => ckWords + 4
  | .regionBounds => ckWords + 3
  | .region => (ckOff + ckLen - r.i) / 4 + 2
  | .finalise => 1
  | .writeBack => 0

theorem movesLeft_eq_zero_iff (r : CrcRegs) : r.movesLeft = 0 ↔ r.phase = .writeBack := by
  unfold CrcRegs.movesLeft
  cases r.phase <;> simp

/-- The state with the CRC unit's results so far. -/
def State.withCrc (s : State) (cic bootCrc : Word) (r : CrcRegs) : State :=
  { s with cic := cic, bootCrc := bootCrc, crcU := r }

/-- The unit goes on towards the write-back: it changes its own registers, `CIC` and `BOOT_CRC` only, has computed what its
new phase says, and is one move nearer. -/
structure CrcGoesOn (s t : State) : Prop where
  frame : t = s.withCrc t.cic t.bootCrc t.crcU
  phaseOk : t.CrcPhaseOk
  left : t.crcU.movesLeft + 1 = s.crcU.movesLeft

section moves
variable {s : State} {v : CicVersion}

theorem crcBootBounds_goesOn (hp : s.crcU.phase = .bootBounds) (h : s.CrcPhaseOk)
    (hlen : bootOff + bootLen ≤ s.romLen.toNat) : CrcGoesOn s (crcBootBounds s) := by
  simp only [State.CrcPhaseOk, hp] at h
  obtain ⟨hcic, hboot⟩ := h
  rw [crcBootBounds, if_neg (Nat.not_lt.mpr hlen)]
  refine ⟨rfl, ⟨hcic, hboot, hlen, Nat.le_refl _, by simp, by simp [Memory.readBytes]⟩, ?_⟩
  simp only [CrcRegs.movesLeft, hp]
  omega

theorem crcBootByte_goesOn (hp : s.crcU.phase = .bootCrc) (h : s.CrcPhaseOk) : CrcGoesOn s (crcBootByte s) := by
  simp only [State.CrcPhaseOk, hp] at h
  obtain ⟨hcic, hboot, hlen, hlow, hhigh, hc⟩ := h
  unfold crcBootByte
  split
  · next hlt =>
    refine ⟨rfl, ?_, ?_⟩
    · simp only [State.CrcPhaseOk, hp]
      refine ⟨hcic, hboot, hlen, by omega, by omega, ?_⟩
      rw [show s.crcU.a + 1 - bootOff = s.crcU.a - bootOff + 1 from by omega, foldl_crc32_succ, ← hc,
        show bootOff + (s.crcU.a - bootOff) = s.crcU.a from by omega]
    · simp only [CrcRegs.movesLeft, hp]
      omega
  · next hge =>
    have ha : s.crcU.a - bootOff = bootLen := by omega
    have hcrc : crc32Final s.crcU.c = bootCrcOf s.rom := by rw [hc, ha]; rfl
    refine ⟨rfl, ⟨hcic, hlen, hcrc, hcrc⟩, ?_⟩
    simp only [CrcRegs.movesLeft, hp]
    omega

theorem crcIdentify_goesOn (hp : s.crcU.phase = .identify) (h : s.CrcPhaseOk)
    (hv : cicOfBootCrc (bootCrcOf s.rom) = some v) : CrcGoesOn s (crcIdentify s) := by
  simp only [State.CrcPhaseOk, hp] at h
  obtain ⟨_, hlen, hboot, hunit⟩ := h
  rw [crcIdentify, hunit, hv]
  refine ⟨rfl, ⟨hlen, hv, hboot, rfl, rfl, rfl⟩, ?_⟩
  simp only [CrcRegs.movesLeft, hp]

theorem crcRegionBounds_goesOn (hp : s.crcU.phase = .regionBounds) (h : s.CrcPhaseOk)
    (hlen : ckOff + ckLen ≤ s.romLen.toNat) : CrcGoesOn s (crcRegionBounds s) := by
  simp only [State.CrcPhaseOk, hp] at h
  obtain ⟨_, hid⟩ := h
  have ⟨_, _, _, _, hseed⟩ := hid
  rw [crcRegionBounds, if_neg (Nat.not_lt.mpr hlen)]
  refine ⟨rfl, ⟨hlen, hid, 0, Nat.zero_le _, rfl, ?_⟩, ?_⟩
  · rw [checksumWords, ← hseed]
  · simp only [CrcRegs.movesLeft, hp, ckLen, ckWords]
    omega

/-- The step with the table word the unit has loaded, which is a table word for CIC 6105 only (R145). -/
theorem checksumStep_tableWord (s : State) (d : Word) (t : Acc) :
    checksumStep s.crcU.cic (tableWord s) d t =
      checksumStep s.crcU.cic (Memory.read32 s.rom (tableOffset s.crcU.i)) d t := by
  by_cases hv : s.crcU.cic = .v6105
  · rw [tableWord, if_pos hv]
  · exact checksumStep_no_table hv _ _ _ _

theorem crcWord_goesOn (hp : s.crcU.phase = .region) (h : s.CrcPhaseOk) : CrcGoesOn s (crcWord s) := by
  simp only [State.CrcPhaseOk, hp] at h
  obtain ⟨hlen, hid, w, hw, hi, ht⟩ := h
  have hpos : s.crcU.i = ckOff + 4 * w := hi
  unfold crcWord
  split
  · next hlt =>
    have hlt' : w < ckWords := by
      simp only [ckLen, ckWords] at *
      omega
    refine ⟨rfl, ?_, ?_⟩
    · simp only [State.CrcPhaseOk, hp]
      refine ⟨hlen, hid, w + 1, hlt', ?_, ?_⟩
      · rw [hpos, wordOffset]
        omega
      · rw [checksumStep_tableWord, hi, ht, checksumWords]
    · simp only [CrcRegs.movesLeft, hp, hpos, ckLen, ckWords] at *
      omega
  · next hge =>
    have hend : w = ckWords := by
      simp only [ckLen, ckWords] at *
      omega
    subst hend
    refine ⟨rfl, ⟨hlen, hid, ht⟩, ?_⟩
    simp only [CrcRegs.movesLeft, hp]
    omega

theorem crcFinalise_goesOn (hp : s.crcU.phase = .finalise) (h : s.CrcPhaseOk) : CrcGoesOn s (crcFinalise s) := by
  simp only [State.CrcPhaseOk, hp] at h
  obtain ⟨hlen, hid, ht⟩ := h
  refine ⟨rfl, ⟨hlen, hid, ?_, ?_⟩, ?_⟩
  · exact congrArg (finalCrc1 s.crcU.cic) ht
  · exact congrArg (finalCrc2 s.crcU.cic) ht
  · simp only [crcFinalise, CrcRegs.movesLeft, hp]

/-- With a known boot block and the whole region valid nothing keeps the unit from going on to the write-back. -/
theorem crcTurn_goesOn (h : s.CrcPhaseOk) (hlen : ckOff + ckLen ≤ s.romLen.toNat)
    (hv : cicOfBootCrc (bootCrcOf s.rom) = some v) (hp : s.crcU.phase ≠ .writeBack) : CrcGoesOn s (crcTurn s) := by
  have hboot : bootOff + bootLen ≤ s.romLen.toNat := Nat.le_trans (by decide) hlen
  unfold crcTurn
  cases hphase : s.crcU.phase with
  | bootBounds => exact crcBootBounds_goesOn hphase h hboot
  | bootCrc => exact crcBootByte_goesOn hphase h
  | identify => exact crcIdentify_goesOn hphase h hv
  | regionBounds => exact crcRegionBounds_goesOn hphase h hlen
  | region => exact crcWord_goesOn hphase h
  | finalise => exact crcFinalise_goesOn hphase h
  | writeBack => exact absurd hphase hp

end moves

/-! ## The run -/

theorem step_crcTurn {s : State} (hh : s.host = []) (hb : s.status = .busy) (hu : s.unit = .crc) :
    step s = .next (crcTurn s) := by
  rw [step_eq, turn, hh]
  simp only [blockTurn, hb, hu]
  rfl

/-- The unit reaches its write-back, having changed its own registers, `CIC` and `BOOT_CRC` only. -/
theorem run_to_writeBack {v : CicVersion} (k : Nat) : ∀ {s : State}, s.host = [] → s.status = .busy → s.unit = .crc →
    s.CrcPhaseOk → ckOff + ckLen ≤ s.romLen.toNat → cicOfBootCrc (bootCrcOf s.rom) = some v → s.crcU.movesLeft = k →
      ∃ cic bootCrc r, run k s = .next (s.withCrc cic bootCrc r) ∧ r.phase = .writeBack ∧
        (s.withCrc cic bootCrc r).CrcPhaseOk := by
  induction k with
  | zero =>
    intro s _ _ _ hok _ _ hk
    exact ⟨s.cic, s.bootCrc, s.crcU, run_zero s, (movesLeft_eq_zero_iff _).mp hk, hok⟩
  | succ k ih =>
    intro s hh hb hu hok hlen hv hk
    have hp : s.crcU.phase ≠ .writeBack := fun hp => by rw [(movesLeft_eq_zero_iff _).mpr hp] at hk; cases hk
    obtain ⟨hframe, hok', hleft⟩ := crcTurn_goesOn hok hlen hv hp
    have hstep := step_crcTurn hh hb hu
    generalize crcTurn s = t at hframe hok' hleft hstep
    rw [hframe] at hok' hstep
    obtain ⟨cic, bootCrc, r, hrun, hwb, hend⟩ :=
      ih (s := s.withCrc t.cic t.bootCrc t.crcU) hh hb hu hok' hlen hv (show t.crcU.movesLeft = k by omega)
    exact ⟨cic, bootCrc, r, by rw [run_succ_of_next hstep]; exact hrun, hwb, hend⟩

/-- The state a `CRC` that finds CIC version `v` ends in (R132, R134, R149, R151): the results are those of the ROM it started
with. `r` is what the working registers are left with. -/
def crcResult (v : CicVersion) (r : CrcRegs) (s : State) : State :=
  complete 0 0 0
    { s.withCrc v.number (bootCrcOf s.rom) r with
      rom := writeCrcWords s.rom (romCrc1 v s.rom) (romCrc2 v s.rom), crc1 := romCrc1 v s.rom, crc2 := romCrc2 v s.rom }

/-- The write-back, with everything before it computed, completes the operation. -/
theorem crcWriteBack_eq_crcResult {s : State} {v : CicVersion} {cic bootCrc : Word} {r : CrcRegs}
    (hp : r.phase = .writeBack) (h : (s.withCrc cic bootCrc r).CrcPhaseOk)
    (hv : cicOfBootCrc (bootCrcOf s.rom) = some v) :
    crcWriteBack (s.withCrc cic bootCrc r) = crcResult v r s := by
  simp only [State.CrcPhaseOk, State.withCrc, hp] at h
  obtain ⟨_, ⟨hid, hboot, hcic, _, _⟩, hcrc1, hcrc2⟩ := h
  have hver : r.cic = v := Option.some.inj (hid.symm.trans hv)
  simp only [hver] at hboot hcic hcrc1 hcrc2
  simp only [crcWriteBack, crcResult, State.withCrc, hboot, hcic, hcrc1, hcrc2]

section crcResult
variable (v : CicVersion) (r : CrcRegs) (s : State)

@[simp] theorem crcResult_status : (crcResult v r s).status = .done := rfl
@[simp] theorem crcResult_host : (crcResult v r s).host = s.host := rfl
@[simp] theorem crcResult_romLen : (crcResult v r s).romLen = s.romLen := rfl
@[simp] theorem crcResult_cic : (crcResult v r s).cic = v.number := rfl
@[simp] theorem crcResult_bootCrc : (crcResult v r s).bootCrc = bootCrcOf s.rom := rfl
@[simp] theorem crcResult_crc1 : (crcResult v r s).crc1 = romCrc1 v s.rom := rfl
@[simp] theorem crcResult_crc2 : (crcResult v r s).crc2 = romCrc2 v s.rom := rfl
@[simp] theorem crcResult_rom :
    (crcResult v r s).rom = writeCrcWords s.rom (romCrc1 v s.rom) (romCrc2 v s.rom) := rfl

end crcResult

/-- The length of a whole `CRC` operation, in moves (R130, log 9). -/
def crcMoves : Nat := bootLen + ckWords + 7

/-- The state an accepted `CRC` starts from. -/
def crcStarted (s : State) : State := { accept .crc s with crcU := CrcRegs.start }

@[simp] theorem crcStarted_host (s : State) : (crcStarted s).host = s.host := rfl
@[simp] theorem crcStarted_romLen (s : State) : (crcStarted s).romLen = s.romLen := rfl
@[simp] theorem crcStarted_rom (s : State) : (crcStarted s).rom = s.rom := rfl

theorem exec_crc_of_not_busy {s : State} (hb : s.status ≠ .busy) : exec .crc s = .next (crcStarted s) := if_neg hb

/-- `CRC` from acceptance to `DONE`, with a known boot block and the whole region valid. -/
theorem run_crcStarted {s : State} {v : CicVersion} (hh : s.host = []) (hlen : 0x101000 ≤ s.romLen.toNat)
    (hv : cicOfBootCrc (bootCrcOf s.rom) = some v) :
    ∃ r, run crcMoves (crcStarted s) = .next (crcResult v r (crcStarted s)) := by
  obtain ⟨cic, bootCrc, r, hrun, hp, hok⟩ :=
    run_to_writeBack (s := crcStarted s) (bootLen + ckWords + 6) hh rfl rfl ⟨rfl, rfl⟩ hlen hv rfl
  refine ⟨r, ?_⟩
  have hlast : step ((crcStarted s).withCrc cic bootCrc r) = .next (crcResult v r (crcStarted s)) := by
    rw [step_crcTurn (s := (crcStarted s).withCrc cic bootCrc r) hh rfl rfl,
      ← crcWriteBack_eq_crcResult (s := crcStarted s) hp hok hv]
    simp only [crcTurn, State.withCrc, hp]
  rw [crcMoves, run_add 1 hrun, run_succ_of_next hlast, run_zero]

/-! ## What the results depend on -/

theorem AgreeOn.mono {m m' : Memory} {a b a' b' : Nat} (h : AgreeOn m m' a b) (ha : a ≤ a') (hb : b' ≤ b) :
    AgreeOn m m' a' b' := fun x h1 h2 => h x (Nat.le_trans ha h1) (Nat.lt_of_lt_of_le h2 hb)

theorem AgreeOn.read32 {m m' : Memory} {a b p : Nat} (h : AgreeOn m m' a b) (ha : a ≤ p) (hb : p + 4 ≤ b) :
    Memory.read32 m p = Memory.read32 m' p := read32_congr (h.mono ha hb)

/-- The boot CRC depends on `ROM[0x40..0x1000)` only (R132). -/
theorem bootCrcOf_congr {m m' : Memory} (h : AgreeOn m m' 0x40 0x101000) : bootCrcOf m = bootCrcOf m' :=
  congrArg crc32 (readBytes_congr bootLen m m' bootOff (h.mono (by decide) (by decide)))

/-- The accumulators depend on the words of the region and, by the table of CIC 6105, on the boot block (R140, R145). -/
theorem checksumWords_congr {m m' : Memory} (v : CicVersion) (h : AgreeOn m m' 0x40 0x101000) :
    ∀ w, w ≤ ckWords → checksumWords v m w = checksumWords v m' w := by
  intro w
  induction w with
  | zero => intro _; rfl
  | succ w ih =>
    intro hw
    have htable : Memory.read32 m (tableOffset (wordOffset w)) = Memory.read32 m' (tableOffset (wordOffset w)) := by
      refine h.read32 ?_ ?_ <;> simp only [tableOffset, tbl6105Off] <;> omega
    have hword : Memory.read32 m (wordOffset w) = Memory.read32 m' (wordOffset w) := by
      refine h.read32 ?_ ?_ <;> simp only [wordOffset, ckOff, ckWords] at * <;> omega
    rw [checksumWords, checksumWords, htable, hword, ih (by omega)]

theorem romCrc1_congr {m m' : Memory} (v : CicVersion) (h : AgreeOn m m' 0x40 0x101000) : romCrc1 v m = romCrc1 v m' :=
  congrArg (finalCrc1 v) (checksumWords_congr v h ckWords (Nat.le_refl _))

theorem romCrc2_congr {m m' : Memory} (v : CicVersion) (h : AgreeOn m m' 0x40 0x101000) : romCrc2 v m = romCrc2 v m' :=
  congrArg (finalCrc2 v) (checksumWords_congr v h ckWords (Nat.le_refl _))

/-- The write-back is outside of what the checksums read (R150). -/
theorem agreeOn_writeCrcWords (rom : Memory) (w1 w2 : Word) :
    AgreeOn (writeCrcWords rom w1 w2) rom 0x40 0x101000 := fun x hx _ =>
  (writtenWithin_writeCrcWords rom w1 w2).outside x (.inr (Nat.le_trans (by decide) hx))

/-- Every byte of a ROM with the two words written. -/
theorem read_writeCrcWords (rom : Memory) (w1 w2 : Word) (a : Nat) :
    Memory.read (writeCrcWords rom w1 w2) a =
      if 0x14 ≤ a ∧ a < 0x18 then (be32Bytes w2).getD (a - 0x14) 0
      else if 0x10 ≤ a ∧ a < 0x14 then (be32Bytes w1).getD (a - 0x10) 0
      else Memory.read rom a := by
  rw [writeCrcWords, Memory.write32, read_writeBytes, Memory.write32, read_writeBytes]
  rfl

/-- The same words written again change no byte. -/
theorem read_writeCrcWords_again (rom : Memory) (w1 w2 : Word) (a : Nat) :
    Memory.read (writeCrcWords (writeCrcWords rom w1 w2) w1 w2) a = Memory.read (writeCrcWords rom w1 w2) a := by
  rw [read_writeCrcWords, read_writeCrcWords]
  split
  · rfl
  · split <;> rfl

end Sys2Proof.Machine
end

section
/-! A second `CRC` on the ROM the first one left (20_memory R69, 40_cic_checksum R150). -/

namespace Sys2Proof.Machine

/-- Settles O50: the first write-back is outside of what the second operation reads, so it computes the same words. -/
theorem crcIdempotent : Obligations.CrcIdempotent := by
  intro s s1 v hh hb hlen hv h
  rw [exec_crc_of_not_busy hb] at h
  cases h
  obtain ⟨r, hrun⟩ := run_crcStarted hh hlen hv
  have hagree : AgreeOn (crcResult v r (crcStarted s)).rom s.rom 0x40 0x101000 := by
    rw [crcResult_rom, crcStarted_rom]
    exact agreeOn_writeCrcWords _ _ _
  obtain ⟨r', hrun'⟩ := run_crcStarted (s := crcResult v r (crcStarted s)) hh hlen (by rw [bootCrcOf_congr hagree, hv])
  refine ⟨_, _, _, _, _, hrun, crcResult_status _ _ _, exec_crc_of_not_busy nofun, hrun', crcResult_status _ _ _,
    ?_, ?_, ?_, ?_, fun a => ?_⟩
  · rw [crcResult_crc1, crcStarted_rom, romCrc1_congr v hagree, crcResult_crc1, crcStarted_rom]
  · rw [crcResult_crc2, crcStarted_rom, romCrc2_congr v hagree, crcResult_crc2, crcStarted_rom]
  · rw [crcResult_cic, crcResult_cic]
  · rw [crcResult_bootCrc, crcStarted_rom, bootCrcOf_congr hagree, crcResult_bootCrc, crcStarted_rom]
  · rw [crcResult_rom, crcStarted_rom, romCrc1_congr v hagree, romCrc2_congr v hagree, crcResult_rom, crcStarted_rom,
      read_writeCrcWords_again]

end Sys2Proof.Machine
end

section
/-! Cutting bytes and words into the fields of an encoding, and putting them together again (00_scope R12, 30_encoding R102
to R104). -/

namespace Sys2Proof

theorem toNat_append_eq_add {m n : Nat} (x : BitVec m) (y : BitVec n) : (x ++ y).toNat = x.toNat * 2 ^ n + y.toNat := by
  rw [BitVec.toNat_append, ← Nat.shiftLeft_add_eq_or_of_lt y.isLt, Nat.shiftLeft_eq]

theorem highNibble_append (n x : BitVec 4) : BitVec.extractLsb' 4 4 (n ++ x : Byte) = n :=
  BitVec.extractLsb'_append_eq_left

theorem lowNibble_append (n x : BitVec 4) : BitVec.extractLsb' 0 4 (n ++ x : Byte) = x :=
  BitVec.extractLsb'_append_eq_right

theorem highNibble_append_lowNibble (b : Byte) : (b.extractLsb' 4 4 ++ b.extractLsb' 0 4 : Byte) = b :=
  BitVec.extractLsb'_append_extractLsb'

theorem distField_extract_high (b1 b2 : Byte) : (distField b1 b2).extractLsb' 8 4 = b1.extractLsb' 0 4 :=
  BitVec.extractLsb'_append_eq_left

theorem distField_extract_low (b1 b2 : Byte) : (distField b1 b2).extractLsb' 0 8 = b2 :=
  BitVec.extractLsb'_append_eq_right

/-- The distance field of the two bytes the encoder writes for a distance, whatever the first byte's high nibble is. -/
theorem distField_of_encoded (n : BitVec 4) (d : BitVec 12) :
    distField (n ++ d.extractLsb' 8 4) (d.extractLsb' 0 8) = d := by
  unfold distField
  rw [lowNibble_append]
  exact BitVec.extractLsb'_append_extractLsb'

theorem distField_toNat (b1 b2 : Byte) : (distField b1 b2).toNat = b1.toNat % 16 * 256 + b2.toNat := by
  unfold distField
  rw [toNat_append_eq_add, BitVec.extractLsb'_toNat, Nat.shiftRight_zero]
  rfl

/-- The two bytes that hold a distance, below the nibble `n` (R102, R103). -/
theorem distBytes_toNat (n : BitVec 4) {dist : Nat} (h : dist ≤ 0xFFF) :
    (n ++ (BitVec.ofNat 12 dist).extractLsb' 8 4 : Byte).toNat = n.toNat * 16 + dist / 256 ∧
      ((BitVec.ofNat 12 dist).extractLsb' 0 8).toNat = dist % 256 := by
  have hd : (BitVec.ofNat 12 dist).toNat = dist := by rw [BitVec.toNat_ofNat]; omega
  constructor
  · rw [toNat_append_eq_add, BitVec.extractLsb'_toNat, hd, Nat.shiftRight_eq_div_pow]
    omega
  · rw [BitVec.extractLsb'_toNat, hd, Nat.shiftRight_zero]

theorem be32_toNat (b0 b1 b2 b3 : Byte) :
    (be32 b0 b1 b2 b3).toNat = b0.toNat * 2 ^ 24 + b1.toNat * 2 ^ 16 + b2.toNat * 2 ^ 8 + b3.toNat := by
  unfold be32
  rw [toNat_append_eq_add, toNat_append_eq_add, toNat_append_eq_add]
  omega

theorem be32_of_be32Bytes (v : Word) :
    be32 (v.extractLsb' 24 8) (v.extractLsb' 16 8) (v.extractLsb' 8 8) (v.extractLsb' 0 8) = v := by
  apply BitVec.eq_of_toNat_eq
  simp only [be32_toNat, BitVec.extractLsb'_toNat, Nat.shiftRight_eq_div_pow]
  omega

/-- A byte of a big-endian word, cut out by division where `k` bits stand below it. -/
theorem extractLsb'_be32_eq {b0 b1 b2 b3 b : Byte} (k : Nat)
    (h : (b0.toNat * 2 ^ 24 + b1.toNat * 2 ^ 16 + b2.toNat * 2 ^ 8 + b3.toNat) / 2 ^ k % 2 ^ 8 = b.toNat) :
    (be32 b0 b1 b2 b3).extractLsb' k 8 = b := by
  apply BitVec.eq_of_toNat_eq
  rw [BitVec.extractLsb'_toNat, be32_toNat, Nat.shiftRight_eq_div_pow, h]

theorem be32Bytes_be32 (b0 b1 b2 b3 : Byte) : be32Bytes (be32 b0 b1 b2 b3) = [b0, b1, b2, b3] := by
  unfold be32Bytes
  rw [extractLsb'_be32_eq (b := b0) 24 (by omega), extractLsb'_be32_eq (b := b1) 16 (by omega),
    extractLsb'_be32_eq (b := b2) 8 (by omega), extractLsb'_be32_eq (b := b3) 0 (by omega)]

end Sys2Proof
end

section
/-! What the decoder reads from each item's bytes, and what the bytes of an answer were (30_encoding R90 to R113). -/

namespace Sys2Proof

variable {bs rest : List Byte} {i : Instr} {b1 b2 b3 : Byte}

theorem decodeBackRef_of_highNibble_ne_zero (h : b1.extractLsb' 4 4 ≠ 0) :
    decodeBackRef (b1 :: b2 :: rest) = .ok (.ref2 (b1.extractLsb' 4 4) (distField b1 b2), rest) :=
  if_pos (bne_iff_ne.mpr h)

theorem decodeBackRef_of_highNibble_eq_zero (h : b1.extractLsb' 4 4 = 0) :
    decodeBackRef (b1 :: b2 :: b3 :: rest) = .ok (.ref3 (distField b1 b2) b3, rest) :=
  if_neg fun hne => bne_iff_ne.mp hne h

theorem decodeHeader_encode (size : Word) : decodeHeader (encode (.hdr size) ++ rest) = .ok (.hdr size, rest) :=
  congrArg (fun v => Except.ok (Instr.hdr v, rest)) (be32_of_be32Bytes size)

theorem decodeCommandBytes_be32Bytes (w : Word) :
    decodeCommandBytes (be32Bytes w ++ rest) = (decodeCommand w).map fun i => (i, rest) :=
  congrArg (fun v => (decodeCommand v).map fun i => (i, rest)) (be32_of_be32Bytes w)

theorem decodeCodeByte_ok (h : decodeCodeByte bs = .ok (i, rest)) : ∃ k, bs = k :: rest ∧ i = .code k := by
  cases bs with
  | nil => cases h
  | cons k bs => cases h; exact ⟨k, rfl, rfl⟩

theorem decodeLiteral_ok (h : decodeLiteral bs = .ok (i, rest)) : ∃ v, bs = v :: rest ∧ i = .lit v := by
  cases bs with
  | nil => cases h
  | cons v bs => cases h; exact ⟨v, rfl, rfl⟩

theorem decodeBackRef_ok (h : decodeBackRef bs = .ok (i, rest)) :
    (∃ b1 b2, bs = b1 :: b2 :: rest ∧ b1.extractLsb' 4 4 ≠ 0 ∧ i = .ref2 (b1.extractLsb' 4 4) (distField b1 b2)) ∨
    (∃ b1 b2 b3, bs = b1 :: b2 :: b3 :: rest ∧ b1.extractLsb' 4 4 = 0 ∧ i = .ref3 (distField b1 b2) b3) := by
  match bs with
  | [] | [_] => cases h
  | b1 :: b2 :: tail =>
    by_cases hn : b1.extractLsb' 4 4 = 0
    · match tail with
      | [] => rw [decodeBackRef, if_neg fun hne => bne_iff_ne.mp hne hn] at h; cases h
      | b3 :: tail =>
        rw [decodeBackRef_of_highNibble_eq_zero hn] at h
        cases h
        exact .inr ⟨b1, b2, b3, rfl, hn, rfl⟩
    · rw [decodeBackRef_of_highNibble_ne_zero hn] at h
      cases h
      exact .inl ⟨b1, b2, rfl, hn, rfl⟩

theorem decodeHeader_ok (h : decodeHeader bs = .ok (i, rest)) :
    ∃ s0 s1 s2 s3, bs = magicBytes ++ [s0, s1, s2, s3] ++ reservedBytes ++ rest ∧ i = .hdr (be32 s0 s1 s2 s3) := by
  unfold decodeHeader at h
  split at h
  · next m0 m1 m2 m3 s0 s1 s2 s3 z0 z1 z2 z3 z4 z5 z6 z7 tail =>
    split at h
    · cases h
    · next hmagic =>
      split at h
      · cases h
      · next hreserved =>
        have hm : [m0, m1, m2, m3] = magicBytes := by simpa using hmagic
        have hz : [z0, z1, z2, z3, z4, z5, z6, z7] = reservedBytes := by simpa using hreserved
        cases h
        exact ⟨s0, s1, s2, s3, by rw [← hm, ← hz]; rfl, rfl⟩
  · cases h

theorem decodeCommandBytes_ok (h : decodeCommandBytes bs = .ok (i, rest)) :
    ∃ w, bs = be32Bytes w ++ rest ∧ decodeCommand w = .ok i := by
  match bs with
  | [] | [_] | [_, _] | [_, _, _] => cases h
  | b0 :: b1 :: b2 :: b3 :: tail =>
    simp only [decodeCommandBytes] at h
    cases hc : decodeCommand (be32 b0 b1 b2 b3) with
    | error e => rw [hc] at h; cases h
    | ok j =>
      rw [hc] at h
      cases h
      exact ⟨be32 b0 b1 b2 b3, by rw [be32Bytes_be32]; rfl, hc⟩

theorem encode_ref2_of_bytes (b1 b2 : Byte) : encode (.ref2 (b1.extractLsb' 4 4) (distField b1 b2)) = [b1, b2] := by
  rw [encode, distField_extract_high, distField_extract_low, highNibble_append_lowNibble]

theorem encode_ref3_of_bytes (b3 : Byte) (h : b1.extractLsb' 4 4 = 0#4) :
    encode (.ref3 (distField b1 b2) b3) = [b1, b2, b3] := by
  rw [encode, distField_extract_high, distField_extract_low, ← h, highNibble_append_lowNibble]

end Sys2Proof
end

section
/-! The encoding and the decoding of an item are inverse to each other (30_encoding R90 to R113). -/

namespace Sys2Proof.Machine

/-- Settles O1: an item at a time, the fields the decoder cuts out of the encoder's bytes are the instruction's. -/
theorem decodeOfEncode : Obligations.DecodeOfEncode := by
  intro i rest hwf
  cases i with
  | code k => rfl
  | lit v => rfl
  | ref2 n d =>
    have hnibble := highNibble_append n (d.extractLsb' 8 4)
    have hn : n ≠ 0 := bne_iff_ne.mp hwf
    have hread := decodeBackRef_of_highNibble_ne_zero (b2 := d.extractLsb' 0 8) (rest := rest) (hnibble.trans_ne hn)
    rwa [hnibble, distField_of_encoded] at hread
  | ref3 d m =>
    have hread := decodeBackRef_of_highNibble_eq_zero (b2 := d.extractLsb' 0 8) (b3 := m) (rest := rest)
      (highNibble_append 0 (d.extractLsb' 8 4))
    rwa [distField_of_encoded] at hread
  | hdr size => exact decodeHeader_encode size
  | crc => exact decodeCommandBytes_be32Bytes 1
  | dec => exact decodeCommandBytes_be32Bytes 2
  | enc => exact decodeCommandBytes_be32Bytes 3

/-- Settles O2: in each context, what decodes is a known item, and encoding it puts the same bytes back. -/
theorem encodeOfDecode : Obligations.EncodeOfDecode := by
  intro ctx bs rest i h
  match ctx with
  | .groupStart =>
    obtain ⟨k, rfl, rfl⟩ := decodeCodeByte_ok h
    exact ⟨rfl, rfl, rfl⟩
  | .token true =>
    obtain ⟨v, rfl, rfl⟩ := decodeLiteral_ok h
    exact ⟨rfl, rfl, rfl⟩
  | .token false =>
    obtain ⟨b1, b2, rfl, hn, rfl⟩ | ⟨b1, b2, b3, rfl, hn, rfl⟩ := decodeBackRef_ok h
    · exact ⟨bne_iff_ne.mpr hn, rfl, by rw [encode_ref2_of_bytes]; rfl⟩
    · exact ⟨rfl, rfl, by rw [encode_ref3_of_bytes b3 hn]; rfl⟩
  | .frameStart =>
    obtain ⟨s0, s1, s2, s3, rfl, rfl⟩ := decodeHeader_ok h
    exact ⟨rfl, rfl, by rw [encode, be32Bytes_be32]⟩
  | .command =>
    obtain ⟨w, rfl, hw⟩ := decodeCommandBytes_ok h
    obtain ⟨rfl, rfl⟩ | ⟨rfl, rfl⟩ | ⟨rfl, rfl⟩ := decodeCommand_ok hw
    · exact ⟨rfl, rfl, rfl⟩
    · exact ⟨rfl, rfl, rfl⟩
    · exact ⟨rfl, rfl, rfl⟩

/-- Settles O3: the decoder's branch on the high nibble, in each of the two token contexts. -/
theorem tokenKinds : Obligations.TokenKinds := fun _ _ _ _ =>
  ⟨rfl, decodeBackRef_of_highNibble_ne_zero, decodeBackRef_of_highNibble_eq_zero⟩

/-- Settles O4: the field's value by the value of an append, and the two bytes of a distance by division. -/
theorem distanceAssembly : Obligations.DistanceAssembly := by
  refine ⟨fun b1 b2 => ⟨distField_toNat b1 b2, Nat.le_of_lt_succ (distField b1 b2).isLt⟩, fun n m dist h => ⟨?_, ?_⟩⟩
  · obtain ⟨hhigh, hlow⟩ := distBytes_toNat (BitVec.ofNat 4 n) h
    rw [encode, List.map_cons, List.map_singleton, hhigh, hlow, BitVec.toNat_ofNat]
  · obtain ⟨hhigh, hlow⟩ := distBytes_toNat 0#4 h
    rw [encode, List.map_cons, List.map_cons, List.map_singleton, hhigh, hlow, BitVec.toNat_ofNat, BitVec.toNat_ofNat,
      Nat.zero_mod, Nat.zero_mul, Nat.zero_add]

/-- Settles O6: the decoder run on each of the words. -/
theorem workedEncodings : Obligations.WorkedEncodings :=
  ⟨rfl, rfl, rfl, rfl, rfl, rfl, rfl, rfl, rfl, rfl, rfl⟩

end Sys2Proof.Machine
end

section
/-! Every length has one back-reference with each distance field (30_encoding R105). -/

namespace Sys2Proof.Machine

theorem lenOfRef2_range {n : BitVec 4} {d : BitVec 12} (h : (Instr.ref2 n d).wf = true) :
    lenMin ≤ lenOfRef2 n ∧ lenOfRef2 n ≤ lenShortMax := by
  have hn : n ≠ 0 := bne_iff_ne.mp h
  unfold lenMin lenOfRef2 lenShortMax
  bv_omega

theorem lenOfRef3_range (m : Byte) : lenLongMin ≤ lenOfRef3 m ∧ lenOfRef3 m ≤ lenMax := by
  unfold lenOfRef3 lenLongMin lenMax
  bv_omega

/-- The back-reference for a length and a distance field (R102, R103, R105). -/
def backRefOf (len dist : Nat) : Instr :=
  if len ≤ lenShortMax then .ref2 (BitVec.ofNat 4 (len - 2)) (BitVec.ofNat 12 dist)
  else .ref3 (BitVec.ofNat 12 dist) (BitVec.ofNat 8 (len - lenLongMin))

theorem lenOfRef2_ofNat {len : Nat} (hmin : lenMin ≤ len) (hmax : len ≤ lenShortMax) :
    lenOfRef2 (BitVec.ofNat 4 (len - 2)) = len := by
  unfold lenMin at hmin
  unfold lenShortMax at hmax
  rw [lenOfRef2, BitVec.toNat_ofNat]
  omega

theorem lenOfRef3_ofNat {len : Nat} (hmin : lenLongMin ≤ len) (hmax : len ≤ lenMax) :
    lenOfRef3 (BitVec.ofNat 8 (len - lenLongMin)) = len := by
  unfold lenMax at hmax
  rw [lenOfRef3, BitVec.toNat_ofNat]
  unfold lenLongMin at hmin ⊢
  omega

theorem ref2_wf_of_lenMin_le {n : BitVec 4} (d : BitVec 12) (h : lenMin ≤ lenOfRef2 n) : (Instr.ref2 n d).wf = true := by
  unfold lenMin lenOfRef2 at h
  exact bne_iff_ne.mpr (by bv_omega)

/-- `backRefOf` answers an encodable instruction with the length and the distance field it was asked for. -/
theorem backRefOf_spec {len dist : Nat} (hmin : lenMin ≤ len) (hmax : len ≤ lenMax) (hd : dist ≤ 0xFFF) :
    (backRefOf len dist).wf = true ∧ backRefFields (backRefOf len dist) = some (len, dist) := by
  have hdist : (BitVec.ofNat 12 dist).toNat = dist := by rw [BitVec.toNat_ofNat]; omega
  unfold backRefOf
  split
  · next hshort =>
    have hlen := lenOfRef2_ofNat hmin hshort
    exact ⟨ref2_wf_of_lenMin_le _ (hmin.trans_eq hlen.symm), by rw [backRefFields, hlen, hdist]⟩
  · next hlong => exact ⟨rfl, by rw [backRefFields, lenOfRef3_ofNat (Nat.not_le.mp hlong) hmax, hdist]⟩

theorem backRefOf_lenOfRef2 {n : BitVec 4} {d : BitVec 12} (h : (Instr.ref2 n d).wf = true) :
    backRefOf (lenOfRef2 n) d.toNat = .ref2 n d := by
  unfold backRefOf
  rw [if_pos (lenOfRef2_range h).2, lenOfRef2, Nat.add_sub_cancel, BitVec.ofNat_toNat, BitVec.ofNat_toNat,
    BitVec.setWidth_eq, BitVec.setWidth_eq]

theorem backRefOf_lenOfRef3 (d : BitVec 12) (m : Byte) : backRefOf (lenOfRef3 m) d.toNat = .ref3 d m := by
  unfold backRefOf
  have hlong : ¬ lenOfRef3 m ≤ lenShortMax := Nat.not_le.mpr (lenOfRef3_range m).1
  rw [if_neg hlong, lenOfRef3, Nat.add_sub_cancel, BitVec.ofNat_toNat,
    BitVec.ofNat_toNat, BitVec.setWidth_eq, BitVec.setWidth_eq]

theorem eq_backRefOf {i : Instr} {len dist : Nat} (hwf : i.wf = true) (h : backRefFields i = some (len, dist)) :
    i = backRefOf len dist := by
  cases i with
  | ref2 n d => cases h; exact (backRefOf_lenOfRef2 hwf).symm
  | ref3 d m => cases h; exact (backRefOf_lenOfRef3 d m).symm
  | _ => cases h

/-- Settles O5: `backRefOf` is the one instruction, and the lengths of a `REF2` and a `REF3` do not overlap. -/
theorem oneFormPerLength : Obligations.OneFormPerLength :=
  ⟨fun _ _ h => lenOfRef2_range h, lenOfRef3_range,
    fun len dist hmin hmax hd => ⟨backRefOf len dist, backRefOf_spec hmin hmax hd, fun _ h => eq_backRefOf h.1 h.2⟩,
    fun _ _ _ => Nat.mod_eq_of_lt (by omega)⟩

end Sys2Proof.Machine
end

section
/-! What the CRC unit has computed in each phase (40_cic_checksum R130 to R149). -/

namespace Sys2Proof.Machine

theorem crcOk_of_not_busy {t : State} (h : t.status ≠ .busy) : t.CrcOk := fun hb => absurd hb h

theorem crcOk_of_unit_ne {t : State} (h : t.unit ≠ .crc) : t.CrcOk := fun _ hu => absurd hu h

/-! ## The three faults of the unit -/

theorem crcBootBounds_short {s : State} (h : s.romLen.toNat < bootOff + bootLen) :
    crcBootBounds s = raise .romBoot 0 0 s := if_pos h

theorem crcIdentify_unknown {s : State} (h : cicOfBootCrc s.crcU.bootCrc = none) :
    crcIdentify s = raise .cicUnknown 0 0 s := by rw [crcIdentify, h]

theorem crcRegionBounds_short {s : State} (h : s.romLen.toNat < ckOff + ckLen) :
    crcRegionBounds s = raise .romRegion 0 0 s := if_pos h

/-- In the phase of the table lookup the unit holds the CRC-32 of the boot block, and so does `BOOT_CRC` (R132). -/
theorem bootCrc_of_identify {s : State} (hp : s.crcU.phase = .identify) (h : s.CrcPhaseOk) :
    s.cic = 0 ∧ s.bootCrc = bootCrcOf s.rom ∧ s.crcU.bootCrc = bootCrcOf s.rom := by
  simp only [State.CrcPhaseOk, hp] at h
  obtain ⟨hcic, _, hboot, hunit⟩ := h
  exact ⟨hcic, hboot, hunit⟩

/-- Everything a move of the unit can do from registers that are as they should be: it goes on, having computed what the next
phase says, or ends the operation. -/
theorem crcTurn_goesOn_or_ends {s : State} (h : s.CrcPhaseOk) : CrcGoesOn s (crcTurn s) ∨ (crcTurn s).ended := by
  unfold crcTurn
  cases hp : s.crcU.phase with
  | bootBounds =>
    by_cases hlen : s.romLen.toNat < bootOff + bootLen
    · exact .inr (.inr (congrArg State.status (crcBootBounds_short hlen)))
    · exact .inl (crcBootBounds_goesOn hp h (Nat.le_of_not_lt hlen))
  | bootCrc => exact .inl (crcBootByte_goesOn hp h)
  | identify =>
    obtain ⟨_, _, hunit⟩ := bootCrc_of_identify hp h
    cases hv : cicOfBootCrc (bootCrcOf s.rom) with
    | none => exact .inr (.inr (congrArg State.status (crcIdentify_unknown (by rw [hunit, hv]))))
    | some v => exact .inl (crcIdentify_goesOn hp h hv)
  | regionBounds =>
    by_cases hlen : s.romLen.toNat < ckOff + ckLen
    · exact .inr (.inr (congrArg State.status (crcRegionBounds_short hlen)))
    · exact .inl (crcRegionBounds_goesOn hp h (Nat.le_of_not_lt hlen))
  | region => exact .inl (crcWord_goesOn hp h)
  | finalise => exact .inl (crcFinalise_goesOn hp h)
  | writeBack => exact .inr (.inl rfl)

theorem crcTurn_crcOk {s : State} (hb : s.status = .busy) (hu : s.unit = .crc) (h : s.CrcOk) : (crcTurn s).CrcOk := by
  rcases crcTurn_goesOn_or_ends (h hb hu) with hgo | hd | hf
  · exact fun _ _ => hgo.phaseOk
  · exact crcOk_of_not_busy (hd.trans_ne nofun)
  · exact crcOk_of_not_busy (hf.trans_ne nofun)

/-! ## The other moves -/

/-- Acceptance starts the unit in its first phase with nothing reported, or selects another unit. -/
theorem command_crcOk {s t : State} {i : Instr} (hb : s.status ≠ .busy) (hi : i = .crc ∨ i = .dec ∨ i = .enc)
    (h : exec i s = .next t) : t.CrcOk := by
  rcases command_cases s with ⟨hb', _⟩ | ⟨_, hcrc, hdec, henc⟩
  · exact absurd hb' hb
  · rcases hi with rfl | rfl | rfl
    · rw [hcrc] at h; cases h
      exact fun _ _ => ⟨rfl, rfl⟩
    · rw [hdec] at h; cases h
      exact crcOk_of_unit_ne nofun
    · rw [henc] at h; cases h
      exact crcOk_of_unit_ne nofun

/-- A running `CRC` uses `ROM`, so the host reaches only the spaces it does not read. -/
theorem State.CrcOk.withSpace {s : State} {sp : Space} (h : s.CrcOk) (m : Memory) (hfree : s.spaceInUse sp = false) :
    (s.withSpace sp m).CrcOk := by
  cases sp with
  | src => exact h
  | dst => exact h
  | rom =>
    intro hb hu
    have hinUse : s.spaceInUse .rom = true := (spaceInUse_iff s .rom).mpr ⟨hb, iff_of_true rfl hu⟩
    exact absurd (hinUse.symm.trans hfree) nofun

theorem CodecMove.crcOk {s t : State} (m : CodecMove s t) (hu : s.unit ≠ .crc) : t.CrcOk :=
  crcOk_of_unit_ne (m.unit.trans_ne hu)

theorem crcOk_kept : Kept State.CrcOk where
  hostSide := fun _ _ _ _ h => h
  cmd := fun _ _ h => h
  lengths := fun _ _ hb _ => ⟨crcOk_of_not_busy hb, crcOk_of_not_busy hb, crcOk_of_not_busy hb⟩
  command := fun _ _ _ hb hi he _ => command_crcOk hb hi he
  illegal := fun _ _ _ => crcOk_of_not_busy nofun
  poke := fun _ _ _ _ _ hfree h => h.withSpace _ hfree
  bind := fun _ _ _ _ hfree h => h.withSpace _ hfree
  reset := fun _ _ => crcOk_of_not_busy nofun
  crcMove := fun _ hb hu => crcTurn_crcOk hb hu
  decDone := fun s _ hu _ _ => (codecMove_decComplete s).crcOk (hu.trans_ne nofun)
  decShort := fun s _ hu _ _ => (codecMove_decRaise _ s).crcOk (hu.trans_ne nofun)
  decToken := fun _ _ _ _ hu _ hf he _ =>
    (codecMove_exec (fetchToken_context_ne_command hf) he).crcOk (hu.trans_ne nofun)
  encTokens := fun s _ hu _ _ => (codecMove_encMainLoop s).crcOk (hu.trans_ne nofun)
  encHeader := fun _ _ _ hu _ he _ => (codecMove_exec (hdr_context_ne_command _) he).crcOk (hu.trans_ne nofun)
  encFrame := fun s _ hu _ _ => (codecMove_encBody _ s).crcOk (hu.trans_ne nofun)

/-- Settles O48: the unit's own moves go on with what the next phase says or end the operation, and every other move leaves
the unit and `ROM` alone or finds no `CRC` running. -/
theorem crcInvariant : Obligations.CrcInvariant := fun _ _ hs h => crcOk_kept.step hs h

end Sys2Proof.Machine
end

section
/-! SUPPORT. The checksum step field by field (40_cic_checksum R141 to R145) and the rotated word as the library's rotation
(R143). -/

namespace Sys2Proof.Machine

section checksumStep
variable (v : CicVersion) (e d : Word) (t : Acc)

theorem checksumStep_t6 : (checksumStep v e d t).t6 = t.t6 + d := rfl

theorem checksumStep_t4 :
    (checksumStep v e d t).t4 = if 2 ^ 32 ≤ t.t6.toNat + d.toNat then t.t4 + 1 else t.t4 := by
  simp [checksumStep, carries]

theorem checksumStep_t3 : (checksumStep v e d t).t3 = t.t3 ^^^ d := rfl

theorem checksumStep_t5 : (checksumStep v e d t).t5 = t.t5 + rotatedWord d := rfl

theorem checksumStep_t2 :
    (checksumStep v e d t).t2 =
      if d < t.t2 then t.t2 ^^^ rotatedWord d else t.t2 ^^^ (checksumStep v e d t).t6 ^^^ d := rfl

theorem checksumStep_t1 :
    (checksumStep v e d t).t1 =
      if v = .v6105 then t.t1 + (e ^^^ d) else t.t1 + ((checksumStep v e d t).t5 ^^^ d) := rfl

end checksumStep

theorem rotl32_eq_rotateLeft (d : Word) {n : Nat} (h : n < 32) : rotl32 d n = d.rotateLeft n := by
  rw [BitVec.rotateLeft_def, Nat.mod_eq_of_lt h, rotl32]
  split
  · next h0 => rw [h0, BitVec.shiftLeft_zero, BitVec.ushiftRight_eq_zero (Nat.le_refl 32), BitVec.or_zero]
  · rfl

theorem and_low5_lt (d : Word) : (d &&& 0x1F).toNat < 32 :=
  BitVec.toNat_and d 0x1F ▸ Nat.lt_succ_of_le Nat.and_le_right

theorem rotatedWord_eq_rotateLeft (d : Word) : rotatedWord d = d.rotateLeft (d &&& 0x1F).toNat :=
  rotl32_eq_rotateLeft d (and_low5_lt d)

/-- A rotation is circular: bit `k` goes to bit `k + n`, counted modulo the width. -/
theorem getLsbD_rotateLeft_add (d : Word) {n k : Nat} (hn : n < 32) (hk : k < 32) :
    (d.rotateLeft n).getLsbD ((k + n) % 32) = d.getLsbD k := by
  rw [BitVec.getLsbD_rotateLeft, Nat.mod_eq_of_lt hn]
  by_cases hwrap : k + n < 32
  · rw [Nat.mod_eq_of_lt hwrap, decide_eq_false (by omega), decide_eq_true hwrap, Nat.add_sub_cancel]
    rfl
  · have hmod : (k + n) % 32 = k + n - 32 := by omega
    rw [hmod, decide_eq_true (by omega), show 32 - n + (k + n - 32) = k from by omega]
    rfl

theorem rotatedWord_of_low5_zero {d : Word} (h : d &&& 0x1F = 0) : rotatedWord d = d := by
  rw [rotatedWord, h]
  rfl

@[simp] theorem rotatedWord_zero : rotatedWord 0#32 = 0#32 := rotatedWord_of_low5_zero rfl

end Sys2Proof.Machine
end

section
/-! One step of the checksum and its finalisation (40_cic_checksum R141 to R147). -/

namespace Sys2Proof.Machine

/-- The exact sum reaches 2^32 when the sum modulo 2^32 wraps below its first term. -/
theorem carry_iff_add_lt (x d : Word) : 2 ^ 32 ≤ x.toNat + d.toNat ↔ x + d < x := by
  have hx := x.isLt
  have hd := d.isLt
  rw [BitVec.lt_def, BitVec.toNat_add]
  omega

/-- Settles O39: the carry test on the exact sum, and the two corner cases evaluated by it. -/
theorem carryCount : Obligations.CarryCount := by
  intro v e d t
  refine ⟨checksumStep_t6 v e d t, checksumStep_t4 v e d t, carry_iff_add_lt t.t6 d, fun hd => ?_, fun ht hd => ?_⟩
  · have hnone : ¬ 2 ^ 32 ≤ t.t6.toNat + d.toNat := by
      have := t.t6.isLt
      subst hd
      simpa using this
    rw [checksumStep_t4, if_neg hnone]
  · rw [checksumStep_t4, checksumStep_t6, ht, hd]
    exact ⟨rfl, rfl⟩

/-- Settles O40: the rotated word is a rotation by less than 32, and no rotation for a count of 0. -/
theorem rotatedWord_circular : Obligations.RotatedWord := by
  refine ⟨fun d k hk => ?_, fun d => rotatedWord_of_low5_zero, checksumStep_t5, rfl, rfl, rfl, rfl, rfl⟩
  rw [rotatedWord_eq_rotateLeft]
  exact getLsbD_rotateLeft_add d (and_low5_lt d) hk

/-- Settles O41: the branches of `t2` and `t1`, with the new `t6` and `t5` in them. -/
theorem mixingUpdates : Obligations.MixingUpdates := fun v e d t =>
  ⟨checksumStep_t3 v e d t, fun h => (checksumStep_t2 v e d t).trans (if_pos h),
    fun h => (checksumStep_t2 v e d t).trans (if_neg h), fun h => (checksumStep_t1 v e d t).trans (if_pos h),
    fun h => (checksumStep_t1 v e d t).trans (if_neg h)⟩

/-- Settles O44: the three rows of the rule's table, version by version, and the example evaluated. -/
theorem finalisation : Obligations.Finalisation := by
  refine ⟨fun t => ⟨rfl, rfl, rfl, rfl, fun v hv => ?_⟩, by decide⟩
  rcases hv with rfl | rfl | rfl <;> exact ⟨rfl, rfl⟩

end Sys2Proof.Machine
end

section
/-! An all-zero region (40_cic_checksum R152 (c)). -/

namespace Sys2Proof.Machine

theorem CicVersion.seed_pos (v : CicVersion) : 0 < v.seed := by cases v <;> decide

theorem read32_of_zero {m : Memory} {a : Nat} (h : ∀ b, a ≤ b → b < a + 4 → Memory.read m b = 0) :
    Memory.read32 m a = 0 :=
  (read32_congr (m' := []) h).trans (show be32 0 0 0 0 = 0 by decide)

/-- A zero word has nothing to carry, nothing to rotate and is below a `t2` that is not 0: only `t1` moves, by `t5`. -/
theorem checksumStep_zero {v : CicVersion} (hv : v ≠ .v6105) (e : Word) {t : Acc} (h2 : 0 < t.t2) :
    checksumStep v e 0 t = { t with t1 := t.t1 + t.t5 } := by
  have hcarry : carries t.t6 0#32 = false := decide_eq_false (Nat.not_le.mpr t.t6.isLt)
  have h2' : 0#32 < t.t2 := h2
  simp [checksumStep, hcarry, h2', hv]

/-- Settles O43, by induction on the number of words: `t2` and `t5` stay at the seed, so every word adds it to `t1`. -/
theorem zeroRegion : Obligations.ZeroRegion := by
  intro v rom w hv hw hzero
  induction w with
  | zero => simp [checksumWords, Acc.seeded]
  | succ w ih =>
    have hword : Memory.read32 rom (wordOffset w) = 0 := by
      refine read32_of_zero fun b hlow hhigh => hzero b ?_ ?_ <;>
        simp only [wordOffset, ckOff, ckLen, ckWords] at * <;> omega
    rw [checksumWords, hword, ih (by omega), checksumStep_zero hv _ v.seed_pos]
    simp only [Acc.seeded, BitVec.ofNat_add, BitVec.add_mul, BitVec.one_mul, BitVec.add_assoc]

end Sys2Proof.Machine
end

section
/-! The table form of the CRC-32 (40_cic_checksum R132, 10_state R52). -/

namespace Sys2Proof.Machine

/-- One round of the loop of R132. -/
def crc32Round (c : Word) : Word := if c.getLsbD 0 then (c >>> 1) ^^^ crc32Poly else c >>> 1

theorem crc32Bits_succ (n : Nat) (c : Word) : crc32Bits (n + 1) c = crc32Bits n (crc32Round c) := rfl

/-- The polynomial enters by bit 0 alone, so a round is linear. -/
theorem crc32Round_xor (x y : Word) : crc32Round (x ^^^ y) = crc32Round x ^^^ crc32Round y := by
  simp only [crc32Round, BitVec.getLsbD_xor, BitVec.ushiftRight_xor_distrib]
  generalize x >>> 1 = p, y >>> 1 = q
  cases x.getLsbD 0 with
  | false =>
    cases y.getLsbD 0 with
    | false => rfl
    | true => exact BitVec.xor_assoc p q crc32Poly
  | true =>
    cases y.getLsbD 0 with
    | false => show p ^^^ q ^^^ crc32Poly = p ^^^ crc32Poly ^^^ q; ac_rfl
    | true =>
      calc p ^^^ q = p ^^^ q ^^^ (crc32Poly ^^^ crc32Poly) := by rw [BitVec.xor_self, BitVec.xor_zero]
        _ = p ^^^ crc32Poly ^^^ (q ^^^ crc32Poly) := by ac_rfl

theorem crc32Bits_xor (n : Nat) : ∀ x y : Word, crc32Bits n (x ^^^ y) = crc32Bits n x ^^^ crc32Bits n y := by
  induction n with
  | zero => intro x y; rfl
  | succ n ih => intro x y; rw [crc32Bits_succ, crc32Round_xor, ih, crc32Bits_succ, crc32Bits_succ]

/-- Rounds that meet only clear bits shift and do nothing else. -/
theorem crc32Bits_of_low_zero (n : Nat) : ∀ c : Word, (∀ k, k < n → c.getLsbD k = false) → crc32Bits n c = c >>> n := by
  induction n with
  | zero => intro c _; simp [crc32Bits]
  | succ n ih =>
    intro c h
    have hround : crc32Round c = c >>> 1 := if_neg (ne_true_of_eq_false (h 0 (Nat.succ_pos n)))
    rw [crc32Bits_succ, hround, ih _ fun k hk => ?_, ← BitVec.shiftRight_add, Nat.add_comm]
    rw [BitVec.getLsbD_ushiftRight]
    exact h _ (by omega)

theorem getLsbD_lowByteMask (k : Nat) : (0xFF#32).getLsbD k = decide (k < 8) := by
  rw [show 0xFF#32 = (BitVec.allOnes 8).setWidth 32 from rfl, BitVec.getLsbD_setWidth, BitVec.getLsbD_allOnes,
    Bool.and_eq_right_iff_imp, decide_eq_true_iff, decide_eq_true_iff]
  omega

theorem getLsbD_highBytes (x : Word) (k : Nat) :
    (x &&& ~~~0xFF#32).getLsbD k = (decide (8 ≤ k) && x.getLsbD k) := by
  rw [BitVec.getLsbD_and, BitVec.getLsbD_not, getLsbD_lowByteMask]
  by_cases hk : k < 32
  · by_cases hlow : k < 8
    · simp [hlow]
    · simp [hk, hlow, Nat.le_of_not_lt hlow]
  · simp [x.getLsbD_of_ge k (Nat.le_of_not_lt hk)]

/-- The byte that enters at the low end is gone after eight shifts. -/
theorem highBytes_shift (c : Word) (b : Byte) : ((c ^^^ b.setWidth 32) &&& ~~~0xFF#32) >>> 8 = c >>> 8 := by
  apply BitVec.eq_of_getLsbD_eq
  intro k _
  rw [BitVec.getLsbD_ushiftRight, BitVec.getLsbD_ushiftRight, getLsbD_highBytes, BitVec.getLsbD_xor,
    BitVec.getLsbD_setWidth, b.getLsbD_of_ge (8 + k) (Nat.le_add_right 8 k)]
  simp

theorem lowByte_xor_highBytes (x : Word) : (x &&& 0xFF#32) ^^^ (x &&& ~~~0xFF#32) = x := by
  ext k hk
  simp only [BitVec.getElem_xor, BitVec.getElem_and, BitVec.getElem_not]
  cases x[k] <;> simp

/-- Settles O38: the loop is linear, so the low byte and the rest of the register can be taken apart; the low byte gives the
table's entry and the rest is only shifted. -/
theorem crc32TableForm : Obligations.Crc32TableForm := by
  intro c b
  have hhigh : crc32Bits 8 ((c ^^^ b.setWidth 32) &&& ~~~0xFF#32) = c >>> 8 := by
    rw [crc32Bits_of_low_zero 8 _ fun k hk => ?_, highBytes_shift]
    rw [getLsbD_highBytes, decide_eq_false (Nat.not_le.mpr hk), Bool.false_and]
  rw [crc32Step, ← hhigh]
  exact (congrArg (crc32Bits 8) (lowByte_xor_highBytes _).symm).trans (crc32Bits_xor 8 _ _)

end Sys2Proof.Machine
end

section
/-! One word of the region as a step of the machine (40_cic_checksum R140, R145, R146). -/

namespace Sys2Proof.Machine

theorem tableWord_of_6105 {s : State} (h : s.crcU.cic = .v6105) :
    tableWord s = Memory.read32 s.rom (tableOffset s.crcU.i) := if_pos h

/-- Settles O42: the step is `crcWord`'s, and each accumulator is the checksum step's. -/
theorem checksumWordStep : Obligations.ChecksumWordStep := by
  intro s d hh hb hu hp hi hd
  subst hd
  refine ⟨tableWord s, checksumStep s.crcU.cic (tableWord s) (Memory.read32 s.rom s.crcU.i) s.crcU.t, ?_,
    tableWord_of_6105, checksumStep_t6 _ _ _ _, checksumStep_t4 _ _ _ _, checksumStep_t3 _ _ _ _,
    checksumStep_t5 _ _ _ _, checksumStep_t2 _ _ _ _, checksumStep_t1 _ _ _ _⟩
  rw [step_crcTurn hh hb hu, crcTurn, hp]
  exact congrArg Host.Outcome.next (if_pos hi)

end Sys2Proof.Machine
end

section
/-! SUPPORT. A `CRC` up to its table lookup (40_cic_checksum R131, R132): the run that every `CRC` of a ROM with a whole boot
block begins with. -/

namespace Sys2Proof.Machine

section moves
variable {s t : State}

theorem crcTurn_of_bootBounds (hp : s.crcU.phase = .bootBounds) : crcTurn s = crcBootBounds s := by rw [crcTurn, hp]
theorem crcTurn_of_bootCrc (hp : s.crcU.phase = .bootCrc) : crcTurn s = crcBootByte s := by rw [crcTurn, hp]
theorem crcTurn_of_identify (hp : s.crcU.phase = .identify) : crcTurn s = crcIdentify s := by rw [crcTurn, hp]
theorem crcTurn_of_regionBounds (hp : s.crcU.phase = .regionBounds) : crcTurn s = crcRegionBounds s := by
  rw [crcTurn, hp]

/-- Only the unit's latest results stay. -/
theorem withCrc_withCrc (cic cic' bootCrc bootCrc' : Word) (r r' : CrcRegs) :
    (s.withCrc cic bootCrc r).withCrc cic' bootCrc' r' = s.withCrc cic' bootCrc' r' := rfl

theorem run_one_of_crcTurn (h : crcTurn s = t) (hh : s.host = []) (hb : s.status = .busy) (hu : s.unit = .crc) :
    run 1 s = .next t := by
  rw [run_succ_of_next (step_crcTurn hh hb hu), run_zero, h]

theorem crcBootBounds_valid (h : bootOff + bootLen ≤ s.romLen.toNat) :
    crcBootBounds s = s.withCrc s.cic s.bootCrc { s.crcU with phase := .bootCrc, a := bootOff, c := crc32Init } :=
  if_neg (Nat.not_lt.mpr h)

/-- A byte of the boot block is left. -/
theorem crcBootByte_of_lt (h : s.crcU.a < bootOff + bootLen) :
    crcBootByte s =
      s.withCrc s.cic s.bootCrc
        { s.crcU with c := crc32Step s.crcU.c (Memory.read s.rom s.crcU.a), a := s.crcU.a + 1 } := if_pos h

/-- The boot block has been read to its end. -/
theorem crcBootByte_of_ge (h : bootOff + bootLen ≤ s.crcU.a) :
    crcBootByte s =
      s.withCrc s.cic (crc32Final s.crcU.c) { s.crcU with phase := .identify, bootCrc := crc32Final s.crcU.c } :=
  if_neg (Nat.not_lt.mpr h)

theorem crcIdentify_known {v : CicVersion} (h : cicOfBootCrc s.crcU.bootCrc = some v) :
    crcIdentify s =
      s.withCrc v.number s.bootCrc { s.crcU with phase := .regionBounds, cic := v, seed := v.seed } := by
  rw [crcIdentify, h]
  rfl

end moves

/-- The loop over the boot block comes to the table lookup, one byte a step. -/
theorem run_bootCrc_to_identify (k : Nat) : ∀ {s : State}, s.CrcPhaseOk → s.host = [] → s.status = .busy →
    s.unit = .crc → s.crcU.phase = .bootCrc → bootOff + bootLen - s.crcU.a = k →
      ∃ cic bootCrc r, run (k + 1) s = .next (s.withCrc cic bootCrc r) ∧ r.phase = .identify ∧
        (s.withCrc cic bootCrc r).CrcPhaseOk := by
  induction k with
  | zero =>
    intro s hok hh hb hu hp hk
    have hmove := crcBootByte_of_ge (s := s) (by omega)
    exact ⟨_, _, _, run_one_of_crcTurn ((crcTurn_of_bootCrc hp).trans hmove) hh hb hu, rfl,
      hmove ▸ (crcBootByte_goesOn hp hok).phaseOk⟩
  | succ k ih =>
    intro s hok hh hb hu hp hk
    have hmove := crcBootByte_of_lt (s := s) (by omega)
    have hok' := (crcBootByte_goesOn hp hok).phaseOk
    have hstep := step_crcTurn hh hb hu
    rw [crcTurn_of_bootCrc hp, hmove] at hstep
    rw [hmove] at hok'
    have hleft : bootOff + bootLen - (s.crcU.a + 1) = k := by omega
    obtain ⟨cic, bootCrc, r, hrun, hend⟩ := ih hok' hh hb hu hp hleft
    exact ⟨cic, bootCrc, r, (run_succ_of_next hstep).trans hrun, hend⟩

/-- From acceptance to the table lookup, with the boot block valid: its CRC-32 is computed and reported (R132). -/
theorem run_crcStarted_to_identify {s : State} (hh : s.host = []) (hlen : 0x1000 ≤ s.romLen.toNat) :
    ∃ r, run (bootLen + 2) (crcStarted s) = .next ((crcStarted s).withCrc 0 (bootCrcOf s.rom) r) ∧
      r.phase = .identify ∧ r.bootCrc = bootCrcOf s.rom := by
  have hmove := crcBootBounds_valid (s := crcStarted s) hlen
  have hok := (crcBootBounds_goesOn (s := crcStarted s) rfl ⟨rfl, rfl⟩ hlen).phaseOk
  have hstep := step_crcTurn (s := crcStarted s) hh rfl rfl
  rw [crcTurn_of_bootBounds rfl, hmove] at hstep
  rw [hmove] at hok
  obtain ⟨cic, bootCrc, r, hrun, hp, hend⟩ := run_bootCrc_to_identify bootLen hok hh rfl rfl rfl rfl
  obtain ⟨hcic, hboot, hunit⟩ := bootCrc_of_identify hp hend
  refine ⟨r, (run_succ_of_next hstep).trans (hrun.trans ?_), hp, hunit⟩
  rw [show cic = 0 from hcic, show bootCrc = bootCrcOf s.rom from hboot]
  rfl

end Sys2Proof.Machine
end

section
/-! A `CRC` that faults (40_cic_checksum R131, R135, R139). -/

namespace Sys2Proof.Machine

/-- With fewer bytes than the boot block ends at, the first step faults (R131). -/
theorem run_crcStarted_short {s : State} (hh : s.host = []) (hlen : s.romLen.toNat < 0x1000) :
    run 1 (crcStarted s) = .next (raise .romBoot 0 0 (crcStarted s)) :=
  run_one_of_crcTurn ((crcTurn_of_bootBounds rfl).trans (crcBootBounds_short (s := crcStarted s) hlen)) hh rfl rfl

/-- With an unknown boot block the table lookup faults (R135); `BOOT_CRC` is reported and `CIC` is not. -/
theorem run_crcStarted_unknown {s : State} (hh : s.host = []) (hlen : 0x1000 ≤ s.romLen.toNat)
    (hv : cicOfBootCrc (bootCrcOf s.rom) = none) :
    ∃ r, run (bootLen + 3) (crcStarted s) =
      .next (raise .cicUnknown 0 0 ((crcStarted s).withCrc 0 (bootCrcOf s.rom) r)) := by
  obtain ⟨r, hrun, hp, hunit⟩ := run_crcStarted_to_identify hh hlen
  have hlookup := crcIdentify_unknown (s := (crcStarted s).withCrc 0 (bootCrcOf s.rom) r) (hunit ▸ hv)
  exact ⟨r, (run_add 1 hrun).trans (run_one_of_crcTurn ((crcTurn_of_identify hp).trans hlookup) hh rfl rfl)⟩

/-- With a known boot block and a region that is not wholly valid, phase 2 faults at its start (R139). -/
theorem run_crcStarted_noRegion {s : State} {v : CicVersion} (hh : s.host = []) (hlen : 0x1000 ≤ s.romLen.toNat)
    (hshort : s.romLen.toNat < 0x101000) (hv : cicOfBootCrc (bootCrcOf s.rom) = some v) :
    ∃ r, run (bootLen + 4) (crcStarted s) =
      .next (raise .romRegion 0 0 ((crcStarted s).withCrc v.number (bootCrcOf s.rom) r)) := by
  obtain ⟨r, hrun, hp, hunit⟩ := run_crcStarted_to_identify hh hlen
  have hlookup := crcIdentify_known (s := (crcStarted s).withCrc 0 (bootCrcOf s.rom) r) (hunit ▸ hv)
  rw [← crcTurn_of_identify hp, withCrc_withCrc] at hlookup
  have hidentified := (run_add 1 hrun).trans (run_one_of_crcTurn hlookup hh rfl rfl)
  have hbounds := crcRegionBounds_short (s := (crcStarted s).withCrc v.number (bootCrcOf s.rom)
    { r with phase := .regionBounds, cic := v, seed := v.seed }) hshort
  rw [← crcTurn_of_regionBounds rfl] at hbounds
  exact ⟨_, (run_add 1 hidentified).trans (run_one_of_crcTurn hbounds hh rfl rfl)⟩

/-- The CRC-32 of a boot block of zeros. -/
theorem bootCrcOf_zeros {rom : Memory} (h : ∀ a, 0x40 ≤ a → a < 0x1000 → Memory.read rom a = 0) :
    bootCrcOf rom = 0xE8B8467D :=
  (congrArg crc32 (readBytes_congr bootLen rom [] bootOff h)).trans
    (bootCrcOf_eq (rom := []) (k := 0x1747B982) (by decide +kernel))

/-- Settles O46: the two faulting runs, and the CRC-32 of zeros looked up in the table. -/
theorem crcIdentificationFaults : Obligations.CrcIdentificationFaults := by
  intro s s1 hh hb h
  rw [exec_crc_of_not_busy hb] at h
  cases h
  refine ⟨fun hlen => ?_, fun hlen hv => ?_, fun hzero => ?_⟩
  · exact ⟨1, _, run_crcStarted_short hh hlen, rfl, rfl, rfl, rfl, rfl, rfl⟩
  · obtain ⟨r, hrun⟩ := run_crcStarted_unknown hh hlen hv
    exact ⟨_, _, hrun, rfl, rfl, rfl, rfl, rfl, rfl⟩
  · rw [bootCrcOf_zeros hzero]
    exact ⟨rfl, rfl⟩

/-- R145: whatever the offset, the table word lies inside the boot block. -/
theorem tableOffset_in_bootBlock (i : Nat) : 0x40 ≤ tableOffset i ∧ tableOffset i + 4 ≤ 0x1000 := by
  unfold tableOffset tbl6105Off
  omega

/-- Settles O47: identification has reported both registers when the region's bounds fail. -/
theorem crcRegionFault : Obligations.CrcRegionFault := by
  intro s s1 v hh hb h hlen hshort hv
  rw [exec_crc_of_not_busy hb] at h
  cases h
  obtain ⟨r, hrun⟩ := run_crcStarted_noRegion hh hlen hshort hv
  exact ⟨_, _, hrun, rfl, rfl, rfl, rfl, rfl, rfl, rfl, rfl, tableOffset_in_bootBlock⟩

end Sys2Proof.Machine
end

section
/-! A `CRC` that ends `DONE` (40_cic_checksum R130 to R152). -/

namespace Sys2Proof.Machine

theorem read32_write32 (m : Memory) (a : Nat) (v : Word) : Memory.read32 (Memory.write32 m a v) a = v := by
  have hbyte : ∀ k, k < 4 → Memory.read (Memory.write32 m a v) (a + k) = (be32Bytes v).getD k 0 :=
    fun k hk => read_writeBytes_inside m (be32Bytes v) hk
  rw [Memory.read32, show Memory.read (Memory.write32 m a v) a = (be32Bytes v).getD 0 0 from hbyte 0 (by decide),
    hbyte 1 (by decide), hbyte 2 (by decide), hbyte 3 (by decide)]
  exact be32_of_be32Bytes v

theorem read32_writeCrcWords_crc1 (rom : Memory) (w1 w2 : Word) :
    Memory.read32 (writeCrcWords rom w1 w2) 0x10 = w1 :=
  (read32_congr fun _ _ hb => read_write32_outside _ w2 (.inl hb)).trans (read32_write32 rom 0x10 w1)

theorem read32_writeCrcWords_crc2 (rom : Memory) (w1 w2 : Word) :
    Memory.read32 (writeCrcWords rom w1 w2) 0x14 = w2 := read32_write32 _ 0x14 w2

/-- Settles O45: the result of the run from acceptance, and the two words read back from it. -/
theorem crcComputesChecksums : Obligations.CrcComputesChecksums := by
  intro s s1 v hh hb hlen hv h
  rw [exec_crc_of_not_busy hb] at h
  cases h
  obtain ⟨r, hrun⟩ := run_crcStarted hh hlen hv
  exact ⟨_, _, hrun, rfl, rfl, rfl, rfl, rfl, rfl, rfl, rfl, rfl, read32_writeCrcWords_crc1 _ _ _,
    read32_writeCrcWords_crc2 _ _ _, (writtenWithin_writeCrcWords _ _ _).outside, rfl, rfl⟩

/-- The two words are all that is in `ROM[0x10..0x18)` after the write-back. -/
theorem agreeOn_writeCrcWords_words (rom rom' : Memory) (w1 w2 : Word) :
    AgreeOn (writeCrcWords rom w1 w2) (writeCrcWords rom' w1 w2) 0x10 0x18 := fun x hlow hhigh => by
  rw [read_writeCrcWords, read_writeCrcWords]
  by_cases hx : x < 0x14
  · have hnot : ¬ (0x14 ≤ x ∧ x < 0x18) := fun h => Nat.not_le.mpr hx h.1
    rw [if_neg hnot, if_neg hnot, if_pos ⟨hlow, hx⟩, if_pos ⟨hlow, hx⟩]
  · have hsecond : 0x14 ≤ x ∧ x < 0x18 := ⟨Nat.le_of_not_lt hx, hhigh⟩
    rw [if_pos hsecond, if_pos hsecond]

/-- Settles O49: both machines make the same number of moves, and what they compute reads the common bytes only. -/
theorem crcDependsOnRomOnly : Obligations.CrcDependsOnRomOnly := by
  intro s s1 u u1 v hhs hbs hhu hbu hlens hlenu hv hagree hs hu
  rw [exec_crc_of_not_busy hbs] at hs
  rw [exec_crc_of_not_busy hbu] at hu
  cases hs
  cases hu
  have hboot := bootCrcOf_congr hagree
  have hcrc1 := romCrc1_congr v hagree
  have hcrc2 := romCrc2_congr v hagree
  obtain ⟨r, hrun⟩ := run_crcStarted hhs hlens hv
  obtain ⟨r', hrun'⟩ := run_crcStarted hhu hlenu (hboot ▸ hv)
  refine ⟨_, _, _, hrun, hrun', rfl, rfl, rfl, hboot, hcrc1, hcrc2, ?_⟩
  rw [crcResult_rom, crcResult_rom, crcStarted_rom, crcStarted_rom, hcrc1, hcrc2]
  exact agreeOn_writeCrcWords_words _ _ _ _

end Sys2Proof.Machine
end

section
/-! SUPPORT. What an item of a stream does to the decoder, as a function of the item, the decoder's registers and the lengths
(41_yaz0_decoder R173 to R181): which fault it raises, what it writes, how it moves the registers. -/

namespace Sys2Proof.Machine

/-- The items of a stream: a code byte or a token (30_encoding R95, R100). -/
def ofStream : Instr → Bool
  | .code _ => true
  | .lit _ => true
  | .ref2 _ _ => true
  | .ref3 _ _ => true
  | _ => false

/-- How many bytes of output an item makes. -/
def spanOfItem : Instr → Nat
  | .lit _ => 1
  | .ref2 n _ => lenOfRef2 n
  | .ref3 _ m => lenOfRef3 m
  | _ => 0

/-- How far back an item looks into the output. -/
def reachOfItem : Instr → Nat
  | .ref2 _ d => d.toNat + 1
  | .ref3 d _ => d.toNat + 1
  | _ => 0

/-- The fault an item raises, in the order of R181. -/
def itemFault (i : Instr) (r : DecRegs) (srcLen dstLen : Nat) : Option FaultCause :=
  if srcLen < r.srcPos + i.lengthBytes then some .srcExhausted
  else if r.dstPos < reachOfItem i then some .backrefUnderflow
  else if 0 < spanOfItem i ∧ dstLen < r.dstPos + spanOfItem i then some .dstOverflow
  else none

/-- The registers after an item that raises no fault (R173, R178, R179). -/
def regsAfter (i : Instr) (r : DecRegs) : DecRegs :=
  match i with
  | .code k => { r with cb := k, srcPos := r.srcPos + 1, bitCount := groupTokens }
  | i => r.advance i.lengthBytes (spanOfItem i)

/-- The output after an item that raises no fault, with the cursor at `q` (R174, R177). -/
def outputAfter (i : Instr) (q : Nat) (out : Memory) : Memory :=
  match i with
  | .lit v => Memory.write out q v
  | .ref2 n d => copyForward out (q - d.toNat - 1) q (lenOfRef2 n)
  | .ref3 d m => copyForward out (q - d.toNat - 1) q (lenOfRef3 m)
  | _ => out

/-- The state after an item that raises no fault. -/
def afterItem (i : Instr) (s : State) : State :=
  { s with dst := outputAfter i s.dec.dstPos s.dst, dec := regsAfter i s.dec }

theorem itemFault_eq_none_iff (i : Instr) (r : DecRegs) (srcLen dstLen : Nat) :
    itemFault i r srcLen dstLen = none ↔
      r.srcPos + i.lengthBytes ≤ srcLen ∧ reachOfItem i ≤ r.dstPos ∧
        (0 < spanOfItem i → r.dstPos + spanOfItem i ≤ dstLen) := by
  unfold itemFault
  split
  · simp only [reduceCtorEq, false_iff]; omega
  · split
    · simp only [reduceCtorEq, false_iff]; omega
    · split
      · simp only [reduceCtorEq, false_iff]; omega
      · simp only [true_iff]; omega

/-- The back-reference of the model is the item's fault, or the item's effect. -/
theorem backReference_eq_item {i : Instr} {dist len : Nat} {s : State} (hspan : spanOfItem i = len)
    (hreach : reachOfItem i = dist + 1) (hpos : 0 < len)
    (hdst : outputAfter i s.dec.dstPos s.dst = copyForward s.dst (s.dec.dstPos - dist - 1) s.dec.dstPos len)
    (hregs : regsAfter i s.dec = s.dec.advance i.lengthBytes len) :
    backReference i.lengthBytes dist len s =
      (itemFault i s.dec s.srcLen.toNat s.dstLen.toNat).elim (afterItem i s) (decRaise · s) := by
  unfold itemFault
  rw [hspan, hreach]
  rcases backReference_cases i.lengthBytes dist len s with
    ⟨h1, e⟩ | ⟨h1, h2, e⟩ | ⟨h1, h2, h3, e⟩ | ⟨h1, h2, h3, e⟩ <;> rw [e]
  · rw [if_pos h1]; rfl
  · rw [if_neg (by omega), if_pos h2]; rfl
  · rw [if_neg (by omega), if_neg (by omega), if_pos ⟨hpos, h3⟩]; rfl
  · rw [if_neg (by omega), if_neg (by omega), if_neg (by omega), Option.elim_none, afterItem, hdst, hregs]

/-- Everything executing an item of a stream does. -/
theorem exec_ofStream {i : Instr} (hi : ofStream i = true) (s : State) :
    exec i s = .next ((itemFault i s.dec s.srcLen.toNat s.dstLen.toNat).elim (afterItem i s) (decRaise · s)) := by
  cases i with
  | code k =>
    rw [exec, execCode, itemFault, Instr.lengthBytes]
    by_cases h : s.srcLen.toNat ≤ s.dec.srcPos
    · rw [if_pos h, if_pos (by omega)]; rfl
    · rw [if_neg h, if_neg (by omega)]; rfl
  | lit v =>
    have hfault : itemFault (.lit v) s.dec s.srcLen.toNat s.dstLen.toNat =
        if s.srcLen.toNat ≤ s.dec.srcPos then some .srcExhausted
        else if s.dstLen.toNat ≤ s.dec.dstPos then some .dstOverflow else none := by
      simp [itemFault, Instr.lengthBytes, reachOfItem, spanOfItem]
    rw [exec, execLit, hfault]
    split
    · rfl
    · split <;> rfl
  | ref2 n d =>
    exact congrArg Host.Outcome.next
      (backReference_eq_item (i := .ref2 n d) rfl rfl (Nat.succ_pos _) rfl rfl)
  | ref3 d m =>
    exact congrArg Host.Outcome.next
      (backReference_eq_item (i := .ref3 d m) rfl rfl (Nat.succ_pos _) rfl rfl)
  | hdr size => cases hi
  | crc => cases hi
  | dec => cases hi
  | enc => cases hi

/-- An item that raises no fault completes. -/
theorem exec_of_itemFault_none {i : Instr} {s : State} (hi : ofStream i = true)
    (h : itemFault i s.dec s.srcLen.toNat s.dstLen.toNat = none) : exec i s = .next (afterItem i s) := by
  rw [exec_ofStream hi, h, Option.elim_none]

/-- An item that raises a fault ends the operation with it. -/
theorem exec_of_itemFault_some {i : Instr} {s : State} {c : FaultCause} (hi : ofStream i = true)
    (h : itemFault i s.dec s.srcLen.toNat s.dstLen.toNat = some c) : exec i s = .next (decRaise c s) := by
  rw [exec_ofStream hi, h, Option.elim_some]

theorem regsAfter_srcPos (i : Instr) (r : DecRegs) : (regsAfter i r).srcPos = r.srcPos + i.lengthBytes := by
  cases i <;> rfl

theorem regsAfter_dstPos (i : Instr) (r : DecRegs) : (regsAfter i r).dstPos = r.dstPos + spanOfItem i := by
  cases i <;> rfl

/-- A token moves the cursors and shifts the code byte (R178, R179). -/
theorem regsAfter_token {i : Instr} {b : Bool} (hi : i.context = .token b) (r : DecRegs) :
    regsAfter i r = r.advance i.lengthBytes (spanOfItem i) := by
  cases i <;> first | rfl | cases hi

theorem ofStream_of_context {i : Instr} {r : DecRegs} (h : i.context = r.context) : ofStream i = true := by
  unfold DecRegs.context at h
  split at h <;> cases i <;> first | rfl | cases h

/-! ## The output -/

/-- The copy repeats the last `dist + 1` bytes before it (41_yaz0_decoder R177). -/
theorem read_copyForward_periodic {dist q n : Nat} (m : Memory) (h : dist + 1 ≤ q) (k : Nat) (hk : k < n) :
    Memory.read (copyForward m (q - dist - 1) q n) (q + k) = Memory.read m (q - dist - 1 + k % (dist + 1)) := by
  induction k using Nat.strong_induction_on with
  | _ k ih =>
    rw [read_copyForward_seq n m (q - dist - 1) q k (by omega) hk]
    by_cases hlt : k < dist + 1
    · rw [Nat.mod_eq_of_lt hlt, read_copyForward_outside _ _ _ _ _ (by omega)]
    · rw [show q - dist - 1 + k = q + (k - (dist + 1)) by omega, ih _ (by omega) (by omega),
        ← Nat.mod_eq_sub_mod (by omega)]

/-- An item writes its span at the cursor and nothing else. -/
theorem read_outputAfter_outside {i : Instr} {q a : Nat} (out : Memory) (h : a < q ∨ q + spanOfItem i ≤ a) :
    Memory.read (outputAfter i q out) a = Memory.read out a := by
  cases i with
  | lit v => exact read_write_ne out v (by rw [spanOfItem] at h; omega)
  | ref2 n d => exact read_copyForward_outside _ _ _ _ _ h
  | ref3 d m => exact read_copyForward_outside _ _ _ _ _ h
  | _ => rfl

/-- A back-reference's output, and the lookback and the span it has, by its two fields. -/
theorem backRef_item {i : Instr} {len dist : Nat} (h : backRefFields i = some (len, dist)) :
    ofStream i = true ∧ i.context = .token false ∧ spanOfItem i = len ∧ reachOfItem i = dist + 1 ∧ 0 < len ∧
      ∀ q out, outputAfter i q out = copyForward out (q - dist - 1) q len := by
  cases i with
  | ref2 n d => cases h; exact ⟨rfl, rfl, rfl, rfl, Nat.succ_pos _, fun _ _ => rfl⟩
  | ref3 d m => cases h; exact ⟨rfl, rfl, rfl, rfl, Nat.succ_pos _, fun _ _ => rfl⟩
  | _ => cases h

/-- What an item that does not look back beyond the output leaves below its cursor depends on the bytes written before it
only. -/
theorem agreeOn_outputAfter {i : Instr} {q : Nat} {out out' : Memory} (hreach : reachOfItem i ≤ q)
    (h : AgreeOn out out' 0 q) : AgreeOn (outputAfter i q out) (outputAfter i q out') 0 (q + spanOfItem i) := by
  intro x _ hx
  by_cases hxq : x < q
  · rw [read_outputAfter_outside _ (.inl hxq), read_outputAfter_outside _ (.inl hxq)]
    exact h x (Nat.zero_le x) hxq
  · obtain ⟨k, rfl⟩ := Nat.exists_eq_add_of_le (Nat.le_of_not_lt hxq)
    have hcopy : ∀ dist len, dist + 1 ≤ q → k < len →
        Memory.read (copyForward out (q - dist - 1) q len) (q + k) =
          Memory.read (copyForward out' (q - dist - 1) q len) (q + k) := by
      intro dist len hd hk
      have hmod : k % (dist + 1) < dist + 1 := Nat.mod_lt k (Nat.succ_pos dist)
      rw [read_copyForward_periodic out hd k hk, read_copyForward_periodic out' hd k hk]
      exact h _ (Nat.zero_le _) (by omega)
    cases i with
    | lit v =>
      have hk : k = 0 := by rw [spanOfItem] at hx; omega
      subst hk
      exact (read_write_same out q v).trans (read_write_same out' q v).symm
    | ref2 n d => exact hcopy _ _ hreach (Nat.lt_of_add_lt_add_left hx)
    | ref3 d m => exact hcopy _ _ hreach (Nat.lt_of_add_lt_add_left hx)
    | _ => exact absurd hx hxq

end Sys2Proof.Machine
end

section
/-! SUPPORT. The fetch by what stands at the cursor: the decoder fetches exactly the item whose encoding is there (41_yaz0_decoder
R173 to R176, 30_encoding R100), and the decoder's moves by what it fetched (R180). -/

namespace Sys2Proof.Machine

/-! ## Bytes in a space -/

/-- These bytes stand in the space from `a` on. -/
def HoldsAt (m : Memory) (a : Nat) (bs : List Byte) : Prop := Memory.readBytes m a bs.length = bs

theorem readBytes_add (m : Memory) (k : Nat) : ∀ a n : Nat,
    Memory.readBytes m a (n + k) = Memory.readBytes m a n ++ Memory.readBytes m (a + n) k := by
  intro a n
  induction n generalizing a with
  | zero => rw [Nat.zero_add]; rfl
  | succ n ih =>
    rw [show n + 1 + k = n + k + 1 by omega, Memory.readBytes, Memory.readBytes, ih, List.cons_append,
      show a + 1 + n = a + (n + 1) by omega]

theorem holdsAt_append {m : Memory} {a : Nat} {xs ys : List Byte} :
    HoldsAt m a (xs ++ ys) ↔ HoldsAt m a xs ∧ HoldsAt m (a + xs.length) ys := by
  unfold HoldsAt
  rw [List.length_append, readBytes_add]
  refine ⟨fun h => List.append_inj h (readBytes_length _ _ _), fun ⟨hx, hy⟩ => ?_⟩
  rw [hx, hy]

theorem AgreeOn.holdsAt {m m' : Memory} {b a : Nat} {bs : List Byte} (h : AgreeOn m m' 0 b) (hb : a + bs.length ≤ b)
    (hm : HoldsAt m a bs) : HoldsAt m' a bs := by
  unfold HoldsAt at *
  rw [← hm, readBytes_length]
  exact (readBytes_congr _ m m' a fun x _ hx => h x (Nat.zero_le x) (by omega)).symm

/-- Two items that stand at the same place and are read in the same context are the same: no encoding is the beginning of
another (R100). -/
theorem item_unique {i j : Instr} {m : Memory} {a : Nat} (hi : i.wf = true) (hj : j.wf = true)
    (hc : i.context = j.context) (him : HoldsAt m a (encode i)) (hjm : HoldsAt m a (encode j)) : i = j := by
  have hread : ∀ k : Instr, k.wf = true → HoldsAt m a (encode k) → ∀ n, (encode k).length ≤ n →
      ∃ rest, decode k.context (Memory.readBytes m a n) = .ok (k, rest) := by
    intro k hk hm n hn
    obtain ⟨d, rfl⟩ := Nat.exists_eq_add_of_le hn
    rw [readBytes_add, hm]
    exact ⟨_, decodeOfEncode k _ hk⟩
  obtain ⟨_, hri⟩ := hread i hi him _ (Nat.le_max_left _ (encode j).length)
  obtain ⟨_, hrj⟩ := hread j hj hjm _ (Nat.le_max_right (encode i).length _)
  rw [hc, hrj] at hri
  cases hri
  rfl

/-! ## The fetch -/

/-- No item of a stream is longer than the three bytes the decoder looks at. -/
theorem lengthBytes_le_three {i : Instr} (hi : ofStream i = true) : i.lengthBytes ≤ 3 := by
  cases i <;> first | exact Nat.le_of_ble_eq_true rfl | cases hi

/-- The fetch gives the item whose encoding stands at the cursor within `SRC_LEN`, and no other. -/
theorem fetchToken_ok_iff (s : State) (i : Instr) :
    fetchToken s = .ok i ↔
      i.wf = true ∧ i.context = s.dec.context ∧ HoldsAt s.src s.dec.srcPos (encode i) ∧
        s.dec.srcPos + i.lengthBytes ≤ s.srcLen.toNat := by
  unfold fetchToken
  constructor
  · intro h
    cases hd : decode s.dec.context s.streamAhead with
    | error e => rw [hd] at h; cases h
    | ok p =>
      obtain ⟨j, rest⟩ := p
      rw [hd] at h
      cases h
      obtain ⟨hwf, hctx, hbytes⟩ := encodeOfDecode _ _ _ _ hd
      have hlen := congrArg List.length hbytes
      rw [State.streamAhead, readBytes_length, List.length_append, encode_length] at hlen
      have hpos : 0 < i.lengthBytes := by cases i <;> exact Nat.succ_pos _
      refine ⟨hwf, hctx, ?_, by omega⟩
      rw [State.streamAhead, hlen, readBytes_add] at hbytes
      rw [HoldsAt, encode_length]
      exact (List.append_inj hbytes (by rw [readBytes_length, encode_length])).1
  · rintro ⟨hwf, hctx, hbytes, hlen⟩
    have h3 := lengthBytes_le_three (ofStream_of_context hctx)
    obtain ⟨k, hk⟩ := Nat.exists_eq_add_of_le (Nat.le_min.mpr ⟨h3, Nat.le_sub_of_add_le' hlen⟩)
    rw [HoldsAt, encode_length] at hbytes
    rw [State.streamAhead, hk, readBytes_add, hbytes, ← hctx, decodeOfEncode i _ hwf]

theorem fetchToken_context {s : State} {i : Instr} (h : fetchToken s = .ok i) : i.context = s.dec.context := by
  obtain ⟨_, hctx, _⟩ := (fetchToken_ok_iff s i).mp h
  exact hctx

/-! ## The decoder's moves -/

theorem step_decTurn {s : State} (hh : s.host = []) (hb : s.status = .busy) (hu : s.unit = .dec) :
    step s = (decTurn s).outcome := by
  rw [step_eq, turn, hh]
  simp only [blockTurn, hb, hu]

/-- A running decoder executes what it fetched. -/
theorem step_of_fetchToken {s : State} {i : Instr} (hs : s.Decoding) (hf : fetchToken s = .ok i) : step s = exec i s := by
  obtain ⟨hh, hb, hu, hd⟩ := hs
  rw [step_decTurn hh hb hu, decTurn, if_neg hd, hf]
  rfl

/-- A running decoder without the bytes of an item faults. -/
theorem step_of_fetchToken_error {s : State} {e : DecodeError} (hs : s.Decoding) (hf : fetchToken s = .error e) :
    step s = .next (decRaise .srcExhausted s) := by
  obtain ⟨hh, hb, hu, hd⟩ := hs
  rw [step_decTurn hh hb hu, decTurn, if_neg hd, hf]
  rfl

/-- A running decoder whose output is full completes (R183). -/
theorem step_decComplete {s : State} (hh : s.host = []) (hb : s.status = .busy) (hu : s.unit = .dec)
    (hd : s.dec.dstPos = s.dstLen.toNat) : step s = .next (decComplete s) := by
  rw [step_decTurn hh hb hu, decTurn, if_pos hd]
  rfl

/-- Everything a running decoder's step can do: no item is there, the item faults, or the item completes. -/
theorem step_decoding_cases {s : State} (hs : s.Decoding) :
    ((∃ e, fetchToken s = .error e) ∧ step s = .next (decRaise .srcExhausted s)) ∨
    (∃ i, fetchToken s = .ok i ∧
      ((∃ c, itemFault i s.dec s.srcLen.toNat s.dstLen.toNat = some c ∧ step s = .next (decRaise c s)) ∨
        (itemFault i s.dec s.srcLen.toNat s.dstLen.toNat = none ∧ step s = .next (afterItem i s)))) := by
  cases hf : fetchToken s with
  | error e => exact .inl ⟨⟨e, rfl⟩, step_of_fetchToken_error hs hf⟩
  | ok i =>
    have hi := ofStream_of_context (fetchToken_context hf)
    refine .inr ⟨i, rfl, ?_⟩
    rw [step_of_fetchToken hs hf]
    cases hfault : itemFault i s.dec s.srcLen.toNat s.dstLen.toNat with
    | none => exact .inr ⟨rfl, exec_of_itemFault_none hi hfault⟩
    | some c => exact .inl ⟨c, rfl, exec_of_itemFault_some hi hfault⟩

/-- A decoder step after which the decoder still runs has completed the item that stood at the cursor. -/
theorem step_decoding_goesOn {s t : State} (hs : s.Decoding) (h : step s = .next t) (hb : t.status = .busy) :
    ∃ i, fetchToken s = .ok i ∧ itemFault i s.dec s.srcLen.toNat s.dstLen.toNat = none ∧ t = afterItem i s := by
  rcases step_decoding_cases hs with ⟨_, e⟩ | ⟨i, hf, ⟨c, _, e⟩ | ⟨hn, e⟩⟩ <;> rw [e] at h <;> cases h
  · cases hb
  · cases hb
  · exact ⟨i, hf, hn, rfl⟩

end Sys2Proof.Machine
end

section
/-! What holds of the decoder's registers while it runs (41_yaz0_decoder R185). -/

namespace Sys2Proof.Machine

theorem decOk_of_not_busy {t : State} (h : t.status ≠ .busy) : t.DecOk := fun hb => absurd hb h

theorem decOk_of_unit_ne {t : State} (h : t.unit ≠ .dec) : t.DecOk := fun _ hu => absurd hu h

/-- After the shift for a used bit one more of the low bits is 0 (R179). -/
theorem shiftCode_unused (cb : Byte) {k : Nat} (hk : k + 1 ≤ 8) (h : cb.toNat % 2 ^ (8 - (k + 1)) = 0) :
    (shiftCode cb).toNat % 2 ^ (8 - k) = 0 := by
  have hpow : 2 ^ (8 - k) = 2 ^ (8 - (k + 1)) * 2 := by rw [← pow_succ]; congr 1; omega
  have hdvd : 2 ^ (8 - k) ∣ cb.toNat * 2 ^ 1 := by
    rw [hpow]
    exact Nat.mul_dvd_mul_right (Nat.dvd_of_mod_eq_zero h) 2
  rw [shiftCode, BitVec.toNat_shiftLeft, Nat.shiftLeft_eq, Nat.mod_mod_of_dvd _ (pow_dvd_pow 2 (Nat.sub_le 8 k))]
  exact Nat.mod_eq_zero_of_dvd hdvd

/-- An item without a fault keeps the cursors within the lengths, and the unused bits of the code byte 0. -/
theorem afterItem_decOk {s : State} {i : Instr} (hb : s.status = .busy) (hu : s.unit = .dec) (h : s.DecOk)
    (hctx : i.context = s.dec.context) (hfault : itemFault i s.dec s.srcLen.toNat s.dstLen.toNat = none) :
    (afterItem i s).DecOk := by
  intro _ _
  obtain ⟨_, hdst, hcount, hcb⟩ := h hb hu
  obtain ⟨hsize, _, hspan⟩ := (itemFault_eq_none_iff _ _ _ _).mp hfault
  have hsrc' : (regsAfter i s.dec).srcPos ≤ s.srcLen.toNat := by rw [regsAfter_srcPos]; exact hsize
  have hdst' : (regsAfter i s.dec).dstPos ≤ s.dstLen.toNat := by
    rw [regsAfter_dstPos]
    rcases Nat.eq_zero_or_pos (spanOfItem i) with h0 | hpos
    · rw [h0]; exact hdst
    · exact hspan hpos
  refine ⟨hsrc', hdst', ?_⟩
  show (regsAfter i s.dec).bitCount ≤ 8 ∧ (regsAfter i s.dec).cb.toNat % 2 ^ (8 - (regsAfter i s.dec).bitCount) = 0
  by_cases h0 : s.dec.bitCount = 0
  · rw [DecRegs.context, if_pos h0] at hctx
    cases i with
    | code k => exact ⟨Nat.le_refl 8, Nat.mod_one _⟩
    | _ => cases hctx
  · rw [DecRegs.context, if_neg h0] at hctx
    obtain ⟨k, hk⟩ := Nat.exists_eq_add_one_of_ne_zero h0
    rw [hk] at hcount hcb
    rw [regsAfter_token hctx, advance_bitCount, advance_cb, hk]
    exact ⟨by omega, shiftCode_unused _ hcount hcb⟩

theorem command_decOk {s t : State} {i : Instr} (hb : s.status ≠ .busy) (hi : i = .crc ∨ i = .dec ∨ i = .enc)
    (h : exec i s = .next t) : t.DecOk := by
  rcases command_cases s with ⟨hb', _⟩ | ⟨_, hcrc, hdec, henc⟩
  · exact absurd hb' hb
  · rcases hi with rfl | rfl | rfl
    · rw [hcrc] at h; cases h
      exact decOk_of_unit_ne nofun
    · rw [hdec] at h; cases h
      exact fun _ _ => ⟨Nat.zero_le _, Nat.zero_le _, Nat.zero_le _, rfl⟩
    · rw [henc] at h; cases h
      exact decOk_of_unit_ne nofun

/-- A space is no register of the decoder. -/
theorem State.DecOk.withSpace {s : State} (h : s.DecOk) (sp : Space) (m : Memory) : (s.withSpace sp m).DecOk := by
  rw [withSpace_eq]
  exact h

theorem crcTurn_unit (s : State) : (crcTurn s).unit = s.unit := by
  unfold crcTurn
  cases s.crcU.phase with
  | bootBounds => simp only [crcBootBounds]; split <;> rfl
  | bootCrc => simp only [crcBootByte]; split <;> rfl
  | identify => simp only [crcIdentify]; split <;> rfl
  | regionBounds => simp only [crcRegionBounds]; split <;> rfl
  | region => simp only [crcWord]; split <;> rfl
  | finalise => rfl
  | writeBack => rfl

theorem CodecMove.decOk {s t : State} (m : CodecMove s t) (hu : s.unit ≠ .dec) : t.DecOk :=
  decOk_of_unit_ne (m.unit.trans_ne hu)

/-- A code byte or token faults, which ends the operation, or completes. -/
theorem token_decOk {s t : State} {i : Instr} (hb : s.status = .busy) (hu : s.unit = .dec) (hf : fetchToken s = .ok i)
    (he : exec i s = .next t) (h : s.DecOk) : t.DecOk := by
  have hctx := fetchToken_context hf
  have hi := ofStream_of_context hctx
  cases hfault : itemFault i s.dec s.srcLen.toNat s.dstLen.toNat with
  | none =>
    rw [exec_of_itemFault_none hi hfault] at he
    cases he
    exact afterItem_decOk hb hu h hctx hfault
  | some c =>
    rw [exec_of_itemFault_some hi hfault] at he
    cases he
    exact decOk_of_not_busy nofun

theorem decOk_kept : Kept State.DecOk where
  hostSide := fun _ _ _ _ h => h
  cmd := fun _ _ h => h
  lengths := fun _ _ hb _ => ⟨decOk_of_not_busy hb, decOk_of_not_busy hb, decOk_of_not_busy hb⟩
  command := fun _ _ _ hb hi he _ => command_decOk hb hi he
  illegal := fun _ _ _ => decOk_of_not_busy nofun
  poke := fun _ sp _ _ _ _ h => h.withSpace sp _
  bind := fun _ sp _ _ _ h => h.withSpace sp _
  reset := fun _ _ => decOk_of_not_busy nofun
  crcMove := fun s _ hu _ => decOk_of_unit_ne ((crcTurn_unit s).trans_ne (hu.trans_ne nofun))
  decDone := fun _ _ _ _ _ => decOk_of_not_busy nofun
  decShort := fun _ _ _ _ _ => decOk_of_not_busy nofun
  decToken := fun _ _ _ hb hu _ hf he => token_decOk hb hu hf he
  encTokens := fun s _ hu _ _ => (codecMove_encMainLoop s).decOk (hu.trans_ne nofun)
  encHeader := fun _ _ _ hu _ he _ => (codecMove_exec (hdr_context_ne_command _) he).decOk (hu.trans_ne nofun)
  encFrame := fun s _ hu _ _ => (codecMove_encBody _ s).decOk (hu.trans_ne nofun)

/-- Settles O25: an item that completes keeps cursors and code byte in range, and every other move ends the operation, finds no
`DEC` running or leaves the decoder's registers alone. -/
theorem decoderInvariant : Obligations.DecoderInvariant := fun _ _ hs h => decOk_kept.step hs h

end Sys2Proof.Machine
end

section
/-! The items of a stream as instructions (41_yaz0_decoder R173 to R181). -/

namespace Sys2Proof.Machine

/-- Settles O17: a code byte has no output and no source in the output, so only its byte can be missing. -/
theorem codeRuns : Obligations.CodeRuns := fun k _ hlen =>
  exec_of_itemFault_none (i := .code k) rfl
    ((itemFault_eq_none_iff _ _ _ _).mpr ⟨hlen, Nat.zero_le _, fun h => absurd h (Nat.lt_irrefl 0)⟩)

/-- Settles O19: neither check of a literal fails, and the write is read back. -/
theorem litRuns : Obligations.LitRuns := fun v s hsrc hdst =>
  ⟨_, exec_of_itemFault_none (i := .lit v) rfl
      ((itemFault_eq_none_iff _ _ _ _).mpr ⟨hsrc, Nat.zero_le _, fun _ => hdst⟩),
    read_write_same s.dst s.dec.dstPos v, fun _ ha => read_write_ne s.dst v ha, rfl⟩

/-- Settles O21: no check fails, and the forward copy repeats the last bytes before it. -/
theorem backReferenceRuns : Obligations.BackReferenceRuns := by
  intro i len dist size s hfields hsize hsrc hreach hspan
  subst hsize
  obtain ⟨hi, hctx, hlen, hdist, _, hout⟩ := backRef_item hfields
  have hfault : itemFault i s.dec s.srcLen.toNat s.dstLen.toNat = none :=
    (itemFault_eq_none_iff _ _ _ _).mpr ⟨hsrc, by rw [hdist]; exact hreach, fun _ => by rw [hlen]; exact hspan⟩
  refine ⟨_, exec_of_itemFault_none hi hfault, fun k hk => ?_, fun a ha => ?_, ?_⟩
  · rw [afterItem, hout]
    exact read_copyForward_periodic s.dst hreach k hk
  · exact read_outputAfter_outside s.dst (by rw [hlen]; exact ha)
  · rw [afterItem, regsAfter_token hctx, hlen]
    rfl

/-- Settles O22: the item's checks stand in the order of R181, and each fault leaves what fault entry says. -/
theorem backReferenceFaults : Obligations.BackReferenceFaults := by
  intro i len dist s hfields
  obtain ⟨hi, _, hlen, hdist, hpos, _⟩ := backRef_item hfields
  have hends : ∀ c, itemFault i s.dec s.srcLen.toNat s.dstLen.toNat = some c →
      ∃ t, exec i s = .next t ∧ Faulted c s.dec.stepStart s.dec.dstPos s t := fun c h =>
    ⟨_, exec_of_itemFault_some hi h, decRaise_faulted c s⟩
  refine ⟨fun hsrc => hends _ ?_, fun hsrc hreach => hends _ ?_, fun hsrc hreach hspan => hends _ ?_⟩ <;>
    rw [itemFault, hlen, hdist]
  · rw [if_pos hsrc]
  · rw [if_neg (Nat.not_lt.mpr hsrc), if_pos hreach]
  · rw [if_neg (Nat.not_lt.mpr hsrc), if_neg (Nat.not_lt.mpr hreach), if_pos ⟨hpos, hspan⟩]

end Sys2Proof.Machine
end

section
/-! The steps of a running decoder (41_yaz0_decoder R172 to R183). -/

namespace Sys2Proof.Machine

/-- A decoder step without the bytes of its item leaves what R181 says. -/
theorem step_short {s : State} {e : DecodeError} (hs : s.Decoding) (hf : fetchToken s = .error e) :
    ∃ t, step s = .next t ∧ Faulted .srcExhausted s.dec.stepStart s.dec.dstPos s t :=
  ⟨_, step_of_fetchToken_error hs hf, decRaise_faulted _ s⟩

/-- Settles O18: at the start of a group the fetch gives the code byte, if there is one. -/
theorem groupFetchStep : Obligations.GroupFetchStep := by
  intro s hs h0
  have hfetch := fetchToken_groupStart s h0
  refine ⟨fun hlen => ?_, fun hlen => ?_⟩
  · rw [if_pos hlen] at hfetch
    rw [step_of_fetchToken hs hfetch, codeRuns _ s hlen]
  · rw [if_neg (Nat.not_lt.mpr hlen)] at hfetch
    have hstart : s.dec.stepStart = s.dec.srcPos := if_neg (by rw [h0]; decide)
    rw [← hstart]
    exact step_short hs hfetch

/-- Settles O20: under a code bit 1 the fetch gives the literal, if there is one. -/
theorem literalStep : Obligations.LiteralStep := by
  intro s hs h0 hbit hdst
  have hfetch := fetchToken_literal s h0 hbit
  refine ⟨fun hlen => ?_, fun hlen => ?_⟩
  · rw [if_pos hlen] at hfetch
    rw [step_of_fetchToken hs hfetch]
    exact litRuns _ s hlen hdst
  · rw [if_neg (Nat.not_lt.mpr hlen)] at hfetch
    exact step_short hs hfetch

/-- Settles O23: under a code bit 0 the fetch gives the back-reference the high nibble selects, if its bytes are there. -/
theorem backReferenceStep : Obligations.BackReferenceStep := by
  intro s hs h0 hbit
  have hfetch := fetchToken_backRef s h0 hbit
  refine ⟨fun hlen hn => ?_, fun hlen hn => ?_, fun hshort => ?_⟩
  · rw [if_pos ⟨hn, hlen⟩] at hfetch
    exact step_of_fetchToken hs hfetch
  · rw [if_neg fun h => h.1 hn, if_pos ⟨hn, hlen⟩] at hfetch
    exact step_of_fetchToken hs hfetch
  · have hno2 : ¬ ((Memory.read s.src s.dec.srcPos).extractLsb' 4 4 ≠ 0 ∧ s.dec.srcPos + 2 ≤ s.srcLen.toNat) :=
      fun h => hshort.elim (Nat.not_lt.mpr h.2) fun h' => h.1 h'.2
    have hno3 : ¬ ((Memory.read s.src s.dec.srcPos).extractLsb' 4 4 = 0 ∧ s.dec.srcPos + 3 ≤ s.srcLen.toNat) :=
      fun h => hshort.elim (Nat.not_lt.mpr (Nat.le_of_succ_le h.2)) fun h' => Nat.not_lt.mpr h.2 h'.1
    rw [if_neg hno2, if_neg hno3] at hfetch
    exact step_short hs hfetch

/-- Settles O24: the termination test comes first, and completion reports the cursors. -/
theorem decoderCompletes : Obligations.DecoderCompletes := by
  intro s hh hb hu hd
  rw [step_decComplete hh hb hu hd, decComplete, complete, hd, BitVec.ofNat_toNat, BitVec.setWidth_eq]

/-- Settles O10: not busy, `DEC` is accepted and its unit started. -/
theorem acceptDec : Obligations.AcceptDec := fun _ hb => if_neg hb

end Sys2Proof.Machine
end

section
/-! SUPPORT. The block's move always leads to a next state, and leaves the host's side of the machine (log 3). -/

namespace Sys2Proof.Machine

theorem crcTurn_host (s : State) : (crcTurn s).host = s.host := by
  unfold crcTurn
  cases s.crcU.phase with
  | bootBounds => simp only [crcBootBounds]; split <;> rfl
  | bootCrc => simp only [crcBootByte]; split <;> rfl
  | identify => simp only [crcIdentify]; split <;> rfl
  | regionBounds => simp only [crcRegionBounds]; split <;> rfl
  | region => simp only [crcWord]; split <;> rfl
  | finalise => rfl
  | writeBack => rfl

/-- An instruction always has a next state. -/
theorem exec_next (i : Instr) (s : State) : ∃ t, exec i s = .next t ∧ t.host = s.host := by
  by_cases hi : ofStream i = true
  · refine ⟨_, exec_ofStream hi s, ?_⟩
    cases itemFault i s.dec s.srcLen.toNat s.dstLen.toNat <;> rfl
  · cases i with
    | hdr size => rw [exec, execHdr]; split <;> exact ⟨_, rfl, rfl⟩
    | crc => rw [exec, execCrc]; split <;> exact ⟨_, rfl, rfl⟩
    | dec => rw [exec, execDec]; split <;> exact ⟨_, rfl, rfl⟩
    | enc => rw [exec, execEnc]; split <;> exact ⟨_, rfl, rfl⟩
    | _ => exact absurd rfl hi

theorem decTurn_next (s : State) : ∃ t, (decTurn s).outcome = .next t ∧ t.host = s.host := by
  rcases decTurn_cases s with ⟨_, e⟩ | ⟨_, i, _, e⟩ | ⟨_, _, _, e⟩ <;> rw [e]
  · exact ⟨_, rfl, rfl⟩
  · exact exec_next i s
  · exact ⟨_, rfl, rfl⟩

theorem encTurn_next (s : State) : ∃ t, (encTurn s).outcome = .next t ∧ t.host = s.host := by
  unfold encTurn
  cases s.enc.phase with
  | tokens => refine ⟨_, rfl, ?_⟩; rw [encMainLoop]; split <;> rfl
  | header => exact exec_next (.hdr s.srcLen) s
  | body => refine ⟨_, rfl, ?_⟩; rw [encBody]; split <;> rfl

theorem blockTurn_next (s : State) : ∃ t, (blockTurn s).outcome = .next t ∧ t.host = s.host := by
  unfold blockTurn
  cases s.status with
  | busy =>
    cases s.unit with
    | crc => exact ⟨_, rfl, crcTurn_host s⟩
    | dec => exact decTurn_next s
    | enc => exact encTurn_next s
  | idle => exact ⟨s, rfl, rfl⟩
  | done => exact ⟨s, rfl, rfl⟩
  | fault => exact ⟨s, rfl, rfl⟩

/-- With no host action left a step is the block's move. -/
theorem step_of_no_host {s : State} (hh : s.host = []) : step s = (blockTurn s).outcome := by
  rw [step_eq, turn, hh]

theorem step_host_of_no_host {s t : State} (hh : s.host = []) (h : step s = .next t) : t.host = [] := by
  obtain ⟨u, hu, hhost⟩ := blockTurn_next s
  rw [step_of_no_host hh, hu] at h
  cases h
  exact hhost.trans hh

end Sys2Proof.Machine
end

section
/-! A step runs the decoded instruction (41_yaz0_decoder R180, 43_host_commands R250, R258, 42_yaz0_encoder R230). -/

namespace Sys2Proof.Machine

variable {s : State} {rest : List HostAction}

/-- A poll of a running operation reads `BUSY` and lets the block move (R258). -/
theorem turn_poll_of_busy (hh : s.host = .poll :: rest) (hb : s.status = .busy) :
    turn s = blockTurn { s with readData := 1 } := by
  have hread : s.regValue .status = 1 := by rw [State.regValue, hb, Status.code]
  rw [← hread]
  simp only [turn, hh, pollTurn, hb]

/-- A poll of an operation that does not run reads `STATUS` and is done (R258). -/
theorem step_poll_of_not_busy (hh : s.host = .poll :: rest) (hb : s.status ≠ .busy) :
    step s = .next { s with host := rest, readData := s.status.code } := by
  rw [step_eq, turn, hh]
  simp only [pollTurn]
  cases hst : s.status with
  | busy => exact absurd hst hb
  | _ => simp only [Turn.outcome, State.regValue, hst]

theorem step_issue {v : Word} {i : Instr} (hb : s.status ≠ .busy) (hh : s.host = .write .cmd v :: rest)
    (hd : decodeCommand v = .ok i) : step s = exec i { s with host := rest, cmd := v } := by
  rw [step_writeCmd hh, issueCommand, if_neg hb, hd]
  rfl

theorem step_header (hh : s.host = []) (hb : s.status = .busy) (hu : s.unit = .enc) (hp : s.enc.phase = .header) :
    step s = exec (.hdr s.srcLen) s := by
  rw [step_of_no_host hh]
  simp only [blockTurn, hb, hu, encTurn, hp, Turn.outcome]

end Sys2Proof.Machine

namespace Sys2Proof.Machine

/-- Settles O7: the decoder's fetch, the host's command and the encoder's header, and the host's three ways to let the block
move. -/
theorem stepRunsDecoded : Obligations.StepRunsDecoded := by
  refine ⟨fun s i => step_of_fetchToken, fun s v i rest => step_issue, fun s => step_header,
    fun s hh => by rw [turn, hh], fun s rest hh => by rw [turn, hh], fun s rest hh => ⟨fun hb => ?_, fun hb => ?_,
      fun hb => ?_, fun hb => ?_⟩⟩
  · have hturn := turn_poll_of_busy hh hb
    obtain ⟨t, ht, hhost⟩ := blockTurn_next { s with readData := 1 }
    exact ⟨hturn, t, by rw [step_eq, hturn, ht], hhost.trans hh⟩
  · rw [step_poll_of_not_busy hh (hb.trans_ne nofun), hb, Status.code]
  · rw [step_poll_of_not_busy hh (hb.trans_ne nofun), hb, Status.code]
  · rw [step_poll_of_not_busy hh (hb.trans_ne nofun), hb, Status.code]

end Sys2Proof.Machine
end

section
/-! What the decoder has written depends only on what it has read (41_yaz0_decoder R185, R171). -/

namespace Sys2Proof.Machine

/-! ## One step -/

/-- The same item without a fault, from the same registers and the same output so far, leaves the same. -/
theorem afterItem_congr {s s' : State} {i : Instr} {srcLen dstLen : Nat} (hdec : s.dec = s'.dec)
    (hdst : AgreeOn s.dst s'.dst 0 s.dec.dstPos) (hfault : itemFault i s.dec srcLen dstLen = none) :
    (afterItem i s).dec = (afterItem i s').dec ∧
      AgreeOn (afterItem i s).dst (afterItem i s').dst 0 (afterItem i s).dec.dstPos := by
  obtain ⟨_, hreach, _⟩ := (itemFault_eq_none_iff _ _ _ _).mp hfault
  have hout := agreeOn_outputAfter (i := i) hreach hdst
  rw [← regsAfter_dstPos] at hout
  rw [afterItem, afterItem, ← hdec]
  exact ⟨rfl, hout⟩

/-- The bytes of the item that goes on, which are all the step reads of the input, decide the next registers and the next
output. -/
theorem goesOn_congr {s s' t t' : State} (hs : s.Decoding) (hs' : s'.Decoding) (hdec : s.dec = s'.dec)
    (hdst : AgreeOn s.dst s'.dst 0 s.dec.dstPos) (h : step s = .next t) (h' : step s' = .next t') (hb : t.status = .busy)
    (hb' : t'.status = .busy) (hsrc : AgreeOn s.src s'.src 0 t.dec.srcPos) :
    t.dec = t'.dec ∧ AgreeOn t.dst t'.dst 0 t.dec.dstPos := by
  obtain ⟨i, hf, hfault, rfl⟩ := step_decoding_goesOn hs h hb
  obtain ⟨j, hf', _, rfl⟩ := step_decoding_goesOn hs' h' hb'
  obtain ⟨hwf, hctx, hbytes, _⟩ := (fetchToken_ok_iff s i).mp hf
  obtain ⟨hwf', hctx', hbytes', _⟩ := (fetchToken_ok_iff s' j).mp hf'
  rw [← hdec] at hctx' hbytes'
  have hend : (afterItem i s).dec.srcPos = s.dec.srcPos + (encode i).length := by
    rw [encode_length]
    exact regsAfter_srcPos i s.dec
  have hij : i = j :=
    item_unique hwf hwf' (hctx.trans hctx'.symm) (hsrc.holdsAt (Nat.le_of_eq hend.symm) hbytes) hbytes'
  subst hij
  exact afterItem_congr hdec hdst hfault

/-- Two decoders that see the same bytes fetch the same. -/
theorem fetchToken_congr {s s' : State} (hdec : s.dec = s'.dec) (hlen : s.srcLen = s'.srcLen)
    (hsrc : AgreeOn s.src s'.src 0 s.srcLen.toNat) : fetchToken s = fetchToken s' := by
  have hahead : s.streamAhead = s'.streamAhead := by
    rw [State.streamAhead, State.streamAhead, ← hdec, ← hlen]
    exact readBytes_congr _ _ _ _ fun x _ hx => hsrc x (Nat.zero_le x) (by omega)
  rw [fetchToken, fetchToken, hahead, hdec]

/-- Two states in which the decoder stands alike: it runs on with the same output, or has stopped with the same report. -/
structure DecAlike (t t' : State) : Prop where
  status : t.status = t'.status
  dec : t.dec = t'.dec
  report : t.status = .fault → t.err = t'.err ∧ t.errInfo = t'.errInfo ∧ t.srcPos = t'.srcPos ∧ t.dstPos = t'.dstPos
  output : t.status = .busy → AgreeOn t.dst t'.dst 0 t.dec.dstPos

theorem decRaise_alike {s s' : State} (c : FaultCause) (hdec : s.dec = s'.dec) :
    DecAlike (decRaise c s) (decRaise c s') where
  status := rfl
  dec := hdec
  report := fun _ => ⟨rfl, rfl, by rw [decRaise_srcPos, decRaise_srcPos, hdec],
    by rw [decRaise_dstPos, decRaise_dstPos, hdec]⟩
  output := nofun

/-- With the same lengths the same item faults alike or goes on alike. -/
theorem step_alike {s s' t t' : State} (hs : s.Decoding) (hs' : s'.Decoding) (hdec : s.dec = s'.dec)
    (hlen : s.srcLen = s'.srcLen) (hdlen : s.dstLen = s'.dstLen) (hsrc : AgreeOn s.src s'.src 0 s.srcLen.toNat)
    (hdst : AgreeOn s.dst s'.dst 0 s.dec.dstPos) (h : step s = .next t) (h' : step s' = .next t') : DecAlike t t' := by
  have hfetch := fetchToken_congr hdec hlen hsrc
  cases hf : fetchToken s with
  | error e =>
    rw [step_of_fetchToken_error hs hf] at h
    rw [step_of_fetchToken_error hs' (hfetch ▸ hf)] at h'
    cases h
    cases h'
    exact decRaise_alike _ hdec
  | ok i =>
    have hi := ofStream_of_context (fetchToken_context hf)
    rw [step_of_fetchToken hs hf] at h
    rw [step_of_fetchToken hs' (hfetch ▸ hf)] at h'
    cases hfault : itemFault i s.dec s.srcLen.toNat s.dstLen.toNat with
    | some c =>
      rw [exec_of_itemFault_some hi hfault] at h
      rw [exec_of_itemFault_some hi (by rw [← hdec, ← hlen, ← hdlen]; exact hfault)] at h'
      cases h
      cases h'
      exact decRaise_alike c hdec
    | none =>
      rw [exec_of_itemFault_none hi hfault] at h
      rw [exec_of_itemFault_none hi (by rw [← hdec, ← hlen, ← hdlen]; exact hfault)] at h'
      cases h
      cases h'
      obtain ⟨_, hb, _, _⟩ := hs
      obtain ⟨_, hb', _, _⟩ := hs'
      obtain ⟨hdec', hout⟩ := afterItem_congr hdec hdst hfault
      exact ⟨hb.trans hb'.symm, hdec', fun hft => absurd (hb.symm.trans hft) nofun, fun _ => hout⟩

/-! ## A run -/

theorem run_succ_cases {n : Nat} {s t : State} (h : run (n + 1) s = .next t) :
    ∃ v, run n s = .next v ∧ step v = .next t := by
  induction n generalizing s with
  | zero =>
    rw [run_succ] at h
    cases hs : step s with
    | next u => rw [hs] at h; cases h; exact ⟨s, rfl, hs⟩
    | fault r => rw [hs] at h; cases h
    | refused r => rw [hs] at h; cases h
  | succ n ih =>
    rw [run_succ] at h
    cases hs : step s with
    | next u =>
      rw [hs] at h
      obtain ⟨v, hv, hstep⟩ := ih h
      exact ⟨v, by rw [run_succ_of_next hs]; exact hv, hstep⟩
    | fault r => rw [hs] at h; cases h
    | refused r => rw [hs] at h; cases h

/-- What a step keeps, a run keeps. -/
theorem run_keeps {P : State → Prop} (hstep : ∀ s t, P s → step s = .next t → P t) {n : Nat} {s t : State} (hs : P s)
    (h : run n s = .next t) : P t := by
  induction n generalizing t with
  | zero => cases h; exact hs
  | succ n ih =>
    obtain ⟨v, hv, hvt⟩ := run_succ_cases h
    exact hstep v t (ih hv) hvt

/-- With no host action left, an operation that still runs ran before. -/
theorem busy_before {s t : State} (hh : s.host = []) (h : step s = .next t) (hb : t.status = .busy) : s.status = .busy := by
  rw [step_of_no_host hh] at h
  rcases blockTurn_cases h with ⟨hs, _⟩ | ⟨_, rfl⟩
  · exact hs
  · exact hb

/-- An undisturbed `DEC` on the input `src`: nothing else runs, and `src` is not written. -/
structure Undisturbed (src : Memory) (s : State) : Prop where
  host : s.host = []
  unit : s.unit = .dec
  src : s.src = src

theorem undisturbed_step {src : Memory} {s t : State} (hs : Undisturbed src s) (h : step s = .next t) :
    Undisturbed src t := by
  have hhost := step_host_of_no_host hs.host h
  by_cases hb : s.status = .busy
  · rw [step_decTurn hs.host hb hs.unit] at h
    exact ⟨hhost, (codecMove_decTurn h).unit.trans hs.unit, (codecFootprint_decTurn h).src.trans hs.src⟩
  · rw [step_of_no_host hs.host] at h
    rcases blockTurn_cases h with ⟨hb', _⟩ | ⟨_, rfl⟩
    · exact absurd hb' hb
    · exact hs

theorem Undisturbed.decoding {src : Memory} {s t : State} (hs : Undisturbed src s) (h : step s = .next t)
    (hb : t.status = .busy) : s.Decoding := by
  have hbusy := busy_before hs.host h hb
  refine ⟨hs.host, hbusy, hs.unit, fun hd => ?_⟩
  rw [step_decComplete hs.host hbusy hs.unit hd] at h
  cases h
  cases hb

/-- Two undisturbed `DEC` runs from the same registers, both still running, whose inputs agree on the bytes consumed. -/
theorem run_congr {src src' : Memory} {s s' : State} (hs : Undisturbed src s) (hs' : Undisturbed src' s')
    (hdec : s.dec = s'.dec) (hdst : AgreeOn s.dst s'.dst 0 s.dec.dstPos) (n : Nat) : ∀ {t t' : State},
    run n s = .next t → run n s' = .next t' → t.status = .busy → t'.status = .busy → AgreeOn src src' 0 t.dec.srcPos →
      t.dec = t'.dec ∧ AgreeOn t.dst t'.dst 0 t.dec.dstPos := by
  induction n with
  | zero => intro t t' h h' _ _ _; cases h; cases h'; exact ⟨hdec, hdst⟩
  | succ n ih =>
    intro t t' h h' hb hb' hagree
    obtain ⟨v, hv, hvt⟩ := run_succ_cases h
    obtain ⟨v', hv', hvt'⟩ := run_succ_cases h'
    have hu := run_keeps (fun _ _ => undisturbed_step) hs hv
    have hu' := run_keeps (fun _ _ => undisturbed_step) hs' hv'
    have hd := hu.decoding hvt hb
    have hd' := hu'.decoding hvt' hb'
    obtain ⟨i, _, _, rfl⟩ := step_decoding_goesOn hd hvt hb
    have hmono : v.dec.srcPos ≤ (afterItem i v).dec.srcPos :=
      (Nat.le_add_right _ _).trans_eq (regsAfter_srcPos i v.dec).symm
    obtain ⟨hdecv, hdstv⟩ := ih hv hv' (busy_before hu.host hvt hb) (busy_before hu'.host hvt' hb')
      (hagree.mono (Nat.le_refl 0) hmono)
    exact goesOn_congr hd hd' hdecv hdstv hvt hvt' hb hb' (by rw [hu.src, hu'.src]; exact hagree)

/-- Acceptance of `DEC` with no host action left. -/
theorem exec_dec_undisturbed {u s : State} (hh : u.host = []) (hb : u.status ≠ .busy) (h : exec .dec u = .next s) :
    Undisturbed u.src s ∧ s.dec = DecRegs.start := by
  rw [acceptDec u hb] at h
  cases h
  exact ⟨⟨hh, rfl, rfl⟩, rfl⟩

/-- Settles O26: for one step by the item whose bytes stand at the cursor, for a run by induction on its length. -/
theorem decoderOutputDependsOnInput : Obligations.DecoderOutputDependsOnInput := by
  refine ⟨fun s s' t t' hs hs' hdec hdst h h' hb hb' => goesOn_congr hs hs' hdec hdst h h' hb hb',
    fun s s' t t' hs hs' hdec hlen hdlen hsrc hdst h h' => ?_, fun u u' s s' t t' n hh hb hh' hb' he he' h h' => ?_⟩
  · obtain ⟨hstatus, hdec', hreport, hout⟩ := step_alike hs hs' hdec hlen hdlen hsrc hdst h h'
    exact ⟨hstatus, hdec', hreport, hout⟩
  · obtain ⟨hs, hdec⟩ := exec_dec_undisturbed hh hb he
    obtain ⟨hs', hdec'⟩ := exec_dec_undisturbed hh' hb' he'
    exact run_congr hs hs' (hdec.trans hdec'.symm) (by rw [hdec]; exact fun x _ hx => absurd hx (Nat.not_lt_zero x)) n h h'

end Sys2Proof.Machine
end

section
/-! SUPPORT. What the encoder's search finds, and that its registers stay as they should be while it emits tokens
(42_yaz0_encoder R205 to R228). -/

namespace Sys2Proof.Machine

variable {m : Memory} {srcSize : Nat}

/-! ## The search -/

/-- The outer loop ends with the match it began with or with that of one of its candidates (R206). -/
theorem searchWindow_cases (pos smp count : Nat) : ∀ (i : Nat) (best : Match),
    searchWindow m pos smp i count best = best ∨
      ∃ c, i ≤ c ∧ c < i + count ∧ searchWindow m pos smp i count best = ⟨matchLength m c pos smp, c⟩ := by
  induction count with
  | zero => exact fun _ _ => .inl rfl
  | succ count ih =>
    intro i best
    rw [searchWindow]
    rcases ih (i + 1) (betterMatch best (matchLength m i pos smp) i) with e | ⟨c, hlow, hhigh, e⟩
    · rw [e, betterMatch]
      split
      · exact .inr ⟨i, Nat.le_refl i, by omega, rfl⟩
      · exact .inl rfl
    · exact .inr ⟨c, by omega, by omega, e⟩

/-- What the search finds is a match (R205, R206). -/
theorem search_matchAt {pos : Nat} (h : 0 < (search m srcSize pos).length) :
    MatchAt m srcSize pos (search m srcSize pos) := by
  unfold search at h ⊢
  split at h
  · exact absurd h (Nat.lt_irrefl 0)
  · next hlimit =>
    rw [if_neg hlimit]
    rcases searchWindow_cases (m := m) pos (compareLimit srcSize pos) (pos - windowStart pos) (windowStart pos) ⟨0, 0⟩
      with e | ⟨c, hlow, hhigh, e⟩
    · rw [e] at h
      exact absurd h (Nat.lt_irrefl 0)
    · rw [e]
      have hwindow : pos - window ≤ c := hlow
      exact ⟨show c < pos by omega, show pos ≤ c + window by omega, matchLength_le m _ c pos,
        matchLength_agree m _ c pos⟩

theorem MatchAt.end_le {p : Nat} {q : Match} (h : MatchAt m srcSize p q) (hp : p ≤ srcSize) :
    p + q.length ≤ srcSize ∧ q.length ≤ lenMax := by
  obtain ⟨hleft, hmax⟩ := Nat.le_min.mp h.inLimit
  exact ⟨by omega, hmax⟩

/-! ## The choice of a token -/

/-- What `findBest` answers at `p`: a match there, if it is long enough to be used, and, if it has put off a match for the next
position, one byte to go there (R212, R215). -/
structure Choice (m : Memory) (srcSize p len : Nat) (r : EncRegs) : Prop where
  found : lenMin ≤ len → MatchAt m srcSize p ⟨len, r.matchPosition⟩
  deferred : r.flag = true →
    len < lenMin ∧ 5 ≤ r.stashSize ∧ MatchAt m srcSize (p + 1) ⟨r.stashSize, r.stashMatch⟩

theorem lookAhead_choice {p : Nat} {r : EncRegs} (hflag : r.flag = false) :
    Choice m srcSize p (lookAhead m srcSize p (search m srcSize p) r).1
      (lookAhead m srcSize p (search m srcSize p) r).2 := by
  unfold lookAhead
  split
  · next hgain =>
    obtain ⟨hmin, hlonger⟩ := hgain
    unfold lenMin at hmin
    unfold lazyGain at hlonger
    have hlong : 5 ≤ (search m srcSize (p + 1)).length := by omega
    have hone : 1 < lenMin := by decide
    exact ⟨fun h => absurd hone (Nat.not_lt.mpr h), fun _ => ⟨hone, hlong, search_matchAt (by omega)⟩⟩
  · exact ⟨fun h => search_matchAt (Nat.lt_of_lt_of_le (by decide) h), fun h => absurd (hflag.symm.trans h) nofun⟩

theorem findBest_choice {r : EncRegs} (hok : r.Ok m srcSize) :
    Choice m srcSize r.srcPos (findBest m srcSize r).1 (findBest m srcSize r).2 := by
  unfold findBest
  split
  · next hflag =>
    obtain ⟨_, _, hmatch⟩ := hok.stash hflag
    exact ⟨fun _ => hmatch, nofun⟩
  · next hflag => exact lookAhead_choice (Bool.eq_false_iff.mpr hflag)

/-- How far the chosen token goes stays within the input. -/
theorem Choice.span_le {p len : Nat} {r : EncRegs} (h : Choice m srcSize p len r) (hp : p < srcSize) :
    p + spanOf len ≤ srcSize := by
  unfold spanOf
  split
  · omega
  · next hlen =>
    obtain ⟨hend, hmax⟩ := (h.found (Nat.le_of_not_lt hlen)).end_le (Nat.le_of_lt hp)
    rw [Nat.min_eq_left hmax]
    exact hend

/-! ## The registers -/

theorem Choice.stash_ok {p len : Nat} {r : EncRegs} (h : Choice m srcSize p len r) (hp : p < srcSize)
    (hflag : r.flag = true) :
    5 ≤ r.stashSize ∧ p + spanOf len + r.stashSize ≤ srcSize ∧
      MatchAt m srcSize (p + spanOf len) ⟨r.stashSize, r.stashMatch⟩ := by
  obtain ⟨hshort, hsize, hmatch⟩ := h.deferred hflag
  rw [spanOf, if_pos hshort]
  exact ⟨hsize, (hmatch.end_le hp).1, hmatch⟩

/-- What `findBest` answers from registers that are as they should be: a choice for the cursor, and the registers of the group
and the stream as they were (R212). -/
structure Picked (m : Memory) (srcSize : Nat) (r : EncRegs) (len : Nat) (r' : EncRegs) : Prop where
  choice : Choice m srcSize r'.srcPos len r'
  phase : r'.phase = r.phase
  srcPos : r'.srcPos = r.srcPos
  code : r'.code = r.code
  cnt : r'.cnt = r.cnt
  grp : r'.grp = r.grp
  stream : r'.stream = r.stream

theorem findBest_picked {r r' : EncRegs} {len : Nat} (hok : r.Ok m srcSize) (h : findBest m srcSize r = (len, r')) :
    Picked m srcSize r len r' := by
  have hchoice := findBest_choice hok
  have hframe := findBest_frame m srcSize r
  rw [h] at hchoice hframe
  obtain ⟨f, p, z, q, rfl⟩ : ∃ f p z q, r' = { r with flag := f, matchPosition := p, stashSize := z, stashMatch := q } :=
    ⟨_, _, _, _, hframe⟩
  exact ⟨hchoice, rfl, rfl, rfl, rfl, rfl, rfl⟩

/-- One iteration of the main loop keeps the registers as they should be (R215 to R227). -/
theorem encodeToken_ok {r : EncRegs} (hok : r.Ok m srcSize) (hp : r.phase = .tokens) (hlt : r.srcPos < srcSize) :
    (encodeToken m srcSize r).Ok m srcSize := by
  obtain ⟨len, r', hbest⟩ : ∃ len r', findBest m srcSize r = (len, r') := ⟨_, _, rfl⟩
  obtain ⟨hchoice, hphase, hpos, hcode, hcnt, hgrp, _⟩ := findBest_picked hok hbest
  replace hphase := hphase.trans hp
  rw [← hpos] at hlt
  have hcursor := hchoice.span_le hlt
  have hstash := hchoice.stash_ok hlt
  have hcntlt := hok.cnt_lt
  rw [encodeToken_eq hbest]
  split
  · exact ⟨Nat.zero_lt_succ _, Nat.zero_le _, rfl, hcursor, hstash, fun h => absurd hphase h⟩
  · next hnot =>
    have hlt' : r'.cnt + 1 < groupTokens := by omega
    refine ⟨hlt', ?_, ?_, hcursor, hstash, fun h => absurd hphase h⟩
    · have htoken := tokenFor_length_le m len r'
      have hlen := hok.grp_le
      simp only [List.length_append, hgrp, hcnt]
      omega
    · obtain ⟨hlit, href⟩ := code_unused_step r'.code r'.cnt (by rw [hcnt]; exact hcntlt)
        (by rw [hcode, hcnt]; exact hok.code_unused)
      simp only [codeWith]
      split
      · exact hlit
      · exact href

end Sys2Proof.Machine
end

section
/-! SUPPORT. The tokens behind an encoded stream: what a token, a group and a stream must be for the decoder to make the
encoder's input of them (41_yaz0_decoder R186, 42_yaz0_encoder R220 to R229, R236). -/

namespace Sys2Proof.Machine

variable {m : Memory} {srcSize : Nat}

/-! ## Tokens and groups -/

/-- An item that, executed on the input with the cursor at `p`, makes the input's own bytes. -/
structure ItemAt (m : Memory) (p : Nat) (i : Instr) : Prop where
  wf : i.wf = true
  reach : reachOfItem i ≤ p
  makes : AgreeOn (outputAfter i p m) m 0 (p + spanOfItem i)

/-- Tokens that make the input's bytes from `p` to `q`. -/
inductive TokensAt (m : Memory) : Nat → List Instr → Nat → Prop
  | nil (p : Nat) : TokensAt m p [] p
  | cons {p q : Nat} {i : Instr} {ts : List Instr} (head : ItemAt m p i) (tail : TokensAt m (p + spanOfItem i) ts q) :
      TokensAt m p (i :: ts) q

theorem TokensAt.snoc {p q : Nat} {i : Instr} {ts : List Instr} (h : TokensAt m p ts q) (hi : ItemAt m q i) :
    TokensAt m p (ts ++ [i]) (q + spanOfItem i) := by
  induction h with
  | nil p => exact .cons hi (.nil _)
  | cons head _ ih => exact .cons head (ih hi)

theorem TokensAt.le {p q : Nat} {ts : List Instr} (h : TokensAt m p ts q) : p ≤ q := by
  induction h with
  | nil p => exact Nat.le_refl p
  | cons _ _ ih => exact Nat.le_of_add_right_le ih

/-- The code byte has the bit that each token needs to be read as what it is (30_encoding R96, R100). -/
def BitsFor (code : Byte) (ts : List Instr) : Prop :=
  ∀ (k : Nat) (i : Instr), ts[k]? = some i → i.context = .token (code.getLsbD (7 - k))

theorem bitsFor_nil (code : Byte) : BitsFor code [] := nofun

/-- The decoder's side: the top bit is the first token's, and the shifted byte has those of the others. -/
theorem BitsFor.cons {code : Byte} {i : Instr} {ts : List Instr} (h : BitsFor code (i :: ts))
    (hlen : (i :: ts).length ≤ 8) : i.context = .token (codeBit code) ∧ BitsFor (shiftCode code) ts := by
  refine ⟨h 0 i rfl, fun k j hj => ?_⟩
  have hk : k < ts.length := (List.getElem?_eq_some_iff.mp hj).1
  have hk' : k + 1 < 8 := Nat.lt_of_lt_of_le (Nat.succ_lt_succ hk) hlen
  have hbit : (shiftCode code).getLsbD (7 - k) = code.getLsbD (7 - (k + 1)) := by
    rw [shiftCode, BitVec.getLsbD_shiftLeft, show 7 - k - 1 = 7 - (k + 1) by omega, decide_eq_true (by omega),
      decide_eq_false (by omega), Bool.not_false, Bool.and_self, Bool.true_and]
  rw [hbit]
  exact h (k + 1) j hj

theorem getLsbD_literalBit {j k : Nat} (hj : j < 8) : (literalBit k).getLsbD (7 - j) = decide (j = k) := by
  have h80 : ∀ n, (0x80#8).getLsbD n = decide (n = 7) := fun n => by
    have hpow : (0x80#8) = BitVec.twoPow 8 7 := rfl
    rw [hpow, BitVec.getLsbD_twoPow, decide_eq_true (show 7 < 8 by decide), Bool.true_and]
    exact decide_eq_decide.mpr eq_comm
  rw [literalBit, BitVec.getLsbD_ushiftRight, h80]
  exact decide_eq_decide.mpr (by omega)

theorem getLsbD_of_unused {code : Byte} {k : Nat} (hk : k < 8) (h : code.toNat % 2 ^ (8 - k) = 0) :
    code.getLsbD (7 - k) = false := by
  have hbit : (code.toNat % 2 ^ (8 - k)).testBit (7 - k) = false := by rw [h, Nat.zero_testBit]
  rw [Nat.testBit_mod_two_pow, decide_eq_true (by omega), Bool.true_and] at hbit
  exact hbit

/-- The encoder's side: a literal sets the bit of its position, a back-reference leaves it 0 (R221, R222, R226). -/
theorem BitsFor.snoc {r : EncRegs} {len : Nat} {i : Instr} {ts : List Instr} (h : BitsFor r.code ts)
    (hlen : ts.length = r.cnt) (hcnt : r.cnt < 8) (hunused : r.code.toNat % 2 ^ (8 - r.cnt) = 0)
    (hi : i.context = .token (decide (len < lenMin))) : BitsFor (codeWith len r) (ts ++ [i]) := by
  have hbit : ∀ j, j < 8 → (codeWith len r).getLsbD (7 - j) =
      (r.code.getLsbD (7 - j) || (decide (len < lenMin) && decide (j = r.cnt))) := by
    intro j hj
    unfold codeWith
    split
    · next hlit => rw [BitVec.getLsbD_or, getLsbD_literalBit hj, decide_eq_true hlit, Bool.true_and]
    · next hlit => rw [decide_eq_false hlit, Bool.false_and, Bool.or_false]
  intro k j hj
  have hk : k < (ts ++ [i]).length := (List.getElem?_eq_some_iff.mp hj).1
  rw [List.length_append, List.length_singleton, hlen] at hk
  rw [hbit k (by omega)]
  rcases Nat.lt_succ_iff_lt_or_eq.mp hk with hlt | heq
  · rw [List.getElem?_append_left (hlen.symm ▸ hlt)] at hj
    rw [decide_eq_false (Nat.ne_of_lt hlt), Bool.and_false, Bool.or_false]
    exact h k j hj
  · subst heq
    rw [← hlen, List.getElem?_concat_length] at hj
    cases hj
    rw [getLsbD_of_unused hcnt hunused, decide_eq_true rfl, Bool.and_true, Bool.false_or]
    exact hi

/-- The bytes of a group (30_encoding R95, R96). -/
def groupBytes (code : Byte) (ts : List Instr) : List Byte := code :: ts.flatMap encode

/-- A stream of full groups that make the first `p` bytes of the input. -/
inductive FullGroups (m : Memory) : List Byte → Nat → Prop
  | nil : FullGroups m [] 0
  | snoc {bs : List Byte} {p q : Nat} {code : Byte} {ts : List Instr} (before : FullGroups m bs p)
      (tokens : TokensAt m p ts q) (full : ts.length = groupTokens) (bits : BitsFor code ts) :
      FullGroups m (bs ++ groupBytes code ts) q

/-- A stream that makes all the `n` bytes of the input: full groups and, if they do not make them all, a last one. -/
inductive WholeStream (m : Memory) (n : Nat) : List Byte → Prop
  | full {bs : List Byte} (groups : FullGroups m bs n) : WholeStream m n bs
  | last {bs : List Byte} {p : Nat} {code : Byte} {ts : List Instr} (before : FullGroups m bs p)
      (tokens : TokensAt m p ts n) (nonempty : ts ≠ []) (fits : ts.length ≤ groupTokens) (bits : BitsFor code ts) :
      WholeStream m n (bs ++ groupBytes code ts)

/-! ## What the encoder emits -/

/-- A copy from where the same bytes stand makes the bytes that stand there (R236). -/
theorem agreeOn_copyForward_self {p dist len : Nat} (hd : dist + 1 ≤ p)
    (hsame : ∀ j, j < len → Memory.read m (p - dist - 1 + j) = Memory.read m (p + j)) :
    AgreeOn (copyForward m (p - dist - 1) p len) m 0 (p + len) := by
  intro x _ hx
  induction x using Nat.strong_induction_on with
  | _ x ih =>
    by_cases hxp : x < p
    · exact read_copyForward_outside _ _ _ _ _ (.inl hxp)
    · obtain ⟨k, rfl⟩ := Nat.exists_eq_add_of_le (Nat.le_of_not_lt hxp)
      have hk : k < len := Nat.lt_of_add_lt_add_left hx
      rw [read_copyForward_seq len m _ p k (by omega) hk, ih _ (by omega) (Nat.zero_le _) (by omega), hsame k hk]

theorem tokenFor_of_match {len : Nat} {r : EncRegs} (hmin : lenMin ≤ len) (hmax : len ≤ lenMax) :
    tokenFor m len r = backRefOf len (r.srcPos - r.matchPosition - 1) := by
  rw [tokenFor, if_neg (Nat.not_lt.mpr hmin), backRefOf, Nat.min_eq_left hmax]
  rfl

/-- The token `findBest` selects is one for the bytes at the cursor, and goes as far as the cursor is moved. -/
theorem Choice.itemAt {len : Nat} {r : EncRegs} (h : Choice m srcSize r.srcPos len r) (hp : r.srcPos < srcSize) :
    ItemAt m r.srcPos (tokenFor m len r) ∧ spanOfItem (tokenFor m len r) = spanOf len ∧
      (tokenFor m len r).context = .token (decide (len < lenMin)) := by
  by_cases hlit : len < lenMin
  · rw [tokenFor, if_pos hlit, spanOf, if_pos hlit, decide_eq_true hlit]
    refine ⟨⟨rfl, Nat.zero_le _, fun x _ _ => ?_⟩, rfl, rfl⟩
    rw [outputAfter, read_write]
    split
    · next hx => rw [hx]
    · rfl
  · have hmin := Nat.le_of_not_lt hlit
    have hmatch := h.found hmin
    have hbefore : r.matchPosition < r.srcPos := hmatch.before
    have hwindow : r.srcPos ≤ r.matchPosition + 0x1000 := hmatch.inWindow
    have hmax : len ≤ lenMax := (hmatch.end_le (Nat.le_of_lt hp)).2
    obtain ⟨hwf, hfields⟩ := backRefOf_spec hmin hmax (show r.srcPos - r.matchPosition - 1 ≤ 0xFFF by omega)
    obtain ⟨_, hctx, hspan, hreach, _, hout⟩ := backRef_item hfields
    rw [tokenFor_of_match hmin hmax, spanOf, if_neg hlit, Nat.min_eq_left hmax, decide_eq_false hlit]
    refine ⟨⟨hwf, by rw [hreach]; omega, ?_⟩, hspan, hctx⟩
    rw [hout, hspan]
    have hfrom : r.srcPos - (r.srcPos - r.matchPosition - 1) - 1 = r.matchPosition := by omega
    exact agreeOn_copyForward_self (by omega) (by rw [hfrom]; exact hmatch.agree)

/-- The encoder stands inside its input: the stream has the full groups so far, and the registers the tokens of the open
one. -/
def EncRegs.Encodes (m : Memory) (r : EncRegs) : Prop :=
  ∃ p ts, FullGroups m r.stream p ∧ TokensAt m p ts r.srcPos ∧ ts.length = r.cnt ∧ r.grp = ts.flatMap encode ∧
    BitsFor r.code ts

theorem encStart_encodes (m : Memory) : EncRegs.start.Encodes m :=
  ⟨0, [], .nil, .nil 0, rfl, rfl, bitsFor_nil _⟩

/-- One iteration of the main loop adds a token to the open group, and a group of eight to the stream. -/
theorem encodeToken_encodes {r : EncRegs} (hok : r.Ok m srcSize) (hlt : r.srcPos < srcSize) (h : r.Encodes m) :
    (encodeToken m srcSize r).Encodes m := by
  obtain ⟨p, ts, hfull, htokens, hlen, hgrp, hbits⟩ := h
  obtain ⟨len, r', hbest⟩ : ∃ len r', findBest m srcSize r = (len, r') := ⟨_, _, rfl⟩
  obtain ⟨hchoice, _, hpos, hcode, hcnt, hgrp', hstream⟩ := findBest_picked hok hbest
  rw [← hpos] at htokens hlt
  obtain ⟨htoken, hspan, hctx⟩ := hchoice.itemAt hlt
  have hunused := hok.code_unused
  have hcntlt := hok.cnt_lt
  rw [← hcode, ← hcnt] at hunused
  rw [← hcnt] at hcntlt hlen
  rw [← hcode] at hbits
  have htokens' := htokens.snoc htoken
  have hbits' := hbits.snoc hlen hcntlt hunused hctx
  rw [hspan] at htokens'
  have hbytes : r'.grp ++ encode (tokenFor m len r') = (ts ++ [tokenFor m len r']).flatMap encode := by
    rw [hgrp', hgrp, List.flatMap_append, List.flatMap_singleton]
  have hlen' : (ts ++ [tokenFor m len r']).length = r'.cnt + 1 := by rw [List.length_append, hlen]; rfl
  rw [encodeToken_eq hbest, hbytes, hstream]
  split
  · next height => exact ⟨_, [], hfull.snoc htokens' (hlen'.trans height) hbits', .nil _, rfl, rfl, bitsFor_nil _⟩
  · exact ⟨p, _, hfull, htokens', hlen', rfl, hbits'⟩

/-- The end of the main loop closes the last group, unless there is none (R228, R229). -/
theorem closeLast_wholeStream {r : EncRegs} (hok : r.Ok m srcSize) (hend : srcSize ≤ r.srcPos) (h : r.Encodes m) :
    WholeStream m srcSize (closeLast r).stream := by
  obtain ⟨p, ts, hfull, htokens, hlen, hgrp, hbits⟩ := h
  rw [Nat.le_antisymm hok.cursor hend] at htokens
  have hcntlt := hok.cnt_lt
  unfold closeLast
  split
  · next hpos =>
    rw [EncRegs.closeGroup, hgrp]
    exact .last hfull htokens (List.length_pos_iff.mp (hlen ▸ hpos)) (by omega) hbits
  · next h0 =>
    have hnil : ts = [] := List.length_eq_zero_iff.mp (hlen.trans (Nat.eq_zero_of_not_pos h0))
    subst hnil
    cases htokens
    exact .full hfull

end Sys2Proof.Machine
end

section
/-! SUPPORT. An undisturbed `ENC` (42_yaz0_encoder R200 to R238): where it ends `DONE`, `DST` holds, from offset 16 on, a stream
that makes the whole input. -/

namespace Sys2Proof.Machine

/-- Where an undisturbed `ENC` stands: it emits tokens, has closed the last group, or has ended. -/
inductive EncStage (v : State) : Prop
  | emits (busy : v.status = .busy) (unit : v.unit = .enc) (phase : v.enc.phase = .tokens)
      (ok : v.enc.Ok v.src v.srcLen.toNat) (encodes : v.enc.Encodes v.src)
  | writes (busy : v.status = .busy) (unit : v.unit = .enc) (phase : v.enc.phase ≠ .tokens)
      (stream : WholeStream v.src v.srcLen.toNat v.enc.stream)
  | done {bs : List Byte} (status : v.status = .done) (stream : WholeStream v.src v.srcLen.toNat bs)
      (held : HoldsAt v.dst hdrLen bs) (dstPos : v.dstPos.toNat = hdrLen + bs.length)
  | faulted (status : v.status = .fault)

theorem encodeToken_phase {m : Memory} {srcSize : Nat} {r : EncRegs} (hok : r.Ok m srcSize) :
    (encodeToken m srcSize r).phase = r.phase := by
  obtain ⟨len, r', hbest⟩ : ∃ len r', findBest m srcSize r = (len, r') := ⟨_, _, rfl⟩
  rw [encodeToken_eq hbest, ← (findBest_picked hok hbest).phase]
  split <;> rfl

theorem closeLast_phase (r : EncRegs) : (closeLast r).phase = .header := by
  unfold closeLast
  split <;> rfl

theorem encMainLoop_stage {v : State} (hb : v.status = .busy) (hu : v.unit = .enc) (hp : v.enc.phase = .tokens)
    (hok : v.enc.Ok v.src v.srcLen.toNat) (hencodes : v.enc.Encodes v.src) : EncStage (encMainLoop v) := by
  unfold encMainLoop
  split
  · next hlt =>
    exact .emits hb hu ((encodeToken_phase hok).trans hp) (encodeToken_ok hok hp hlt)
      (encodeToken_encodes hok hlt hencodes)
  · next hend =>
    exact .writes hb hu ((closeLast_phase v.enc).trans_ne nofun)
      (closeLast_wholeStream hok (Nat.le_of_not_lt hend) hencodes)

theorem execHdr_stage {v t : State} {size : Word} (hb : v.status = .busy) (hu : v.unit = .enc)
    (hstream : WholeStream v.src v.srcLen.toNat v.enc.stream) (h : exec (.hdr size) v = .next t) : EncStage t := by
  simp only [exec, execHdr] at h
  split at h <;> cases h
  · exact .faulted rfl
  · exact .writes hb hu nofun hstream

theorem encBody_stage {v : State} (base : Nat) (hstream : WholeStream v.src v.srcLen.toNat v.enc.stream) :
    EncStage (encBody base v) := by
  unfold encBody
  split
  · exact .faulted rfl
  · next hfits =>
    have hframe := hdrLen_add_body_length base v.enc.stream
    have hdst := v.dstLen.isLt
    rw [List.length_append] at hframe
    rw [EncRegs.encLen] at hfits ⊢
    refine .done rfl hstream (holdsAt_append.mp (readBytes_writeBytes_self _ v.dst hdrLen)).1 ?_
    rw [complete_dstPos, BitVec.toNat_ofNat]
    exact Nat.mod_eq_of_lt (by omega)

theorem step_encTurn {v : State} (hh : v.host = []) (hb : v.status = .busy) (hu : v.unit = .enc) :
    step v = (encTurn v).outcome := by
  rw [step_of_no_host hh]
  simp only [blockTurn, hb, hu]

theorem step_of_not_busy {v t : State} (hh : v.host = []) (hb : v.status ≠ .busy) (h : step v = .next t) : t = v := by
  rw [step_of_no_host hh] at h
  rcases blockTurn_cases h with ⟨hb', _⟩ | ⟨_, rfl⟩
  · exact absurd hb' hb
  · rfl

theorem encStage_step {v t : State} (hh : v.host = []) (hv : EncStage v) (h : step v = .next t) : EncStage t := by
  cases hv with
  | emits hb hu hp hok hencodes =>
    rw [step_encTurn hh hb hu, encTurn, hp] at h
    cases h
    exact encMainLoop_stage hb hu hp hok hencodes
  | writes hb hu hp hstream =>
    rw [step_encTurn hh hb hu, encTurn] at h
    cases hphase : v.enc.phase with
    | tokens => exact absurd hphase hp
    | header => rw [hphase] at h; exact execHdr_stage hb hu hstream h
    | body => rw [hphase] at h; cases h; exact encBody_stage _ hstream
  | done hst hstream hheld hpos =>
    rw [step_of_not_busy hh (hst.trans_ne nofun) h]
    exact .done hst hstream hheld hpos
  | faulted hst =>
    rw [step_of_not_busy hh (hst.trans_ne nofun) h]
    exact .faulted hst

/-- An undisturbed `ENC` of the input `s.src[0..s.srcLen)`. -/
structure Encoding (s v : State) : Prop where
  host : v.host = []
  src : v.src = s.src
  srcLen : v.srcLen = s.srcLen
  stage : EncStage v

theorem encoding_step {s v t : State} (hv : Encoding s v) (h : step v = .next t) : Encoding s t := by
  obtain ⟨hsrc, hlen, _⟩ := blockFootprint v t (.inl hv.host) h
  exact ⟨step_host_of_no_host hv.host h, hsrc.trans hv.src, hlen.trans hv.srcLen, encStage_step hv.host hv.stage h⟩

theorem encStart_ok (m : Memory) (srcSize : Nat) : EncRegs.start.Ok m srcSize where
  cnt_lt := Nat.zero_lt_succ _
  grp_le := Nat.le_refl 0
  code_unused := rfl
  cursor := Nat.zero_le _
  stash := nofun
  closed := fun h => absurd rfl h

theorem exec_enc_encoding {s s1 : State} (hh : s.host = []) (hb : s.status ≠ .busy) (h : exec .enc s = .next s1) :
    Encoding s s1 := by
  rcases command_cases s with ⟨hb', _⟩ | ⟨_, _, _, henc⟩
  · exact absurd hb' hb
  · rw [henc] at h
    cases h
    exact ⟨hh, rfl, rfl, .emits rfl rfl rfl (encStart_ok _ _) (encStart_encodes _)⟩

/-- What an `ENC` that ended `DONE` leaves in `DST` (R186, R231). -/
theorem enc_done_stream {s s1 t : State} {n : Nat} (hh : s.host = []) (hb : s.status ≠ .busy)
    (he : exec .enc s = .next s1) (h : run n s1 = .next t) (hd : t.status = .done) :
    ∃ bs, WholeStream s.src s.srcLen.toNat bs ∧ HoldsAt t.dst hdrLen bs ∧ t.dstPos.toNat = hdrLen + bs.length := by
  obtain ⟨_, hsrc, hlen, hstage⟩ := run_keeps (fun _ _ => encoding_step) (exec_enc_encoding hh hb he) h
  cases hstage with
  | emits hst => exact absurd (hst.symm.trans hd) nofun
  | writes hst => exact absurd (hst.symm.trans hd) nofun
  | done _ hstream hheld hpos => exact ⟨_, hsrc ▸ hlen ▸ hstream, hheld, hpos⟩
  | faulted hst => exact absurd (hst.symm.trans hd) nofun

end Sys2Proof.Machine
end

section
/-! SUPPORT. A `DEC` whose input begins with a stream that makes `m` writes `m` (41_yaz0_decoder R171 to R183). -/

namespace Sys2Proof.Machine

/-- These bytes stand in `SRC` from `a` on, within `SRC_LEN`. -/
structure Ahead (u : State) (a : Nat) (bs : List Byte) : Prop where
  bytes : HoldsAt u.src a bs
  within : a + bs.length ≤ u.srcLen.toNat

theorem Ahead.append {u : State} {a : Nat} {xs ys : List Byte} (h : Ahead u a (xs ++ ys)) :
    Ahead u a xs ∧ Ahead u (a + xs.length) ys := by
  obtain ⟨hbytes, hlen⟩ := h
  rw [List.length_append] at hlen
  obtain ⟨hx, hy⟩ := holdsAt_append.mp hbytes
  exact ⟨⟨hx, by omega⟩, hy, by omega⟩

/-- The `DEC` that began as `u` still runs in `v`, and what it has written is the beginning of `m`. -/
structure Restores (m : Memory) (u v : State) : Prop where
  frame : v = { u with dst := v.dst, dec := v.dec }
  output : AgreeOn v.dst m 0 v.dec.dstPos

/-- From `v` the decoder comes to the cursors `a` and `q` with `k` bits of its code byte left. -/
def Reaches (m : Memory) (u v : State) (a q k : Nat) : Prop :=
  ∃ n w, run n v = .next w ∧ Restores m u w ∧ w.dec.srcPos = a ∧ w.dec.dstPos = q ∧ w.dec.bitCount = k

theorem Reaches.refl {m : Memory} {u v : State} (h : Restores m u v) :
    Reaches m u v v.dec.srcPos v.dec.dstPos v.dec.bitCount := ⟨0, v, run_zero v, h, rfl, rfl, rfl⟩

theorem Reaches.of_step {m : Memory} {u v w : State} {a q k : Nat} (h : step v = .next w) (hw : Reaches m u w a q k) :
    Reaches m u v a q k := by
  obtain ⟨n, x, hrun, hx⟩ := hw
  exact ⟨n + 1, x, by rw [run_succ_of_next h]; exact hrun, hx⟩

theorem Reaches.trans {m : Memory} {u v : State} {a q k a' q' k' : Nat} (h : Reaches m u v a q k)
    (h' : ∀ w, Restores m u w → w.dec.srcPos = a → w.dec.dstPos = q → w.dec.bitCount = k → Reaches m u w a' q' k') :
    Reaches m u v a' q' k' := by
  obtain ⟨n, w, hrun, hw, ha, hq, hk⟩ := h
  obtain ⟨n', x, hrun', hx⟩ := h' w hw ha hq hk
  exact ⟨n + n', x, by rw [run_add n' hrun]; exact hrun', hx⟩

/-- A token makes at least one byte. -/
theorem spanOfItem_pos {i : Instr} {b : Bool} (h : i.context = .token b) : 0 < spanOfItem i := by
  cases i <;> first | exact Nat.succ_pos _ | cases h

theorem TokensAt.lt {m : Memory} {p q : Nat} {code : Byte} {ts : List Instr} (h : TokensAt m p ts q)
    (hbits : BitsFor code ts) (hne : ts ≠ []) : p < q := by
  cases h with
  | nil => exact absurd rfl hne
  | cons _ tail => exact Nat.lt_of_lt_of_le (Nat.lt_add_of_pos_right (spanOfItem_pos (hbits 0 _ rfl))) tail.le

theorem itemAt_code (m : Memory) (p : Nat) (k : Byte) : ItemAt m p (.code k) := ⟨rfl, Nat.zero_le _, fun _ _ _ => rfl⟩

section decoder
variable {m : Memory} {u v : State} (hh : u.host = []) (hb : u.status = .busy) (hu : u.unit = .dec)
include hh hb hu

/-- An item whose bytes are ahead and that makes the input's next bytes is executed without a fault. -/
theorem Restores.step_item {i : Instr} (hv : Restores m u v) (hi : ItemAt m v.dec.dstPos i)
    (hctx : i.context = v.dec.context) (hahead : Ahead u v.dec.srcPos (encode i))
    (hroom : v.dec.dstPos < u.dstLen.toNat) (hfits : v.dec.dstPos + spanOfItem i ≤ u.dstLen.toNat) :
    step v = .next (afterItem i v) ∧ Restores m u (afterItem i v) := by
  obtain ⟨hframe, hout⟩ := hv
  obtain ⟨hbytes, hlen⟩ := hahead
  obtain ⟨d, r, rfl⟩ : ∃ d r, v = { u with dst := d, dec := r } := ⟨_, _, hframe⟩
  rw [encode_length] at hlen
  have hfetch := (fetchToken_ok_iff { u with dst := d, dec := r } i).mpr ⟨hi.wf, hctx, hbytes, hlen⟩
  refine ⟨?_, rfl, ?_⟩
  · have hdecoding : State.Decoding { u with dst := d, dec := r } := ⟨hh, hb, hu, Nat.ne_of_lt hroom⟩
    rw [step_of_fetchToken hdecoding hfetch]
    exact exec_of_itemFault_none (ofStream_of_context hctx)
      ((itemFault_eq_none_iff _ _ _ _).mpr ⟨hlen, hi.reach, fun _ => hfits⟩)
  · intro x h0 hx
    have hx' : x < r.dstPos + spanOfItem i := hx.trans_eq (regsAfter_dstPos i r)
    exact (agreeOn_outputAfter hi.reach hout x h0 hx').trans (hi.makes x h0 hx')

/-- The tokens of a group, one after the other. -/
theorem Restores.run_tokens {p q k : Nat} {ts : List Instr} (ht : TokensAt m p ts q) : ∀ {v : State}, Restores m u v →
    v.dec.dstPos = p → v.dec.bitCount = ts.length + k → ts.length + k ≤ 8 → BitsFor v.dec.cb ts → q ≤ u.dstLen.toNat →
      Ahead u v.dec.srcPos (ts.flatMap encode) →
        Reaches m u v (v.dec.srcPos + (ts.flatMap encode).length) q k := by
  induction ht with
  | nil p =>
    intro v hv hp hcount _ _ _ _
    rw [List.length_nil, Nat.zero_add] at hcount
    rw [← hp, ← hcount]
    exact .refl hv
  | @cons p q i ts head tail ih =>
    intro v hv hp hcount hle hbits hq hahead
    subst hp
    rw [List.length_cons] at hcount hle
    rw [List.flatMap_cons] at hahead ⊢
    obtain ⟨hi, hts⟩ := hahead.append
    obtain ⟨hctx, hbits'⟩ := hbits.cons (by rw [List.length_cons]; omega)
    have hend := tail.le
    have hspan := spanOfItem_pos hctx
    have hcontext : i.context = v.dec.context := by rw [DecRegs.context, if_neg (by omega)]; exact hctx
    obtain ⟨hstep, hnext⟩ := hv.step_item hh hb hu head hcontext hi (by omega) (by omega)
    have hdec : (afterItem i v).dec = v.dec.advance (encode i).length (spanOfItem i) := by
      rw [encode_length]
      exact regsAfter_token hctx v.dec
    have hreach := ih hnext (by rw [hdec]; rfl) (by rw [hdec, advance_bitCount]; omega) (by omega)
      (by rw [hdec]; exact hbits') hq (by rw [hdec]; exact hts)
    rw [hdec, advance_srcPos, Nat.add_assoc, ← List.length_append] at hreach
    exact .of_step hstep hreach

/-- A group: its code byte, then its tokens. -/
theorem Restores.run_group {q : Nat} {code : Byte} {ts : List Instr} (hv : Restores m u v)
    (ht : TokensAt m v.dec.dstPos ts q) (hcount : v.dec.bitCount = 0) (hne : ts ≠ []) (hlen : ts.length ≤ groupTokens)
    (hbits : BitsFor code ts) (hq : q ≤ u.dstLen.toNat) (hahead : Ahead u v.dec.srcPos (groupBytes code ts)) :
    Reaches m u v (v.dec.srcPos + (groupBytes code ts).length) q (groupTokens - ts.length) := by
  obtain ⟨hcode, hts⟩ := Ahead.append (xs := [code]) hahead
  have hroom := Nat.lt_of_lt_of_le (ht.lt hbits hne) hq
  have hcontext : (Instr.code code).context = v.dec.context := by rw [DecRegs.context, if_pos hcount]; rfl
  obtain ⟨hstep, hnext⟩ :=
    hv.step_item hh hb hu (itemAt_code m _ code) hcontext hcode hroom (Nat.le_of_lt hroom)
  have hreach := hnext.run_tokens hh hb hu (k := groupTokens - ts.length) ht rfl (Nat.add_sub_cancel' hlen).symm
    (Nat.add_sub_cancel' hlen).le hbits hq hts
  rw [groupBytes, List.length_cons, Nat.add_comm (ts.flatMap encode).length, ← Nat.add_assoc]
  exact .of_step hstep hreach

/-- Full groups from the start of the stream. -/
theorem Restores.run_fullGroups {p : Nat} {bs : List Byte} (hg : FullGroups m bs p) (hv : Restores m u v)
    (hstart : v.dec = DecRegs.start) (hp : p ≤ u.dstLen.toNat) (hahead : Ahead u 0 bs) :
    Reaches m u v bs.length p 0 := by
  induction hg with
  | nil =>
    have hreach := Reaches.refl hv
    rw [hstart] at hreach
    exact hreach
  | snoc before tokens full bits ih =>
    obtain ⟨hbefore, hgroup⟩ := hahead.append
    rw [Nat.zero_add] at hgroup
    refine (ih (Nat.le_trans tokens.le hp) hbefore).trans fun w hw ha hq hk => ?_
    have hreach := hw.run_group hh hb hu (hq.symm ▸ tokens) hk (List.length_pos_iff.mp (full ▸ Nat.zero_lt_succ _))
      full.le bits hp (ha.symm ▸ hgroup)
    rw [ha, ← List.length_append, full] at hreach
    exact hreach

/-- A stream that makes the whole input, from its start to its end. -/
theorem Restores.run_wholeStream {n : Nat} {bs : List Byte} (hs : WholeStream m n bs) (hv : Restores m u v)
    (hstart : v.dec = DecRegs.start) (hn : n ≤ u.dstLen.toNat) (hahead : Ahead u 0 bs) :
    ∃ k, Reaches m u v bs.length n k := by
  cases hs with
  | full groups => exact ⟨0, hv.run_fullGroups hh hb hu groups hstart hn hahead⟩
  | @last bs p code ts before tokens nonempty fits bits =>
    obtain ⟨hbefore, hgroup⟩ := hahead.append
    rw [Nat.zero_add] at hgroup
    refine ⟨groupTokens - ts.length, (hv.run_fullGroups hh hb hu before hstart (Nat.le_trans tokens.le hn) hbefore).trans
      fun w hw ha hq hk => ?_⟩
    have hreach := hw.run_group hh hb hu (hq.symm ▸ tokens) hk nonempty fits bits hn (ha.symm ▸ hgroup)
    rw [ha, ← List.length_append] at hreach
    exact hreach

/-- A decoder that has read the stream to its end completes with the input in `DST` (R183). -/
theorem Reaches.completes {a k : Nat} (hv : Reaches m u v a u.dstLen.toNat k) (ha : a ≤ u.srcLen.toNat) :
    ∃ n w, run n v = .next w ∧ w.status = .done ∧ AgreeOn w.dst m 0 u.dstLen.toNat ∧ w.srcPos.toNat = a := by
  obtain ⟨n, w, hrun, ⟨hframe, hout⟩, hsrc, hdst, _⟩ := hv
  obtain ⟨d, r, rfl⟩ : ∃ d r, w = { u with dst := d, dec := r } := ⟨_, _, hframe⟩
  have hstep : step { u with dst := d, dec := r } = .next (decComplete { u with dst := d, dec := r }) :=
    step_decComplete hh hb hu hdst
  refine ⟨n + 1, _, by rw [run_add 1 hrun, run_succ_of_next hstep, run_zero], rfl, ?_, ?_⟩
  · rw [← hdst]
    exact hout
  · subst hsrc
    rw [decComplete, complete_srcPos, BitVec.toNat_ofNat]
    exact Nat.mod_eq_of_lt (Nat.lt_of_le_of_lt ha u.srcLen.isLt)

end decoder

/-- The state an accepted `DEC` starts from (R171). -/
def decStarted (u : State) : State := { accept .dec u with dec := DecRegs.start }

theorem exec_dec_of_not_busy {u : State} (hb : u.status ≠ .busy) : exec .dec u = .next (decStarted u) := if_neg hb

/-- At its start a `DEC` has written nothing. -/
theorem decStarted_restores (m : Memory) (u : State) : Restores m (decStarted u) (decStarted u) :=
  ⟨rfl, fun x _ hx => absurd hx (Nat.not_lt_zero x)⟩

/-- Bytes that stand in one space stand, moved, in another that has the same. -/
theorem HoldsAt.move {m m' : Memory} {a b : Nat} {bs : List Byte} (h : HoldsAt m a bs)
    (hsame : ∀ j, j < bs.length → Memory.read m' (b + j) = Memory.read m (a + j)) : HoldsAt m' b bs := by
  induction bs generalizing a b with
  | nil => rfl
  | cons x xs ih =>
    obtain ⟨hx, hxs⟩ := List.cons.inj h
    refine congrArg₂ List.cons ((hsame 0 (Nat.succ_pos _)).trans hx) (ih hxs fun j hj => ?_)
    rw [Nat.add_assoc, Nat.add_assoc, Nat.add_comm 1 j]
    exact hsame (j + 1) (Nat.succ_lt_succ hj)

end Sys2Proof.Machine
end

section
/-! `DEC` gives back what `ENC` was given (41_yaz0_decoder R186, 42_yaz0_encoder R236). -/

namespace Sys2Proof.Machine

/-- Settles O36: what `ENC` leaves in `DST` is a stream that makes its input, and a `DEC` that has it ahead makes it. -/
theorem roundTrip : Obligations.RoundTrip := by
  intro s s1 t u u1 n hh hb he hrun hdone hhu hbu hdlen hslen hsame hd
  obtain ⟨bs, hstream, hheld, hpos⟩ := enc_done_stream hh hb he hrun hdone
  have hlen : t.dstPos.toNat - 16 = bs.length := by rw [hpos, hdrLen, Nat.add_sub_cancel_left]
  rw [hlen] at hslen hsame ⊢
  rw [exec_dec_of_not_busy hbu] at hd
  cases hd
  rw [← hdlen] at hstream ⊢
  have hbytes : HoldsAt u.src 0 bs := hheld.move fun j hj => by rw [Nat.zero_add]; exact hsame j hj
  have hahead : Ahead (decStarted u) 0 bs := ⟨hbytes, by rw [Nat.zero_add]; exact hslen⟩
  have hhost : (decStarted u).host = [] := hhu
  obtain ⟨k, hreach⟩ :=
    (decStarted_restores s.src u).run_wholeStream hhost rfl rfl hstream rfl (Nat.le_refl _) hahead
  exact hreach.completes hhost rfl rfl hslen

end Sys2Proof.Machine
end

section
/-! SUPPORT. The moves of an encoder that still emits tokens (42_yaz0_encoder R202): one token, or the end of the main loop. -/

namespace Sys2Proof.Machine

theorem encMainLoop_of_lt {s : State} (h : s.enc.srcPos < s.srcLen.toNat) :
    encMainLoop s = { s with enc := encodeToken s.src s.srcLen.toNat s.enc } := if_pos h

theorem encMainLoop_of_end {s : State} (h : s.srcLen.toNat ≤ s.enc.srcPos) :
    encMainLoop s = { s with enc := closeLast s.enc } := if_neg (Nat.not_lt.mpr h)

/-- A partial group is closed like a full one (R228). -/
theorem closeLast_of_open {r : EncRegs} (h : 0 < r.cnt) :
    closeLast r =
      { r with phase := .header, stream := r.stream ++ r.code :: r.grp, code := 0, cnt := 0, grp := [] } := if_pos h

/-- An empty group is not written (R229). -/
theorem closeLast_of_empty {r : EncRegs} (h : r.cnt = 0) : closeLast r = { r with phase := .header } :=
  if_neg (Nat.not_lt.mpr h.le)

theorem step_encMainLoop {s : State} (hh : s.host = []) (hb : s.status = .busy) (hu : s.unit = .enc)
    (hp : s.enc.phase = .tokens) : step s = .next (encMainLoop s) := by
  rw [step_encTurn hh hb hu, encTurn, hp]
  rfl

end Sys2Proof.Machine
end

section
/-! What holds of the encoder's registers while it runs (42_yaz0_encoder R215, R216, R225 to R228, R236). -/

namespace Sys2Proof.Machine

theorem encOk_of_not_busy {t : State} (h : t.status ≠ .busy) : t.EncOk := fun hb => absurd hb h

theorem encOk_of_unit_ne {t : State} (h : t.unit ≠ .enc) : t.EncOk := fun _ hu => absurd hu h

/-- A deferred match has bytes ahead of it, so there is none at the end of the input (R215, R216). -/
theorem EncRegs.Ok.flag_at_end {m : Memory} {srcSize : Nat} {r : EncRegs} (h : r.Ok m srcSize)
    (hend : srcSize ≤ r.srcPos) : r.flag = false := by
  by_contra hflag
  obtain ⟨hlong, hinside, _⟩ := h.stash (Bool.eq_true_of_not_eq_false hflag)
  omega

/-- A group without tokens has no bytes, and no bit of its code byte is set (R226). -/
theorem EncRegs.Ok.empty_of_cnt {m : Memory} {srcSize : Nat} {r : EncRegs} (h : r.Ok m srcSize) (h0 : r.cnt = 0) :
    r.grp = [] ∧ r.code = 0 := by
  have hgrp := h.grp_le
  have hcode := h.code_unused
  rw [h0] at hgrp hcode
  exact ⟨List.length_eq_zero_iff.mp (Nat.le_zero.mp hgrp),
    BitVec.eq_of_toNat_eq ((Nat.mod_eq_of_lt r.code.isLt).symm.trans hcode)⟩

/-- Registers with nothing open at the end of the input are as they should be in every phase. -/
theorem encRegsOk_of_closed {m : Memory} {srcSize : Nat} {r : EncRegs}
    (h : r.srcPos = srcSize ∧ r.flag = false ∧ r.cnt = 0 ∧ r.grp = [] ∧ r.code = 0) : r.Ok m srcSize := by
  obtain ⟨hpos, hflag, hcnt, hgrp, hcode⟩ := h
  exact
    { cnt_lt := by rw [hcnt]; exact Nat.zero_lt_succ _
      grp_le := by rw [hgrp]; exact Nat.zero_le _
      code_unused := by rw [hcode]; exact Nat.zero_mod _
      cursor := hpos.le
      stash := fun h => absurd (hflag.symm.trans h) nofun
      closed := fun _ => ⟨hpos, hflag, hcnt, hgrp, hcode⟩ }

/-- The end of the main loop closes all (R228, R229). -/
theorem closeLast_ok {m : Memory} {srcSize : Nat} {r : EncRegs} (h : r.Ok m srcSize) (hend : srcSize ≤ r.srcPos) :
    (closeLast r).Ok m srcSize := by
  have hpos := Nat.le_antisymm h.cursor hend
  have hflag := h.flag_at_end hend
  rcases Nat.eq_zero_or_pos r.cnt with h0 | hopen
  · rw [closeLast_of_empty h0]
    obtain ⟨hgrp, hcode⟩ := h.empty_of_cnt h0
    exact encRegsOk_of_closed ⟨hpos, hflag, h0, hgrp, hcode⟩
  · rw [closeLast_of_open hopen]
    exact encRegsOk_of_closed ⟨hpos, hflag, rfl, rfl, rfl⟩

theorem encMainLoop_encOk {s : State} (hb : s.status = .busy) (hu : s.unit = .enc) (hp : s.enc.phase = .tokens)
    (h : s.EncOk) : (encMainLoop s).EncOk := by
  have hok := h hb hu
  rcases Nat.lt_or_ge s.enc.srcPos s.srcLen.toNat with hlt | hend
  · rw [encMainLoop_of_lt hlt]
    exact fun _ _ => encodeToken_ok hok hp hlt
  · rw [encMainLoop_of_end hend]
    exact fun _ _ => closeLast_ok hok hend

/-- The header changes the phase only, and all is closed already. -/
theorem execHdr_encOk {s t : State} {size : Word} (hb : s.status = .busy) (hu : s.unit = .enc)
    (hp : s.enc.phase = .header) (he : exec (.hdr size) s = .next t) (h : s.EncOk) : t.EncOk := by
  have hclosed := (h hb hu).closed (hp.trans_ne nofun)
  simp only [exec, execHdr] at he
  split at he <;> cases he
  · exact encOk_of_not_busy nofun
  · exact fun _ _ => encRegsOk_of_closed hclosed

theorem encBody_status (base : Nat) (s : State) : (encBody base s).status ≠ .busy := by
  unfold encBody
  split <;> exact nofun

theorem command_encOk {s t : State} {i : Instr} (hb : s.status ≠ .busy) (hi : i = .crc ∨ i = .dec ∨ i = .enc)
    (h : exec i s = .next t) : t.EncOk := by
  rcases command_cases s with ⟨hb', _⟩ | ⟨_, hcrc, hdec, henc⟩
  · exact absurd hb' hb
  · rcases hi with rfl | rfl | rfl
    · rw [hcrc] at h; cases h
      exact encOk_of_unit_ne nofun
    · rw [hdec] at h; cases h
      exact encOk_of_unit_ne nofun
    · rw [henc] at h; cases h
      exact fun _ _ => encStart_ok _ _

/-- The host cannot change the input of a running `ENC` (20_memory R75). -/
theorem State.EncOk.withSpace {s : State} (h : s.EncOk) {sp : Space} (hfree : s.spaceInUse sp = false) (m : Memory) :
    (s.withSpace sp m).EncOk := by
  cases sp with
  | src =>
    intro hb hu
    have huses : s.CommandUses .src := ⟨hb, iff_of_false nofun (hu.trans_ne nofun)⟩
    exact absurd ((spaceInUse_iff s .src).mpr huses) (Bool.eq_false_iff.mp hfree)
  | dst => exact h
  | rom => exact h

theorem CodecMove.encOk {s t : State} (m : CodecMove s t) (hu : s.unit ≠ .enc) : t.EncOk :=
  encOk_of_unit_ne (m.unit.trans_ne hu)

theorem encOk_kept : Kept State.EncOk where
  hostSide := fun _ _ _ _ h => h
  cmd := fun _ _ h => h
  lengths := fun _ _ hb _ => ⟨encOk_of_not_busy hb, encOk_of_not_busy hb, encOk_of_not_busy hb⟩
  command := fun _ _ _ hb hi he _ => command_encOk hb hi he
  illegal := fun _ _ _ => encOk_of_not_busy nofun
  poke := fun _ _ _ _ _ hfree h => h.withSpace hfree _
  bind := fun _ _ _ _ hfree h => h.withSpace hfree _
  reset := fun _ _ => encOk_of_not_busy nofun
  crcMove := fun s _ hu _ => encOk_of_unit_ne ((crcTurn_unit s).trans_ne (hu.trans_ne nofun))
  decDone := fun _ _ _ _ _ => encOk_of_not_busy nofun
  decShort := fun _ _ _ _ _ => encOk_of_not_busy nofun
  decToken := fun _ _ _ _ hu _ hf he _ =>
    (codecMove_exec (fetchToken_context_ne_command hf) he).encOk (hu.trans_ne nofun)
  encTokens := fun _ hb hu hp h => encMainLoop_encOk hb hu hp h
  encHeader := fun _ _ hb hu hp he h => execHdr_encOk hb hu hp he h
  encFrame := fun s _ _ _ _ => encOk_of_not_busy (encBody_status _ s)

/-- Settles O29: a token and the end of the main loop keep the registers, after which all is closed; every other move ends the
operation, finds no `ENC` running or leaves registers and input alone. -/
theorem encoderInvariant : Obligations.EncoderInvariant := fun _ _ hs h => encOk_kept.step hs h

end Sys2Proof.Machine
end

section
/-! What the encoder's search finds and what the lazy rule makes of it (42_yaz0_encoder R205 to R212). -/

namespace Sys2Proof.Machine

/-- A candidate replaces the best match exactly if it is longer (R206, R207). -/
theorem betterMatch_cases (best : Match) (len i : Nat) :
    (len ≤ best.length ∧ betterMatch best len i = best) ∨ (best.length < len ∧ betterMatch best len i = ⟨len, i⟩) := by
  unfold betterMatch
  split
  · next h => exact .inr ⟨h, rfl⟩
  · next h => exact .inl ⟨Nat.le_of_not_lt h, rfl⟩

theorem betterMatch_length (best : Match) (len i : Nat) :
    (betterMatch best len i).length = max best.length len := by
  rcases betterMatch_cases best len i with ⟨h, e⟩ | ⟨h, e⟩ <;> rw [e]
  · exact (Nat.max_eq_left h).symm
  · exact (Nat.max_eq_right h.le).symm

/-- The outer loop keeps the match it began with unless it finds a longer one. -/
theorem searchWindow_eq_or_longer (m : Memory) (pos smp count : Nat) : ∀ (i : Nat) (best : Match),
    searchWindow m pos smp i count best = best ∨
      best.length < (searchWindow m pos smp i count best).length := by
  induction count with
  | zero => exact fun _ _ => .inl rfl
  | succ count ih =>
    intro i best
    rw [searchWindow]
    rcases betterMatch_cases best (matchLength m i pos smp) i with ⟨_, e⟩ | ⟨hlonger, e⟩ <;> rw [e]
    · exact ih (i + 1) best
    · rcases ih (i + 1) ⟨matchLength m i pos smp, i⟩ with e' | h
      · rw [e']; exact .inr hlonger
      · exact .inr (hlonger.trans h)

theorem le_searchWindow (m : Memory) (pos smp i count : Nat) (best : Match) :
    best.length ≤ (searchWindow m pos smp i count best).length := by
  rcases searchWindow_eq_or_longer m pos smp count i best with e | h
  · rw [e]
  · exact h.le

/-- No candidate is longer than what the outer loop finds. -/
theorem matchLength_le_searchWindow (m : Memory) (pos smp count : Nat) : ∀ (i : Nat) (best : Match) (x : Nat), i ≤ x →
    x < i + count → matchLength m x pos smp ≤ (searchWindow m pos smp i count best).length := by
  induction count with
  | zero => exact fun _ _ _ hlow hhigh => absurd hhigh (Nat.not_lt.mpr hlow)
  | succ count ih =>
    intro i best x hlow hhigh
    rw [searchWindow]
    rcases Nat.eq_or_lt_of_le hlow with rfl | hlater
    · refine Nat.le_trans ?_ (le_searchWindow m pos smp (i + 1) count _)
      rw [betterMatch_length]
      exact Nat.le_max_right _ _
    · exact ih (i + 1) _ x hlater (by omega)

/-- Of the longest candidates the outer loop finds the first. -/
theorem searchWindow_position_le (m : Memory) (pos smp count : Nat) : ∀ (i : Nat) (best : Match) (x : Nat), i ≤ x →
    x < i + count → best.length < matchLength m x pos smp →
      (searchWindow m pos smp i count best).length = matchLength m x pos smp →
        (searchWindow m pos smp i count best).position ≤ x := by
  induction count with
  | zero => exact fun _ _ _ hlow hhigh => absurd hhigh (Nat.not_lt.mpr hlow)
  | succ count ih =>
    intro i best x hlow hhigh hlonger heq
    rw [searchWindow] at heq ⊢
    rcases searchWindow_eq_or_longer m pos smp count (i + 1) (betterMatch best (matchLength m i pos smp) i)
      with e | hgrows
    · rw [e] at heq ⊢
      rcases betterMatch_cases best (matchLength m i pos smp) i with ⟨_, e'⟩ | ⟨_, e'⟩ <;> rw [e'] at heq ⊢
      · exact absurd heq hlonger.ne
      · exact hlow
    · rw [heq] at hgrows
      have hne : i ≠ x := by
        rintro rfl
        rw [betterMatch_length] at hgrows
        exact absurd hgrows (Nat.not_lt.mpr (Nat.le_max_right _ _))
      exact ih (i + 1) _ x (Nat.lt_of_le_of_ne hlow hne) (by omega) hgrows heq

theorem search_of_limit_lt {m : Memory} {srcSize pos : Nat} (h : compareLimit srcSize pos < lenMin) :
    search m srcSize pos = ⟨0, 0⟩ := if_pos h

theorem search_of_le_limit {m : Memory} {srcSize pos : Nat} (h : lenMin ≤ compareLimit srcSize pos) :
    search m srcSize pos =
      searchWindow m pos (compareLimit srcSize pos) (windowStart pos) (pos - windowStart pos) ⟨0, 0⟩ :=
  if_neg (Nat.not_lt.mpr h)

/-- A match starts at a candidate of the outer loop, which is at least as long (R205). -/
theorem MatchAt.candidate {m : Memory} {srcSize pos : Nat} {q : Match} (h : MatchAt m srcSize pos q) :
    windowStart pos ≤ q.position ∧ q.position < windowStart pos + (pos - windowStart pos) ∧
      q.length ≤ matchLength m q.position pos (compareLimit srcSize pos) := by
  have hbefore := h.before
  have hwindow := h.inWindow
  refine ⟨?_, ?_, le_matchLength m _ _ _ _ h.inLimit h.agree⟩ <;> unfold windowStart <;> omega

/-- What is found has length 0 only as the loop began. -/
theorem search_position_of_length_zero {m : Memory} {srcSize pos : Nat} (hlimit : lenMin ≤ compareLimit srcSize pos)
    (h : (search m srcSize pos).length = 0) : (search m srcSize pos).position = 0 := by
  rw [search_of_le_limit hlimit] at h ⊢
  rcases searchWindow_eq_or_longer m pos (compareLimit srcSize pos) (pos - windowStart pos) (windowStart pos) ⟨0, 0⟩
    with e | hlonger
  · rw [e]
  · exact absurd h hlonger.ne'

theorem MatchAt.length_le_search {m : Memory} {srcSize pos : Nat} {q : Match} (h : MatchAt m srcSize pos q)
    (hlimit : lenMin ≤ compareLimit srcSize pos) : q.length ≤ (search m srcSize pos).length := by
  obtain ⟨hlow, hhigh, hlen⟩ := h.candidate
  rw [search_of_le_limit hlimit]
  exact hlen.trans (matchLength_le_searchWindow m pos _ _ _ _ _ hlow hhigh)

theorem MatchAt.search_position_le {m : Memory} {srcSize pos : Nat} {q : Match} (h : MatchAt m srcSize pos q)
    (hlimit : lenMin ≤ compareLimit srcSize pos) (hlongest : q.length = (search m srcSize pos).length)
    (hpos : 0 < q.length) : (search m srcSize pos).position ≤ q.position := by
  obtain ⟨hlow, hhigh, hlen⟩ := h.candidate
  rw [search_of_le_limit hlimit] at hlongest ⊢
  have hcandidate := matchLength_le_searchWindow m pos (compareLimit srcSize pos) _ _ ⟨0, 0⟩ _ hlow hhigh
  exact searchWindow_position_le m pos _ _ _ _ _ hlow hhigh (hpos.trans_le hlen)
    (Nat.le_antisymm (hlongest.ge.trans hlen) hcandidate)

/-- Settles O27, clause by clause. -/
theorem searchFindsLongest : Obligations.SearchFindsLongest := fun _ _ _ =>
  ⟨search_of_limit_lt, fun hlimit =>
    ⟨search_matchAt, search_position_of_length_zero hlimit, fun _ h => h.length_le_search hlimit,
      fun _ h => h.search_position_le hlimit⟩⟩

theorem findBest_of_flag {m : Memory} {srcSize : Nat} {r : EncRegs} (h : r.flag = true) :
    findBest m srcSize r = (r.stashSize, { r with flag := false, matchPosition := r.stashMatch }) := if_pos h

theorem findBest_of_no_flag {m : Memory} {srcSize : Nat} {r : EncRegs} (h : r.flag = false) :
    findBest m srcSize r = lookAhead m srcSize r.srcPos (search m srcSize r.srcPos) r :=
  if_neg (Bool.eq_false_iff.mp h)

/-- Settles O28: the three cases of the rule are the branches of `findBest` and `lookAhead`. -/
theorem lazyRule : Obligations.LazyRule := by
  intro m srcSize r
  refine ⟨findBest_of_flag, fun hflag hmin hgain => ?_, fun hflag hnot => ?_⟩ <;>
    rw [findBest_of_no_flag hflag, lookAhead]
  · exact if_pos ⟨hmin, hgain⟩
  · refine if_neg fun ⟨hmin, hgain⟩ => ?_
    rcases hnot with hshort | hsmall
    · exact Nat.not_lt.mpr hmin hshort
    · exact Nat.not_lt.mpr hgain hsmall

end Sys2Proof.Machine
end

section
/-! The tokens the encoder emits and the groups it closes (42_yaz0_encoder R220 to R229, R236). -/

namespace Sys2Proof.Machine

/-- `findBest` leaves the group and the stream alone (R212). -/
theorem findBest_group {m : Memory} {srcSize len : Nat} {r r' : EncRegs} (h : findBest m srcSize r = (len, r')) :
    r'.code = r.code ∧ r'.cnt = r.cnt ∧ r'.grp = r.grp ∧ r'.stream = r.stream := by
  have hframe := findBest_frame m srcSize r
  rw [h] at hframe
  dsimp only at hframe
  rw [hframe]
  exact ⟨rfl, rfl, rfl, rfl⟩

/-! ## The code byte -/

/-- The bit of the token's position is set for a literal and stays 0 for a back-reference (R221, R222, R226). -/
theorem getLsbD_codeWith_cnt {r : EncRegs} (len : Nat) (hcnt : r.cnt < groupTokens)
    (hunused : r.code.toNat % 2 ^ (8 - r.cnt) = 0) :
    (codeWith len r).getLsbD (7 - r.cnt) = decide (len < lenMin) := by
  have hclear := getLsbD_of_unused hcnt hunused
  unfold codeWith
  split
  · next hlit =>
    rw [BitVec.getLsbD_or, hclear, Bool.false_or, getLsbD_literalBit hcnt, decide_eq_true rfl, decide_eq_true hlit]
  · next hlit => rw [hclear, decide_eq_false hlit]

/-- No other bit of the code byte changes. -/
theorem getLsbD_codeWith_ne {r : EncRegs} (len : Nat) {k : Nat} (hcnt : r.cnt < groupTokens) (hk : k ≠ 7 - r.cnt) :
    (codeWith len r).getLsbD k = r.code.getLsbD k := by
  unfold groupTokens at hcnt
  unfold codeWith
  split
  · rw [BitVec.getLsbD_or]
    rcases Nat.lt_or_ge k 8 with hk8 | hk8
    · have hbit : (literalBit r.cnt).getLsbD (7 - (7 - k)) = false := by
        rw [getLsbD_literalBit (by omega)]
        exact decide_eq_false (by omega)
      rw [show 7 - (7 - k) = k by omega] at hbit
      rw [hbit, Bool.or_false]
    · rw [BitVec.getLsbD_of_ge (literalBit r.cnt) k hk8, Bool.or_false]
  · rfl

/-! ## The token -/

theorem tokenFor_literal {m : Memory} {len : Nat} {r : EncRegs} (h : len < lenMin) :
    tokenFor m len r = .lit (Memory.read m r.srcPos) := if_pos h

/-- A back-reference of the encoder has the length `findBest` returned and the distance to the match, which lie where R236
says, and copies the input's own bytes. -/
theorem Choice.backRef {m : Memory} {srcSize len : Nat} {r : EncRegs} (h : Choice m srcSize r.srcPos len r)
    (hp : r.srcPos < srcSize) (hmin : lenMin ≤ len) :
    ∃ dist, dist = r.srcPos - r.matchPosition - 1 ∧ backRefFields (tokenFor m len r) = some (len, dist) ∧
      spanOf len = len ∧ dist + 1 ≤ r.srcPos ∧ dist ≤ 0xFFF ∧
      ∀ j, j < spanOf len → Memory.read m (r.srcPos - dist - 1 + j) = Memory.read m (r.srcPos + j) := by
  have hmatch := h.found hmin
  have hbefore : r.matchPosition < r.srcPos := hmatch.before
  have hwindow : r.srcPos ≤ r.matchPosition + 0x1000 := hmatch.inWindow
  have hmax : len ≤ lenMax := (hmatch.end_le hp.le).2
  have hdist : r.srcPos - r.matchPosition - 1 ≤ 0xFFF := by omega
  have hspan : spanOf len = len := by rw [spanOf, if_neg (Nat.not_lt.mpr hmin), Nat.min_eq_left hmax]
  refine ⟨_, rfl, ?_, hspan, by omega, hdist, ?_⟩
  · rw [tokenFor_of_match hmin hmax]
    exact (backRefOf_spec hmin hmax hdist).2
  · have hfrom : r.srcPos - (r.srcPos - r.matchPosition - 1) - 1 = r.matchPosition := by omega
    rw [hspan, hfrom]
    exact hmatch.agree

/-- The token is a literal exactly for a length below 3, and then that of the byte at the cursor (R220, R221). -/
theorem Choice.eq_literal_iff {m : Memory} {srcSize len : Nat} {r : EncRegs} (h : Choice m srcSize r.srcPos len r)
    (hp : r.srcPos < srcSize) : tokenFor m len r = .lit (Memory.read m r.srcPos) ↔ len < lenMin := by
  refine ⟨fun e => ?_, tokenFor_literal⟩
  obtain ⟨_, _, hctx⟩ := h.itemAt hp
  rw [e] at hctx
  exact of_decide_eq_true (Context.token.inj hctx).symm

theorem step_encodeToken {s : State} (hh : s.host = []) (hb : s.status = .busy) (hu : s.unit = .enc)
    (hp : s.enc.phase = .tokens) (hlt : s.enc.srcPos < s.srcLen.toNat) :
    step s = .next { s with enc := encodeToken s.src s.srcLen.toNat s.enc } := by
  rw [step_encMainLoop hh hb hu hp, encMainLoop_of_lt hlt]

theorem step_closeLast {s : State} (hh : s.host = []) (hb : s.status = .busy) (hu : s.unit = .enc)
    (hp : s.enc.phase = .tokens) (hend : s.srcLen.toNat ≤ s.enc.srcPos) :
    step s = .next { s with enc := closeLast s.enc } := by
  rw [step_encMainLoop hh hb hu hp, encMainLoop_of_end hend]

/-- Settles O30: what `findBest` chose from registers that are as they should be is a literal, or a match that a back-reference
copies. -/
theorem emittedTokenIsRight : Obligations.EmittedTokenIsRight := by
  intro s len r hh hb hu hp hok hlt hbest
  replace hok := hok hb hu
  obtain ⟨hchoice, _, hpos, hcode, hcnt, hgrp, hstream⟩ := findBest_picked hok hbest
  have hcntlt := hok.cnt_lt
  have hunused := hok.code_unused
  rw [← hpos] at hlt
  rw [← hcnt] at hcntlt hunused
  rw [← hcode] at hunused
  obtain ⟨hitem, _, _⟩ := hchoice.itemAt hlt
  refine ⟨tokenFor s.src len r, spanOf len, codeWith len r, _,
    step_encodeToken hh hb hu hp (hpos ▸ hlt), rfl, rfl, hitem.wf, ?_⟩
  rw [← hpos, ← hcode, ← hcnt, ← hgrp, ← hstream]
  refine ⟨fun hlit => ⟨tokenFor_literal hlit, if_pos hlit⟩, fun hmin => ?_, ?_,
    fun k hk => getLsbD_codeWith_ne len hcntlt hk, encodeToken_eq hbest⟩
  · obtain ⟨dist, hdist, hfields, hspan, hback, hfar, hsame⟩ := hchoice.backRef hlt hmin
    exact ⟨dist, hdist, hfields, hspan, hback, hfar, hchoice.span_le hlt, hsame⟩
  · rw [getLsbD_codeWith_cnt len hcntlt hunused, decide_eq_true_iff]
    exact (hchoice.eq_literal_iff hlt).symm

/-! ## The group -/

/-- Settles O31: a token fills the group or leaves it open, and the end of the input closes an open group only. -/
theorem groupsAreClosed : Obligations.GroupsAreClosed := by
  intro s hh hb hu hp
  refine ⟨fun hlt => ?_, fun hend hopen => ?_, fun hend hempty => ?_⟩
  · obtain ⟨len, r, hbest⟩ : ∃ len r, findBest s.src s.srcLen.toNat s.enc = (len, r) := ⟨_, _, rfl⟩
    obtain ⟨hcode, hcnt, hgrp, hstream⟩ := findBest_group hbest
    have hstep := step_encodeToken hh hb hu hp hlt
    rw [encodeToken_eq hbest] at hstep
    rw [hbest, EncRegs.encLen, ← hcode, ← hcnt, ← hgrp, ← hstream]
    refine ⟨tokenFor s.src len r, codeWith len r, _, hstep, rfl, rfl, fun hseven => ?_, fun hnot => ?_⟩
    · rw [if_pos (show r.cnt + 1 = groupTokens from congrArg (· + 1) hseven)]
      refine ⟨rfl, ?_, rfl, rfl, rfl⟩
      rw [EncRegs.encLen, List.length_append, List.length_cons, List.length_append, encode_length]
      omega
    · rw [if_neg (show ¬ r.cnt + 1 = groupTokens from fun h => hnot (Nat.succ.inj h))]
      exact ⟨rfl, rfl, rfl, rfl, rfl⟩
  · rw [step_closeLast hh hb hu hp hend, closeLast_of_open hopen]
    refine ⟨_, rfl, ?_, rfl⟩
    simp only [EncRegs.encLen, List.length_append, List.length_cons]
    omega
  · rw [step_closeLast hh hb hu hp hend, closeLast_of_empty hempty]

end Sys2Proof.Machine
end

section
/-! The frame in `DST` (42_yaz0_encoder R230 to R234, R238), and the start of an `ENC` (R201). -/

namespace Sys2Proof.Machine

theorem writeBytes_append (ys : List Byte) : ∀ (xs : List Byte) (m : Memory) (a : Nat),
    Memory.writeBytes m a (xs ++ ys) = Memory.writeBytes (Memory.writeBytes m a xs) (a + xs.length) ys := by
  intro xs
  induction xs with
  | nil => exact fun _ _ => rfl
  | cons x xs ih =>
    intro m a
    rw [List.cons_append, Memory.writeBytes, Memory.writeBytes, ih, List.length_cons, Nat.add_right_comm, Nat.add_assoc]

/-! ## The header -/

/-- The encoder after its header: the 16 bytes stand in `DST`, and the rest of the frame is next. -/
def headerWritten (size : Word) (s : State) : State :=
  State.writeDst 0 (encode (.hdr size)) { s with enc := { s.enc with phase := .body } }

theorem headerWritten_dst (size : Word) (s : State) :
    (headerWritten size s).dst = Memory.writeBytes s.dst 0 (encode (.hdr size)) := by
  rw [headerWritten, writeDst_dst]

/-- The header ends at offset 16. -/
theorem read_headerWritten (size : Word) (s : State) {a : Nat} (ha : hdrLen ≤ a) :
    Memory.read (headerWritten size s).dst a = Memory.read s.dst a := by
  rw [headerWritten_dst]
  exact read_writeBytes_outside s.dst _ (.inr (by rw [encode_length, Nat.zero_add]; exact ha))

theorem readBytes_headerWritten (size : Word) (s : State) :
    Memory.readBytes (headerWritten size s).dst 0 16 = encode (.hdr size) := by
  rw [headerWritten_dst]
  exact readBytes_writeBytes_self (encode (.hdr size)) s.dst 0

theorem exec_hdr_of_fits {size : Word} {s : State} (h : hdrLen ≤ s.dstLen.toNat) :
    exec (.hdr size) s = .next (headerWritten size s) := if_neg (Nat.not_lt.mpr h)

theorem exec_hdr_of_short {size : Word} {s : State} (h : s.dstLen.toNat < hdrLen) :
    exec (.hdr size) s = .next (encRaise .dstCapacity s) := if_pos h

/-- Settles O32: the header bytes are read back, and nothing beyond them is written. -/
theorem hdrRuns : Obligations.HdrRuns := fun size s hfits =>
  ⟨headerWritten size s, exec_hdr_of_fits hfits, readBytes_headerWritten size s,
    fun _ ha => read_headerWritten size s ha, rfl⟩

/-! ## The length -/

/-- Settles O33: rounding down to a multiple of 16, for the two bases. -/
theorem frameLength : Obligations.FrameLength := by
  refine ⟨encTailBase_cases, fun encLen => ?_⟩
  unfold frameLen
  have hbase := encTailBase_cases
  refine ⟨by omega, by omega, fun base => by omega, by omega, by omega, by omega, Nat.mul_mod_left _ _, by omega⟩

theorem hdrLen_add_le_frameLen (base encLen : Nat) : hdrLen + encLen ≤ frameLen base encLen := by
  unfold hdrLen frameLen
  omega

/-! ## The rest of the frame -/

theorem encBody_of_short {base : Nat} {s : State} (h : s.dstLen.toNat < frameLen base s.enc.encLen) :
    encBody base s = encRaise .dstCapacity s := if_pos h

theorem encBody_of_fits {base : Nat} {s : State} (h : frameLen base s.enc.encLen ≤ s.dstLen.toNat) :
    encBody base s =
      complete (frameLen base s.enc.encLen) s.srcLen.toNat (hdrLen + s.enc.encLen)
        (s.writeDst hdrLen (s.enc.stream ++ padding base s.enc.encLen)) := if_neg (Nat.not_lt.mpr h)

/-- The bytes of a frame (R230, R231, R233). -/
def frameBytes (base : Nat) (size : Word) (r : EncRegs) : List Byte :=
  encode (.hdr size) ++ (r.stream ++ padding base r.encLen)

/-- A frame's bytes are as many as `frameLen` says (R232, R233). -/
theorem frameBytes_length (base : Nat) (size : Word) (r : EncRegs) :
    (frameBytes base size r).length = frameLen base r.encLen := by
  rw [frameBytes, List.length_append, encode_length]
  exact hdrLen_add_body_length base r.stream

/-- The encoder `DONE` (R238): header and rest of the frame are one write from offset 0 on. -/
def frameWritten (base : Nat) (size : Word) (s : State) : State :=
  complete (frameLen base s.enc.encLen) s.srcLen.toNat (hdrLen + s.enc.encLen)
    { s with dst := Memory.writeBytes s.dst 0 (frameBytes base size s.enc), enc := { s.enc with phase := .body } }

theorem frameWritten_dst (base : Nat) (size : Word) (s : State) :
    (frameWritten base size s).dst = Memory.writeBytes s.dst 0 (frameBytes base size s.enc) := by
  rw [frameWritten, complete_dst]

theorem encBody_headerWritten {base : Nat} {size : Word} {s : State}
    (h : frameLen base s.enc.encLen ≤ s.dstLen.toNat) :
    encBody base (headerWritten size s) = frameWritten base size s := by
  rw [encBody_of_fits (s := headerWritten size s) h, frameWritten, frameBytes, writeBytes_append]
  rfl

/-- The frame is read back whole. -/
theorem readBytes_frameWritten (base : Nat) (size : Word) (s : State) :
    Memory.readBytes (frameWritten base size s).dst 0 (frameLen base s.enc.encLen) =
      encode (.hdr size) ++ s.enc.stream ++ List.replicate (frameLen base s.enc.encLen - 16 - s.enc.encLen) 0 := by
  have hself := readBytes_writeBytes_self (frameBytes base size s.enc) s.dst 0
  rw [frameBytes_length] at hself
  rw [frameWritten_dst, hself, frameBytes, padding, hdrLen, List.append_assoc]

theorem read_frameWritten (base : Nat) (size : Word) (s : State) {a : Nat} (h : frameLen base s.enc.encLen ≤ a) :
    Memory.read (frameWritten base size s).dst a = Memory.read s.dst a := by
  rw [frameWritten_dst]
  exact read_writeBytes_outside s.dst _ (.inr (by rw [frameBytes_length, Nat.zero_add]; exact h))

section moves
variable {s : State} (hh : s.host = []) (hb : s.status = .busy) (hu : s.unit = .enc) (hp : s.enc.phase = .header)
include hh hb hu hp

/-- In a `DST` with room for the header the rest of the frame is the second step. -/
theorem run_frame (hfits : hdrLen ≤ s.dstLen.toNat) :
    run 2 s = .next (encBody encTailBase (headerWritten s.srcLen s)) := by
  have hheader : step s = .next (headerWritten s.srcLen s) := by
    rw [step_header hh hb hu hp, exec_hdr_of_fits hfits]
  have hbody : step (headerWritten s.srcLen s) = .next (encBody encTailBase (headerWritten s.srcLen s)) := by
    rw [step_encTurn (v := headerWritten s.srcLen s) hh hb hu]
    rfl
  rw [run_succ_of_next hheader, run_succ_of_next hbody, run_zero]

/-- A frame that does not fit faults with the header, or with the rest of it (R234). -/
theorem run_frame_short (hshort : s.dstLen.toNat < frameLen encTailBase s.enc.encLen) :
    ∃ n t, n ≤ 2 ∧ run n s = .next t ∧ Faulted .dstCapacity 0 0 s t := by
  rcases Nat.lt_or_ge s.dstLen.toNat hdrLen with hnone | hheader
  · have hstep : step s = .next (encRaise .dstCapacity s) := by
      rw [step_header hh hb hu hp, exec_hdr_of_short hnone]
    exact ⟨1, _, by decide, by rw [run_succ_of_next hstep, run_zero], encRaise_faulted _ s⟩
  · have hrun := run_frame hh hb hu hp hheader
    rw [encBody_of_short (s := headerWritten s.srcLen s) hshort] at hrun
    have hfault := encRaise_faulted .dstCapacity (headerWritten s.srcLen s)
    refine ⟨2, _, Nat.le_refl 2, hrun, { hfault with beyond := fun a ha => ?_ }⟩
    exact (hfault.beyond a ha).trans (read_headerWritten s.srcLen s (hheader.trans ha))

end moves

/-- What is no more than a register's value fits in a register. -/
theorem toNat_ofNat_of_le {n : Nat} {w : Word} (h : n ≤ w.toNat) : (BitVec.ofNat 32 n).toNat = n := by
  rw [BitVec.toNat_ofNat, Nat.mod_eq_of_lt (h.trans_lt w.isLt)]

/-- Settles O34: the two steps write the frame as one stretch, or end in the fault. -/
theorem frameIsWritten : Obligations.FrameIsWritten := by
  intro s hh hb hu hp
  refine ⟨run_frame_short hh hb hu hp, fun hfits => ?_⟩
  have hlen := (hdrLen_add_le_frameLen encTailBase s.enc.encLen).trans hfits
  have hrun := run_frame hh hb hu hp ((Nat.le_add_right _ _).trans hlen)
  rw [encBody_headerWritten hfits] at hrun
  refine ⟨frameWritten encTailBase s.srcLen s, hrun, rfl, readBytes_frameWritten encTailBase s.srcLen s,
    fun _ ha => read_frameWritten encTailBase s.srcLen s ha, ?_, ?_, ?_, rfl, rfl, rfl⟩ <;> rw [frameWritten]
  · rw [complete_outLen, toNat_ofNat_of_le hfits]
  · rw [complete_srcPos, BitVec.ofNat_toNat, BitVec.setWidth_eq]
  · rw [complete_dstPos, toNat_ofNat_of_le hlen, hdrLen]

/-- Settles O11: not busy, `ENC` is accepted and its unit started, with no byte encoded yet. -/
theorem acceptEnc : Obligations.AcceptEnc := by
  intro s hb
  rcases command_cases s with ⟨hb', _⟩ | ⟨_, _, _, henc⟩
  · exact absurd hb' hb
  · refine ⟨henc, fun t ht => ?_⟩
    rw [henc] at ht
    cases ht
    exact encStart_encLen

end Sys2Proof.Machine
end

section
/-! How long an encoded stream can be (42_yaz0_encoder R235). -/

namespace Sys2Proof.Machine

/-- A token has no more bytes than it makes. -/
theorem lengthBytes_le_spanOfItem {i : Instr} {b : Bool} (h : i.context = .token b) : i.lengthBytes ≤ spanOfItem i := by
  cases i with
  | lit v => exact Nat.le_refl 1
  | ref2 n d => exact Nat.le_add_left 2 n.toNat
  | ref3 d k => exact Nat.le_trans (show 3 ≤ lenLongMin by decide) (lenOfRef3_range k).1
  | _ => cases h

theorem BitsFor.context {code : Byte} {ts : List Instr} (h : BitsFor code ts) :
    ∀ i ∈ ts, ∃ b, i.context = .token b := by
  intro i hi
  obtain ⟨k, hk⟩ := List.mem_iff_getElem?.mp hi
  exact ⟨_, h k i hk⟩

/-- Tokens have no more bytes than they make, and are no more than the bytes they make. -/
theorem TokensAt.size_le {m : Memory} {p q : Nat} {ts : List Instr} (h : TokensAt m p ts q)
    (hts : ∀ i ∈ ts, ∃ b, i.context = .token b) : p + (ts.flatMap encode).length ≤ q ∧ p + ts.length ≤ q := by
  induction h with
  | nil p => exact ⟨Nat.le_refl p, Nat.le_refl p⟩
  | @cons p q i ts _ _ ih =>
    obtain ⟨b, hi⟩ := hts i List.mem_cons_self
    obtain ⟨hbytes, hcount⟩ := ih fun j hj => hts j (List.mem_cons_of_mem i hj)
    have hlen := lengthBytes_le_spanOfItem hi
    have hpos := spanOfItem_pos hi
    rw [List.flatMap_cons, List.length_append, encode_length, List.length_cons]
    omega

/-- Full groups add a code byte for each eight tokens. -/
theorem FullGroups.length_le {m : Memory} {bs : List Byte} {p : Nat} (h : FullGroups m bs p) :
    bs.length ≤ p + p / 8 := by
  induction h with
  | nil => exact Nat.le_refl 0
  | snoc _ tokens full bits ih =>
    obtain ⟨hbytes, hcount⟩ := tokens.size_le bits.context
    rw [full, groupTokens] at hcount
    rw [List.length_append, groupBytes, List.length_cons]
    omega

theorem WholeStream.length_le {m : Memory} {n : Nat} {bs : List Byte} (h : WholeStream m n bs) :
    bs.length ≤ n + (n + 7) / 8 := by
  cases h with
  | full groups =>
    have := groups.length_le
    omega
  | last before tokens nonempty _ bits =>
    have hfull := before.length_le
    obtain ⟨hbytes, hcount⟩ := tokens.size_le bits.context
    have hone := List.length_pos_iff.mpr nonempty
    rw [List.length_append, groupBytes, List.length_cons]
    omega

/-- The closed groups of an encoder inside its input. -/
theorem EncRegs.Encodes.length_le {m : Memory} {r : EncRegs} (h : r.Encodes m) {n : Nat} (hn : r.srcPos ≤ n) :
    r.stream.length ≤ n + (n + 7) / 8 := by
  obtain ⟨p, ts, hfull, htokens, _⟩ := h
  have hlen := hfull.length_le
  have hle := htokens.le
  omega

/-- An undisturbed `ENC` whose stream is within the bound, also after it has ended. -/
structure BoundedEncoding (s v : State) : Prop where
  encoding : Encoding s v
  bound : v.enc.stream.length ≤ s.srcLen.toNat + (s.srcLen.toNat + 7) / 8

/-- The stream of a running encoder is within the bound by what it makes. -/
theorem EncStage.length_le {v : State} (h : EncStage v) (hb : v.status = .busy) :
    v.enc.stream.length ≤ v.srcLen.toNat + (v.srcLen.toNat + 7) / 8 := by
  cases h with
  | emits _ _ _ ok encodes => exact encodes.length_le ok.cursor
  | writes _ _ _ stream => exact stream.length_le
  | done status => exact absurd (status.symm.trans hb) nofun
  | faulted status => exact absurd (status.symm.trans hb) nofun

/-- Only the main loop writes the stream. -/
theorem encTurn_stream {v t : State} (hp : v.enc.phase ≠ .tokens) (h : (encTurn v).outcome = .next t) :
    t.enc.stream = v.enc.stream := by
  unfold encTurn at h
  split at h
  · next htokens => exact absurd htokens hp
  · simp only [Turn.outcome, exec, execHdr] at h
    split at h <;> cases h <;> rfl
  · cases h
    unfold encBody
    split <;> rfl

/-- The step that ends the operation, and any after it, leave the stream as it was. -/
theorem EncStage.stream_of_ended {v t : State} (hv : EncStage v) (hh : v.host = []) (h : step v = .next t)
    (ht : t.status ≠ .busy) : t.enc.stream = v.enc.stream := by
  cases hv with
  | emits hb hu hp =>
    rw [step_encMainLoop hh hb hu hp] at h
    cases h
    refine absurd ?_ ht
    unfold encMainLoop
    split <;> exact hb
  | writes hb hu hp =>
    rw [step_encTurn hh hb hu] at h
    exact encTurn_stream hp h
  | done hst => rw [step_of_not_busy hh (hst.trans_ne nofun) h]
  | faulted hst => rw [step_of_not_busy hh (hst.trans_ne nofun) h]

theorem boundedEncoding_step {s v t : State} (hv : BoundedEncoding s v) (h : step v = .next t) :
    BoundedEncoding s t := by
  have ht := encoding_step hv.encoding h
  refine ⟨ht, ?_⟩
  by_cases hb : t.status = .busy
  · rw [← ht.srcLen]
    exact ht.stage.length_le hb
  · rw [hv.encoding.stage.stream_of_ended hv.encoding.host h hb]
    exact hv.bound

/-- Settles O35: while it runs, the stream of an undisturbed `ENC` is made of tokens no longer than what they make; after that
it does not change. -/
theorem streamSizeBound : Obligations.StreamSizeBound := by
  intro s s1 t n hh hb he hrun
  have hstart := exec_enc_encoding hh hb he
  obtain ⟨_, hempty⟩ := acceptEnc s hb
  have hbound : s1.enc.stream.length = 0 := hempty s1 he
  have hs1 : BoundedEncoding s s1 := ⟨hstart, hbound.trans_le (Nat.zero_le _)⟩
  exact (run_keeps (fun _ _ => boundedEncoding_step) hs1 hrun).bound

end Sys2Proof.Machine
end

section
/-! How a command is accepted and how an illegal code is refused (43_host_commands R250 to R252). -/

namespace Sys2Proof.Machine

/-- Settles O9: not busy, `CRC` is accepted, and its unit starts with nothing of an earlier operation. -/
theorem acceptCrc : Obligations.AcceptCrc := fun _ hb => exec_crc_of_not_busy hb

/-- A write of a code that is no command's is settled by the refusal (R250 (2), R251). -/
theorem step_illegalCommand {s : State} {v : Word} {rest : List HostAction} (hb : s.status ≠ .busy)
    (hh : s.host = .write .cmd v :: rest) (h1 : v ≠ 1) (h2 : v ≠ 2) (h3 : v ≠ 3) :
    step s = .next (illegalCommand { s with host := rest, cmd := v }) := by
  rw [step_writeCmd hh, issueCommand, if_neg hb, decodeCommand_illegal h1 h2 h3]
  rfl

/-- Settles O12: the refusal clears the results and enters the fault, and touches nothing else. -/
theorem illegalCommandFaults : Obligations.IllegalCommandFaults := fun _ _ _ hb hh h1 h2 h3 =>
  ⟨_, step_illegalCommand hb hh h1 h2 h3, nofun, rfl⟩

end Sys2Proof.Machine
end

section
/-! Every operation ends (43_host_commands R255, 70_reset R350): each unit comes nearer to its end with every step. -/

namespace Sys2Proof.Machine

/-- A unit runs and the host lets it. -/
structure Running (u : UnitId) (s : State) : Prop where
  host : s.host = []
  status : s.status = .busy
  unit : s.unit = u

/-- Where every step ends the operation or lowers the number of steps left before the last, the operation ends. -/
theorem exists_run_ended {P : State → Prop} {left : State → Nat}
    (hstep : ∀ s, P s → ∃ t, step s = .next t ∧ (t.ended ∨ P t ∧ left t < left s)) {s : State} (hs : P s) :
    ∃ n t, run n s = .next t ∧ t.ended ∧ n ≤ left s + 1 := by
  induction hk : left s using Nat.strong_induction_on generalizing s with
  | _ k ih =>
    subst hk
    obtain ⟨t, hst, hend | ⟨ht, hlt⟩⟩ := hstep s hs
    · exact ⟨1, t, by rw [run_succ_of_next hst, run_zero], hend, Nat.le_add_left 1 _⟩
    · obtain ⟨n, v, hrun, hv, hn⟩ := ih (left t) hlt ht rfl
      exact ⟨n + 1, v, by rw [run_succ_of_next hst, hrun], hv, by omega⟩

/-! ## `CRC` -/

/-- A `CRC` ends where its ROM makes it end: at the bounds of the boot block, at an unknown boot block, at the bounds of the
region, or `DONE` (40_cic_checksum R131, R135, R139, R151). -/
theorem crc_ends {s : State} (hh : s.host = []) :
    ∃ n t, run n (crcStarted s) = .next t ∧ t.ended ∧ n ≤ crcMoves := by
  rcases Nat.lt_or_ge s.romLen.toNat 0x1000 with hshort | hboot
  · exact ⟨_, _, run_crcStarted_short hh hshort, .inr rfl, by decide⟩
  · cases hv : cicOfBootCrc (bootCrcOf s.rom) with
    | none =>
      obtain ⟨r, hrun⟩ := run_crcStarted_unknown hh hboot hv
      exact ⟨_, _, hrun, .inr rfl, by decide⟩
    | some v =>
      rcases Nat.lt_or_ge s.romLen.toNat 0x101000 with hshort | hregion
      · obtain ⟨r, hrun⟩ := run_crcStarted_noRegion hh hboot hshort hv
        exact ⟨_, _, hrun, .inr rfl, by decide⟩
      · obtain ⟨r, hrun⟩ := run_crcStarted hh hregion hv
        exact ⟨_, _, hrun, .inl (crcResult_status _ _ _), Nat.le_refl _⟩

/-! ## `DEC` -/

/-- How many steps a decoder can still make before its last: two for each byte of output that is missing, a token and, at most,
a code byte before it; the next token has its code byte already where bits of one are left. -/
def State.decLeft (s : State) : Nat :=
  2 * (s.dstLen.toNat - s.dec.dstPos) - if s.dec.bitCount = 0 then 0 else 1

/-- A code byte spares the next token its own, and a token makes at least one byte. -/
theorem decLeft_afterItem {s : State} {i : Instr} (hroom : s.dec.dstPos < s.dstLen.toNat)
    (hctx : i.context = s.dec.context) (hend : (afterItem i s).dec.dstPos ≤ s.dstLen.toNat) :
    (afterItem i s).decLeft < s.decLeft := by
  have hleft : (afterItem i s).decLeft = 2 * (s.dstLen.toNat - (s.dec.dstPos + spanOfItem i)) -
      if (regsAfter i s.dec).bitCount = 0 then 0 else 1 := by
    rw [← regsAfter_dstPos]
    rfl
  replace hend : s.dec.dstPos + spanOfItem i ≤ s.dstLen.toNat := (regsAfter_dstPos i s.dec).symm.trans_le hend
  rw [hleft, State.decLeft]
  by_cases h0 : s.dec.bitCount = 0
  · rw [DecRegs.context, if_pos h0] at hctx
    have height : (regsAfter i s.dec).bitCount = 8 := by
      cases i with
      | code k => rfl
      | _ => cases hctx
    rw [if_pos h0, if_neg (by omega)]
    omega
  · rw [DecRegs.context, if_neg h0] at hctx
    have hspan := spanOfItem_pos hctx
    rw [if_neg h0]
    omega

/-- A running decoder's step completes, faults, or executes an item. -/
theorem decoder_step {s : State} (hs : Running .dec s ∧ s.DecOk) :
    ∃ t, step s = .next t ∧ (t.ended ∨ (Running .dec t ∧ t.DecOk) ∧ t.decLeft < s.decLeft) := by
  obtain ⟨⟨hh, hb, hu⟩, hok⟩ := hs
  obtain ⟨_, hdst, _⟩ := hok hb hu
  by_cases hd : s.dec.dstPos = s.dstLen.toNat
  · exact ⟨_, step_decComplete hh hb hu hd, .inl (.inl rfl)⟩
  · rcases step_decoding_cases ⟨hh, hb, hu, hd⟩ with ⟨_, e⟩ | ⟨i, hf, ⟨c, _, e⟩ | ⟨_, e⟩⟩
    · exact ⟨_, e, .inl (.inr rfl)⟩
    · exact ⟨_, e, .inl (.inr rfl)⟩
    · have hok' := decoderInvariant _ _ hok e
      obtain ⟨_, hend, _⟩ := hok' hb hu
      exact ⟨_, e, .inr ⟨⟨⟨hh, hb, hu⟩, hok'⟩,
        decLeft_afterItem (Nat.lt_of_le_of_ne hdst hd) (fetchToken_context hf) hend⟩⟩

theorem dec_ends {s : State} (hh : s.host = []) :
    ∃ n t, run n (decStarted s) = .next t ∧ t.ended ∧ n ≤ 2 * s.dstLen.toNat + 1 :=
  exists_run_ended (left := State.decLeft) (fun _ => decoder_step)
    ⟨⟨hh, rfl, rfl⟩, fun _ _ => ⟨Nat.zero_le _, Nat.zero_le _, Nat.zero_le _, rfl⟩⟩

/-! ## `ENC` -/

/-- How many steps an encoder can still make before its last: a token for each byte of input that is left, the end of the main
loop, and the header. -/
def State.encLeft (s : State) : Nat :=
  match s.enc.phase with
  | .tokens => s.srcLen.toNat - s.enc.srcPos + 2
  | .header => 1
  | .body => 0

theorem encLeft_of_tokens {s : State} (h : s.enc.phase = .tokens) :
    s.encLeft = s.srcLen.toNat - s.enc.srcPos + 2 := by rw [State.encLeft, h]

theorem encLeft_of_header {s : State} (h : s.enc.phase = .header) : s.encLeft = 1 := by rw [State.encLeft, h]

theorem spanOf_pos (len : Nat) : 0 < spanOf len := by
  unfold spanOf lenMin lenMax
  split <;> omega

/-- Every token takes the cursor further (R221 to R225). -/
theorem srcPos_lt_encodeToken {m : Memory} {srcSize : Nat} {r : EncRegs} (hok : r.Ok m srcSize) :
    r.srcPos < (encodeToken m srcSize r).srcPos := by
  obtain ⟨len, r', hbest⟩ : ∃ len r', findBest m srcSize r = (len, r') := ⟨_, _, rfl⟩
  have hpos := (findBest_picked hok hbest).srcPos
  have hspan := spanOf_pos len
  rw [encodeToken_eq hbest]
  split <;> dsimp only <;> omega

theorem encBody_ended (base : Nat) (s : State) : (encBody base s).ended := by
  unfold encBody
  split
  · exact .inr rfl
  · exact .inl rfl

/-- A running encoder's step emits a token, leaves the main loop, writes the header, or ends the operation. -/
theorem encoder_step {s : State} (hs : Running .enc s ∧ s.EncOk) :
    ∃ t, step s = .next t ∧ (t.ended ∨ (Running .enc t ∧ t.EncOk) ∧ t.encLeft < s.encLeft) := by
  obtain ⟨⟨hh, hb, hu⟩, hok⟩ := hs
  cases hp : s.enc.phase with
  | tokens =>
    rw [encLeft_of_tokens hp]
    rcases Nat.lt_or_ge s.enc.srcPos s.srcLen.toNat with hlt | hend
    · have hstep := step_encodeToken hh hb hu hp hlt
      refine ⟨_, hstep, .inr ⟨⟨⟨hh, hb, hu⟩, encoderInvariant _ _ hok hstep⟩, ?_⟩⟩
      have hnext := srcPos_lt_encodeToken (hok hb hu)
      rw [encLeft_of_tokens ((encodeToken_phase (hok hb hu)).trans hp)]
      dsimp only
      omega
    · have hstep := step_closeLast hh hb hu hp hend
      refine ⟨_, hstep, .inr ⟨⟨⟨hh, hb, hu⟩, encoderInvariant _ _ hok hstep⟩, ?_⟩⟩
      rw [encLeft_of_header (closeLast_phase s.enc)]
      omega
  | header =>
    have hstep := step_header hh hb hu hp
    rcases Nat.lt_or_ge s.dstLen.toNat hdrLen with hshort | hfits
    · exact ⟨_, hstep.trans (exec_hdr_of_short hshort), .inl (.inr rfl)⟩
    · replace hstep := hstep.trans (exec_hdr_of_fits hfits)
      exact ⟨_, hstep, .inr ⟨⟨⟨hh, hb, hu⟩, encoderInvariant _ _ hok hstep⟩,
        Nat.lt_of_lt_of_eq Nat.zero_lt_one (encLeft_of_header hp).symm⟩⟩
  | body =>
    refine ⟨encBody encTailBase s, ?_, .inl (encBody_ended _ s)⟩
    rw [step_encTurn hh hb hu, encTurn, hp]
    rfl

/-- The state an accepted `ENC` starts from (R201). -/
def encStarted (s : State) : State := { accept .enc s with enc := EncRegs.start }

theorem exec_enc_of_not_busy {s : State} (hb : s.status ≠ .busy) : exec .enc s = .next (encStarted s) := if_neg hb

theorem enc_ends {s : State} (hh : s.host = []) :
    ∃ n t, run n (encStarted s) = .next t ∧ t.ended ∧ n ≤ s.srcLen.toNat + 3 :=
  exists_run_ended (left := State.encLeft) (fun _ => encoder_step) ⟨⟨hh, rfl, rfl⟩, fun _ _ => encStart_ok _ _⟩

/-- Settles O51, unit by unit. -/
theorem everyCommandEnds : Obligations.EveryCommandEnds := by
  intro s s1 i hh hb hi h
  have hcmd : i = .crc ∨ i = .dec ∨ i = .enc := by simpa using hi
  rcases hcmd with rfl | rfl | rfl
  · rw [exec_crc_of_not_busy hb] at h
    cases h
    exact crc_ends hh
  · rw [exec_dec_of_not_busy hb] at h
    cases h
    exact dec_ends hh
  · rw [exec_enc_of_not_busy hb] at h
    cases h
    exact enc_ends hh

end Sys2Proof.Machine
end

section
/-! SUPPORT. The frame an undisturbed `ENC` leaves (42_yaz0_encoder R230 to R238): its header in `DST[0..16)`, and a length that
holds header and stream. -/

namespace Sys2Proof.Machine

/-- Whether the header of the frame stands in `DST` yet: not before its step, and from then on to the end. -/
inductive FrameStage (v : State) : Prop
  | before (busy : v.status = .busy) (unit : v.unit = .enc) (phase : v.enc.phase ≠ .body)
  | begun (busy : v.status = .busy) (unit : v.unit = .enc) (phase : v.enc.phase = .body)
      (header : HoldsAt v.dst 0 (encode (.hdr v.srcLen)))
  | done (status : v.status = .done) (header : HoldsAt v.dst 0 (encode (.hdr v.srcLen)))
      (length : v.dstPos.toNat ≤ v.outLen.toNat)
  | faulted (status : v.status = .fault)

theorem EncStage.ok_of_tokens {v : State} (h : EncStage v) (hb : v.status = .busy) (hp : v.enc.phase = .tokens) :
    v.enc.Ok v.src v.srcLen.toNat := by
  cases h with
  | emits _ _ _ ok => exact ok
  | writes _ _ phase => exact absurd hp phase
  | done status => exact absurd (status.symm.trans hb) nofun
  | faulted status => exact absurd (status.symm.trans hb) nofun

theorem encMainLoop_frameStage {v : State} (hb : v.status = .busy) (hu : v.unit = .enc) (hp : v.enc.phase = .tokens)
    (hok : v.enc.Ok v.src v.srcLen.toNat) : FrameStage (encMainLoop v) := by
  rcases Nat.lt_or_ge v.enc.srcPos v.srcLen.toNat with hlt | hend
  · rw [encMainLoop_of_lt hlt]
    exact .before hb hu (((encodeToken_phase hok).trans hp).trans_ne nofun)
  · rw [encMainLoop_of_end hend]
    exact .before hb hu ((closeLast_phase v.enc).trans_ne nofun)

theorem execHdr_frameStage {v t : State} (hb : v.status = .busy) (hu : v.unit = .enc)
    (h : exec (.hdr v.srcLen) v = .next t) : FrameStage t := by
  rcases Nat.lt_or_ge v.dstLen.toNat hdrLen with hshort | hfits
  · rw [exec_hdr_of_short hshort] at h
    cases h
    exact .faulted rfl
  · rw [exec_hdr_of_fits hfits] at h
    cases h
    exact .begun hb hu rfl (readBytes_headerWritten v.srcLen v)

/-- The rest of the frame stands above the header (R231). -/
theorem encBody_frameStage {v : State} (base : Nat) (hheader : HoldsAt v.dst 0 (encode (.hdr v.srcLen))) :
    FrameStage (encBody base v) := by
  rcases Nat.lt_or_ge v.dstLen.toNat (frameLen base v.enc.encLen) with hshort | hfits
  · rw [encBody_of_short hshort]
    exact .faulted rfl
  · have hlen := hdrLen_add_le_frameLen base v.enc.encLen
    rw [encBody_of_fits hfits]
    refine .done rfl (hheader.move fun j hj => ?_) ?_
    · rw [complete_dst, writeDst_dst]
      exact read_writeBytes_outside v.dst _ (.inl (by rw [Nat.zero_add]; exact hj))
    · rw [complete_dstPos, complete_outLen, toNat_ofNat_of_le hfits, toNat_ofNat_of_le (hlen.trans hfits)]
      exact hlen

/-- An undisturbed `ENC` with what stands of its frame. -/
structure Framing (s v : State) : Prop where
  encoding : Encoding s v
  frame : FrameStage v

theorem framing_step {s v t : State} (hv : Framing s v) (h : step v = .next t) : Framing s t := by
  refine ⟨encoding_step hv.encoding h, ?_⟩
  obtain ⟨hh, _, _, hstage⟩ := hv.encoding
  cases hv.frame with
  | before hb hu hp =>
    cases hphase : v.enc.phase with
    | tokens =>
      rw [step_encMainLoop hh hb hu hphase] at h
      cases h
      exact encMainLoop_frameStage hb hu hphase (hstage.ok_of_tokens hb hphase)
    | header =>
      rw [step_header hh hb hu hphase] at h
      exact execHdr_frameStage hb hu h
    | body => exact absurd hphase hp
  | begun hb hu hp hheader =>
    rw [step_encTurn hh hb hu, encTurn, hp] at h
    cases h
    exact encBody_frameStage _ hheader
  | done hst hheader hlen =>
    rw [step_of_not_busy hh (hst.trans_ne nofun) h]
    exact .done hst hheader hlen
  | faulted hst =>
    rw [step_of_not_busy hh (hst.trans_ne nofun) h]
    exact .faulted hst

/-- What an `ENC` that ended `DONE` leaves before its stream (R230, R232). -/
theorem enc_done_header {s s1 t : State} {n : Nat} (hh : s.host = []) (hb : s.status ≠ .busy)
    (he : exec .enc s = .next s1) (h : run n s1 = .next t) (hd : t.status = .done) :
    HoldsAt t.dst 0 (encode (.hdr s.srcLen)) ∧ t.dstPos.toNat ≤ t.outLen.toNat := by
  have hstart : Framing s s1 := by
    refine ⟨exec_enc_encoding hh hb he, ?_⟩
    rw [exec_enc_of_not_busy hb] at he
    cases he
    exact .before rfl rfl nofun
  obtain ⟨⟨_, _, hlen, _⟩, hframe⟩ := run_keeps (fun _ _ => framing_step) hstart h
  cases hframe with
  | before hst => exact absurd (hst.symm.trans hd) nofun
  | begun hst => exact absurd (hst.symm.trans hd) nofun
  | done _ hheader hle => exact ⟨hlen ▸ hheader, hle⟩
  | faulted hst => exact absurd (hst.symm.trans hd) nofun

/-- The bytes of the frame are the header and what follows it. -/
theorem readBytes_of_header {m : Memory} {size : Word} {n : Nat} (h : HoldsAt m 0 (encode (.hdr size))) (hn : hdrLen ≤ n) :
    Memory.readBytes m 0 n = encode (.hdr size) ++ Memory.readBytes m hdrLen (n - hdrLen) := by
  have hheader : Memory.readBytes m 0 hdrLen = encode (.hdr size) := h
  obtain ⟨k, rfl⟩ := Nat.exists_eq_add_of_le hn
  rw [readBytes_add, hheader, Nat.zero_add, Nat.add_sub_cancel_left]

end Sys2Proof.Machine
end

section
/-! SUPPORT. A `DEC` that the host polls (43_host_commands R258): the unit does not look at the host's side, so it comes to the
same end. -/

namespace Sys2Proof.Machine

/-- The host has only the poll left to do, and `r` is what it has read. -/
def State.polling (s : State) (r : Word) : State := { s with host := [.poll], readData := r }

/-- An item does to the block what it does without a host. -/
theorem exec_polling {s t : State} {i : Instr} (r : Word) (hi : ofStream i = true) (h : exec i s = .next t) :
    exec i (s.polling r) = .next (t.polling r) := by
  rw [exec_ofStream hi] at h ⊢
  cases h
  dsimp only [State.polling]
  cases itemFault i s.dec s.srcLen.toNat s.dstLen.toNat <;> rfl

theorem decTurn_polling {s t : State} (r : Word) (h : (decTurn s).outcome = .next t) :
    (decTurn (s.polling r)).outcome = .next (t.polling r) := by
  rcases decTurn_cases s with ⟨hd, e⟩ | ⟨hd, i, hf, e⟩ | ⟨hd, _, hf, e⟩ <;> rw [e] at h
  · cases h
    rw [decTurn, if_pos (show (s.polling r).dec.dstPos = (s.polling r).dstLen.toNat from hd)]
    rfl
  · rw [decTurn, if_neg (show (s.polling r).dec.dstPos ≠ (s.polling r).dstLen.toNat from hd),
      show fetchToken (s.polling r) = .ok i from hf]
    exact exec_polling r (ofStream_of_context (fetchToken_context hf)) h
  · cases h
    rw [decTurn, if_neg (show (s.polling r).dec.dstPos ≠ (s.polling r).dstLen.toNat from hd),
      show fetchToken (s.polling r) = .error _ from hf]
    rfl

/-- A poll of a running decoder takes the step it takes by itself (R258). -/
theorem step_polling {s t : State} (r : Word) (hh : s.host = []) (hb : s.status = .busy) (hu : s.unit = .dec)
    (h : step s = .next t) : step (s.polling r) = .next (t.polling 1) := by
  have hblock : blockTurn (s.polling 1) = decTurn (s.polling 1) := by
    simp only [blockTurn, State.polling, hb, hu]
  rw [step_decTurn hh hb hu] at h
  rw [step_eq, turn_poll_of_busy (s := s.polling r) rfl hb]
  exact (congrArg Turn.outcome hblock).trans (decTurn_polling 1 h)

/-- The poll ends the sequence where the decoder has ended. -/
theorem run_polling {src : Memory} {t : State} (ht : t.status = .done) (n : Nat) : ∀ {s : State} (r : Word),
    Undisturbed src s → run n s = .next t →
      ∃ m, run m (s.polling r) = .next { t with host := [], readData := 2 } := by
  induction n with
  | zero =>
    intro s r _ h
    cases h
    have hstep := step_poll_of_not_busy (s := t.polling r) rfl (ht.trans_ne nofun)
    have hcode : (t.polling r).status.code = 2 := congrArg Status.code ht
    rw [hcode] at hstep
    exact ⟨1, by rw [run_succ_of_next hstep]; rfl⟩
  | succ n ih =>
    intro s r hs h
    obtain ⟨u, hu⟩ : ∃ u, step s = .next u := by
      obtain ⟨u, hu, _⟩ := blockTurn_next s
      exact ⟨u, (step_of_no_host hs.host).trans hu⟩
    rw [run_succ_of_next hu] at h
    by_cases hb : s.status = .busy
    · obtain ⟨m, hm⟩ := ih 1 (undisturbed_step hs hu) h
      exact ⟨m + 1, by rw [run_succ_of_next (step_polling r hs.host hb hs.unit hu), hm]⟩
    · rw [step_of_not_busy hs.host hb hu] at h
      exact ih r hs h

/-! ## The length a `DEC` reports -/

/-- An undisturbed `DEC` with `DST_LEN = d`, which reports that length where it has ended `DONE` (41_yaz0_decoder R183). -/
structure ReportsLength (src : Memory) (d : Word) (v : State) : Prop where
  undisturbed : Undisturbed src v
  dstLen : v.dstLen = d
  outLen : v.status = .done → v.outLen = d

theorem reportsLength_step {src : Memory} {d : Word} {v t : State} (hv : ReportsLength src d v) (h : step v = .next t) :
    ReportsLength src d t := by
  obtain ⟨hund, hlen, hout⟩ := hv
  have ⟨hh, hu, _⟩ := hund
  by_cases hb : v.status = .busy
  · have hund' := undisturbed_step hund h
    by_cases hd : v.dec.dstPos = v.dstLen.toNat
    · rw [step_decComplete hh hb hu hd] at h
      cases h
      refine ⟨hund', hlen, fun _ => ?_⟩
      rw [decComplete, complete_outLen, hlen, BitVec.ofNat_toNat, BitVec.setWidth_eq]
    · rcases step_decoding_cases ⟨hh, hb, hu, hd⟩ with ⟨_, e⟩ | ⟨i, _, ⟨c, _, e⟩ | ⟨_, e⟩⟩ <;> rw [e] at h <;> cases h
      · exact ⟨hund', hlen, nofun⟩
      · exact ⟨hund', hlen, nofun⟩
      · exact ⟨hund', hlen, fun hst => absurd (hb.symm.trans hst) nofun⟩
  · rw [step_of_not_busy hh hb h]
    exact ⟨hund, hlen, hout⟩

theorem dec_done_outLen {u v : State} {n : Nat} (hh : u.host = []) (h : run n (decStarted u) = .next v)
    (hd : v.status = .done) : v.outLen = u.dstLen := by
  have hstart : ReportsLength u.src u.dstLen (decStarted u) := ⟨⟨hh, rfl, rfl⟩, rfl, nofun⟩
  exact (run_keeps (fun _ _ => reportsLength_step) hstart h).outLen hd

end Sys2Proof.Machine
end

section
/-! `decodeFrame` (43_host_commands R261) gives back what `ENC` was given. -/

namespace Sys2Proof.Machine

/-- What `decodeFrame` does with a frame whose header says `size`: `rest` is what follows the header. -/
theorem decodeFrameScript_of_header (size : Word) (rest : List Byte) :
    decodeFrameScript (encode (.hdr size) ++ rest) =
      [.bind .src rest, .write .srcLen (BitVec.ofNat 32 rest.length), .write .dstLen size, .write .cmd 2, .poll] := by
  have hlen : (encode (.hdr size) ++ rest).length - hdrLen = rest.length := by
    rw [List.length_append, encode_length]
    exact Nat.add_sub_cancel_left hdrLen rest.length
  have hsize : ∀ l : List Byte, be32 ((encode (.hdr size) ++ l).getD 4 0) ((encode (.hdr size) ++ l).getD 5 0)
      ((encode (.hdr size) ++ l).getD 6 0) ((encode (.hdr size) ++ l).getD 7 0) = size :=
    fun _ => be32_of_be32Bytes size
  rw [decodeFrameScript, hlen, hsize]
  rfl

/-- The operands of `decodeFrame` in their registers, `SRC` bound, and the command issued. -/
def frameBound (size : Word) (rest : List Byte) (u : State) : State :=
  { u with
    host := [], src := Memory.writeBytes [] 0 rest, srcLen := BitVec.ofNat 32 rest.length, dstLen := size, cmd := 2 }

/-- The host's three register writes of a `DEC` (R259). -/
theorem run_decWrites {s : State} {srcLen dstLen : Word} {rest : List HostAction} (hb : s.status ≠ .busy)
    (hh : s.host = .write .srcLen srcLen :: .write .dstLen dstLen :: .write .cmd 2 :: rest) :
    run 3 s = .next (decStarted { s with host := rest, srcLen := srcLen, dstLen := dstLen, cmd := 2 }) := by
  obtain ⟨_, _, _, _, hwrite⟩ := registerAccessWhileBusy
  obtain ⟨hsrcLen, _⟩ := hwrite s srcLen (.write .dstLen dstLen :: .write .cmd 2 :: rest) hb
  obtain ⟨_, hdstLen, _⟩ :=
    hwrite { s with host := .write .dstLen dstLen :: .write .cmd 2 :: rest, srcLen := srcLen } dstLen
      (.write .cmd 2 :: rest) hb
  have hcmd := step_issue (s := { s with host := .write .cmd 2 :: rest, srcLen := srcLen, dstLen := dstLen }) hb rfl rfl
  rw [run_succ_of_next (hsrcLen hh), run_succ_of_next (hdstLen rfl),
    run_succ_of_next (hcmd.trans (exec_dec_of_not_busy hb)), run_zero]

/-- The host's four actions before the poll start the decoder on what follows the header (R261). -/
theorem run_decodeFrameScript {u : State} {size : Word} {rest : List Byte} (hb : u.status ≠ .busy)
    (hlen : rest.length ≤ 2 ^ 32) (hh : u.host = decodeFrameScript (encode (.hdr size) ++ rest)) :
    run 4 u = .next ((decStarted (frameBound size rest u)).polling u.readData) := by
  rw [decodeFrameScript_of_header] at hh
  rw [run_succ_of_next (step_bind_of_free (fun h => hb h.1) hlen hh)]
  exact run_decWrites hb rfl

/-- Settles O37: the host's sequence starts a `DEC` on the stream of the frame, which gives the input back by P2, polled or
not. -/
theorem decodeFrameOfEncode : Obligations.DecodeFrameOfEncode := by
  intro s s1 t u n hh hb he hrun hdone hbu hscript
  obtain ⟨bs, _, _, hpos⟩ := enc_done_stream hh hb he hrun hdone
  obtain ⟨hheader, hlen⟩ := enc_done_header hh hb he hrun hdone
  rw [hpos] at hlen
  have hout := t.outLen.isLt
  rw [readBytes_of_header hheader ((Nat.le_add_right _ _).trans hlen)] at hscript
  generalize hrest : Memory.readBytes t.dst hdrLen (t.outLen.toNat - hdrLen) = rest at hscript
  have hsize : rest.length = t.outLen.toNat - hdrLen := by rw [← hrest, readBytes_length]
  have hstart := run_decodeFrameScript hbu (by omega) hscript
  have hstream : t.dstPos.toNat - 16 ≤ rest.length := by
    rw [hpos, hsize]
    exact Nat.sub_le_sub_right hlen 16
  have hbytes : ∀ j, j < t.dstPos.toNat - 16 →
      Memory.read (frameBound s.srcLen rest u).src j = Memory.read t.dst (16 + j) := by
    intro j hj
    have hinside := read_writeBytes_inside [] rest (a := 0) (hj.trans_le hstream)
    rw [Nat.zero_add] at hinside
    refine hinside.trans ?_
    rw [← hrest]
    exact readBytes_getD _ _ _ _ (hsize ▸ hj.trans_le hstream)
  obtain ⟨m, v, hdec, hvdone, hagree, _⟩ :=
    roundTrip s s1 t (frameBound s.srcLen rest u) _ n hh hb he hrun hdone rfl hbu rfl
      (by rw [frameBound, BitVec.toNat_ofNat, Nat.mod_eq_of_lt (by omega)]; exact hstream) hbytes
      (exec_dec_of_not_busy hbu)
  have hund : Undisturbed (frameBound s.srcLen rest u).src (decStarted (frameBound s.srcLen rest u)) := ⟨rfl, rfl, rfl⟩
  obtain ⟨k, hpolled⟩ := run_polling hvdone m u.readData hund hdec
  exact ⟨4 + k, _, (run_add k hstart).trans hpolled, rfl, hvdone, dec_done_outLen rfl hdec hvdone, hagree⟩

end Sys2Proof.Machine
end

section
/-! What a fault leaves in the registers and in the spaces (60_exceptions R292, R293). -/

namespace Sys2Proof.Machine

/-- Fault entry keeps the identity registers and the lengths. -/
theorem raise_keeps_register (c : FaultCause) (p q : Nat) (s : State) {r : Reg}
    (hr : r ∈ [Reg.cic, .bootCrc, .srcLen, .dstLen, .romLen]) : (raise c p q s).regValue r = s.regValue r := by
  simp only [List.mem_cons, List.not_mem_nil, or_false] at hr
  rcases hr with rfl | rfl | rfl | rfl | rfl <;> rfl

/-- Settles O13: `raise` sets the report registers and nothing else; `FaultCause.kind` and `FaultCause.info` give each
cause the numbers of R25 and R26. -/
theorem faultEntry : Obligations.FaultEntry := by
  intro c p q s
  refine ⟨rfl, rfl, rfl, rfl, rfl, rfl, fun _ => raise_keeps_register c p q s, ?_, rfl, rfl, rfl⟩
  cases c <;> rfl

/-- A running operation that ends in `FAULT` does so by fault entry: a move that goes on stays `BUSY`, one that completes is
`DONE`. -/
theorem UnitMove.faulted {s t : State} (m : UnitMove s t) (hb : s.status = .busy) (hf : t.status = .fault) :
    ∃ c p q, Faulted c p q s t := by
  cases m with
  | goesOn e => exact absurd ((status_of_report e).trans hb) (hf.trans_ne nofun)
  | completes hdone => exact absurd hdone (hf.trans_ne nofun)
  | faults f => exact ⟨_, _, _, f⟩

/-- Settles O54: the faulting move leaves what fault entry leaves; that `CRC` leaves all of `DST` is its footprint. -/
theorem faultLeavesInputs : Obligations.FaultLeavesInputs := by
  intro s t hm hb h hf
  obtain ⟨_, _, hmove⟩ := step_of_blockMoves hm h
  obtain ⟨_, move⟩ := (blockTurn_cases hmove).resolve_right fun ⟨hidle, _⟩ => hidle hb
  obtain ⟨c, _, _, fault⟩ := move.faulted hb hf
  obtain ⟨hsrc, hrom⟩ := fault.inputs
  obtain ⟨_, _, _, _, _, _, hdst, _⟩ := blockFootprint s t hm h
  exact ⟨hsrc, hrom, fault.outLen, fun hnone => c.kind_ne_none (fault.err.symm.trans hnone), fault.beyond,
    fun hu => hdst (.inr hu)⟩

end Sys2Proof.Machine
end

section
/-! The reset event (70_reset R320 to R322), the machine right after it, and the block that waits for a command (R323). -/

namespace Sys2Proof.Machine

/-! ## The registers after reset -/

theorem regValue_reset (r : Reg) : State.reset.regValue r = 0 := by cases r <;> rfl

/-- The reset event gives the registers the values they have in the state after reset (R321). -/
theorem regValue_resetEvent (s : State) (r : Reg) : (resetEvent s).regValue r = State.reset.regValue r := by
  rw [resetEvent]
  cases r <;> rfl

/-! ## The spaces after reset -/

/-- `DST` is an output space of the two codecs only (R322). -/
theorem resetEvent_dst_of_no_codec (s : State) (h : s.status ≠ .busy ∨ s.unit = .crc) : (resetEvent s).dst = s.dst := by
  rw [resetEvent, resetRegs_dst]
  rcases abandonOutput_cases s with ⟨_, _, e⟩ | ⟨hb, hu, _⟩ | ⟨_, e⟩
  · rw [e, havocRomWords_dst]
  · exact absurd h (not_or_intro (not_not_intro hb) hu)
  · rw [e]

/-- `ROM` is the output space of the CRC unit only (R322). -/
theorem resetEvent_rom_of_no_crc (s : State) (h : s.status ≠ .busy ∨ s.unit ≠ .crc) : (resetEvent s).rom = s.rom := by
  rw [resetEvent, resetRegs_rom]
  rcases abandonOutput_cases s with ⟨hb, hu, _⟩ | ⟨_, _, e⟩ | ⟨_, e⟩
  · exact absurd h (not_or_intro (not_not_intro hb) (not_not_intro hu))
  · rw [e, havocDst_rom]
  · rw [e]

/-! ## The settled statements -/

/-- Settles O55: the step is `resetEvent` on the state without the action, whose host's side it leaves (log 22). -/
theorem resetEventEffect : Obligations.ResetEventEffect := by
  intro s rest hh
  let u : State := { s with host := rest }
  refine ⟨resetEvent u, step_hostAction hh nofun nofun, resetEvent_host u, rfl, fun r => ?_, resetEvent_src u,
    resetEvent_dst u, resetEvent_rom u, resetEvent_dst_of_no_codec u, resetEvent_rom_of_no_crc u⟩
  rw [regValue_resetEvent, regValue_reset]

/-- Settles O8: the step is the block's move, and a block that is not busy leaves the state. -/
theorem waitsForCommand : Obligations.WaitsForCommand := by
  intro s hh hb
  obtain ⟨t, hmove, _⟩ := blockTurn_next s
  have hstep : step s = .next t := (step_of_no_host hh).trans hmove
  rw [hstep, step_of_not_busy hh hb hstep]

/-- Settles O56. -/
theorem resetState : Obligations.ResetState := ⟨rfl, regValue_reset⟩

/-- The reset event leaves the state after reset as it is. -/
theorem resetEvent_reset : resetEvent State.reset = State.reset := rfl

/-- Settles O60: the spaces are empty, the report is what every reset event leaves, no unit runs and no version is
reported. -/
theorem resetMeetsInvariants : Obligations.ResetMeetsInvariants := by
  have hidle : State.reset.status ≠ .busy := nofun
  have hreport : State.reset.ReportOk := resetEvent_reset ▸ resetEvent_reportOk State.reset
  exact ⟨⟨rfl, rfl, rfl⟩, hreport, decOk_of_not_busy hidle, encOk_of_not_busy hidle, crcOk_of_not_busy hidle,
    fun hcic => absurd rfl hcic⟩

end Sys2Proof.Machine
end
